-- ==== Sys2Proof/Word.lean ====
section
/-! DEFINITION. The word types of the block (spec/00_scope.md R10) and nothing else. -/

namespace Sys2Proof

/-- `u8` of R10. -/
abbrev Byte := BitVec 8

/-- `u16` of R10. -/
abbrev U16 := BitVec 16

/-- `u32` of R10. -/
abbrev U32 := BitVec 32

/-- `u64` of R10. -/
abbrev U64 := BitVec 64

/-- A raw counter sample. The counter is `W` bits wide with `1 <= W <= 32` (R8), so every sample
fits 32 bits; `Sys2Proof.Machine.truncW` keeps its value below `2^W`. -/
abbrev Sample := BitVec 32

end Sys2Proof
end

