-- ==== Sys2Proof/Syntax.lean ====
section
/-! DEFINITION. The operations of spec/30_encoding.md R78 to R80 with their operand records (R76),
and the operand types of spec/00_scope.md R15, R16, R18, R19. One constructor per row of
spec/opcode_table.json. An array of capacity `C` is a list of length `C` with its contents. -/

namespace Sys2Proof

/-- `EdgeSample` (R15). -/
structure EdgeSample where
  high : Bool
  durationNs : U32
deriving DecidableEq, Repr

/-- `TimingProfile` (R16): nanoseconds, but `resetMin` in microseconds. -/
structure TimingProfile where
  t0hMin : U32
  t0hMax : U32
  t0lMin : U32
  t0lMax : U32
  t1hMin : U32
  t1hMax : U32
  t1lMin : U32
  t1lMax : U32
  resetMin : U32
  gapTolerance : U32
deriving DecidableEq, Repr

/-- `RxConfig` (R18). -/
structure RxConfig where
  bufferSize : U32
  signalRangeMaxNs : U32
  startLow : Bool
deriving DecidableEq, Repr

/-- `WaitStatus` (R19). -/
inductive WaitStatus where
  | success
  | timeout
deriving DecidableEq, Repr

/-- The reasons an `F_RSN` record may hold: "one of BufferFull, Inactivity, Timeout" (R76, R103). -/
inductive EndReason where
  | bufferFull
  | inactivity
  | timeout
deriving DecidableEq, Repr

/-- The 16 operations (R78, R79, R80). -/
inductive Instr where
  /-- 0x01 `CREATE pin` (R199) -/
  | create (pin : U16)
  /-- 0x02 `BEGIN config` (R88) -/
  | beginCapture (config : RxConfig)
  /-- 0x03 `FINISHED` (R93) -/
  | finished
  /-- 0x04 `WAIT timeout_ms` (R95) -/
  | wait (timeoutMs : U32)
  /-- 0x05 `DECODE profile, out` (R171) -/
  | decode (profile : TimingProfile) (out : List Byte)
  /-- 0x06 `GET_RAW_EDGE_TIMES dst, offset` (R152) -/
  | getRawEdgeTimes (dst : List EdgeSample) (offset : U32)
  /-- 0x07 `INJECT_EDGES edges` (R106) -/
  | injectEdges (edges : List EdgeSample)
  /-- 0x08 `DESTROY` (R109) -/
  | destroy
  /-- 0x10 `ARM` (R120) -/
  | arm
  /-- 0x11 `DISARM` (R121) -/
  | disarm
  /-- 0x12 `READ_PROGRESS` (R122) -/
  | readProgress
  /-- 0x13 `SYNC_READS first, count` (R123) -/
  | syncReads (first : U32) (count : U32)
  /-- 0x14 `COMPLETE_CAPTURE reason, status` (R103) -/
  | completeCapture (reason : EndReason) (status : WaitStatus)
  /-- 0x20 `BUILD_EDGES` (R143) -/
  | buildEdges
  /-- 0x30 `DECODE_BIT high_ns, low_ns, profile` (R158) -/
  | decodeBit (highNs : U32) (lowNs : U32) (profile : TimingProfile)
  /-- 0x31 `DECODE_EDGES profile, edges, out` (R162) -/
  | decodeEdges (profile : TimingProfile) (edges : List EdgeSample) (out : List Byte)
deriving DecidableEq, Repr

end Sys2Proof
end

