-- ==== Sys2Proof/WellFormed.lean ====
section
/-! DEFINITION. When an operation's operand record fits its format (spec/30_encoding.md R83). The
types of the fields carry every range but one: an array's declared capacity and a list's length are
`u32` values (R76, D36; the byte form is the model's, log 8). -/

namespace Sys2Proof

/-- The capacity or length of an operand list is a `u32` value. -/
def fitsU32 (n : Nat) : Bool := decide (n < 2 ^ 32)

/-- The operand record of `i` fits its format (R76, R83). -/
def Instr.wellFormed : Instr → Bool
  | .create _ => true
  | .beginCapture _ => true
  | .finished => true
  | .wait _ => true
  | .decode _ out => fitsU32 out.length
  | .getRawEdgeTimes dst _ => fitsU32 dst.length
  | .injectEdges edges => fitsU32 edges.length
  | .destroy => true
  | .arm => true
  | .disarm => true
  | .readProgress => true
  | .syncReads _ _ => true
  | .completeCapture _ _ => true
  | .buildEdges => true
  | .decodeBit _ _ _ => true
  | .decodeEdges _ edges out => fitsU32 edges.length && fitsU32 out.length

end Sys2Proof
end

