-- ==== Sys2Proof/Decode.lean ====
section
/-! DEFINITION. The decoder of spec/30_encoding.md R86 and the encoder beside it. The code byte and
the operand types are the spec's (R75 to R83); the spec gives the operand record no bytes ("operands
are typed values, not bits", R75), so its byte form is a DESIGN CHOICE (log 8): the fields in the
order R76 lists them, each number little-endian in its own width, a boolean one byte 0 or 1, a list
or array its u32 length and then its elements. -/

namespace Sys2Proof

/-- Why the decoder refuses a record (R82, R83). -/
inductive DecodeFail where
  /-- The code is not in R78 to R80 (R82). -/
  | reservedOpcode
  /-- The operand record does not fit the code's format (R83). -/
  | malformedOperands
deriving DecidableEq, Repr

/-! ### Reading fields -/

/-- One byte. -/
def getU8 : List Byte → Option (Byte × List Byte)
  | b :: rest => some (b, rest)
  | [] => none

/-- A `u16`, low byte first. -/
def getU16 : List Byte → Option (U16 × List Byte)
  | b0 :: b1 :: rest => some (BitVec.ofNat 16 (b0.toNat + 256 * b1.toNat), rest)
  | _ => none

/-- A `u32`, low byte first. -/
def getU32 : List Byte → Option (U32 × List Byte)
  | b0 :: b1 :: b2 :: b3 :: rest =>
    some (BitVec.ofNat 32
      (b0.toNat + 256 * b1.toNat + 65536 * b2.toNat + 16777216 * b3.toNat), rest)
  | _ => none

/-- A boolean: 0 or 1, any other byte is outside the type's range (R83). -/
def getBool : List Byte → Option (Bool × List Byte)
  | b :: rest =>
    if b.toNat = 0 then some (false, rest) else if b.toNat = 1 then some (true, rest) else none
  | [] => none

/-- `n` elements one after another. -/
def getMany {α : Type} (get : List Byte → Option (α × List Byte)) :
    Nat → List Byte → Option (List α × List Byte)
  | 0, bs => some ([], bs)
  | n + 1, bs => do
    let (a, bs) ← get bs
    let (as, bs) ← getMany get n bs
    return (a :: as, bs)

/-- A list or array: its length or declared capacity, then that many elements. -/
def getList {α : Type} (get : List Byte → Option (α × List Byte)) (bs : List Byte) :
    Option (List α × List Byte) := do
  let (n, bs) ← getU32 bs
  getMany get n.toNat bs

/-- An `EdgeSample` (R15). -/
def getEdge (bs : List Byte) : Option (EdgeSample × List Byte) := do
  let (high, bs) ← getBool bs
  let (durationNs, bs) ← getU32 bs
  return ({ high, durationNs }, bs)

/-- A `TimingProfile` (R16), its fields in the order R16 lists them. -/
def getProfile (bs : List Byte) : Option (TimingProfile × List Byte) := do
  let (t0hMin, bs) ← getU32 bs
  let (t0hMax, bs) ← getU32 bs
  let (t0lMin, bs) ← getU32 bs
  let (t0lMax, bs) ← getU32 bs
  let (t1hMin, bs) ← getU32 bs
  let (t1hMax, bs) ← getU32 bs
  let (t1lMin, bs) ← getU32 bs
  let (t1lMax, bs) ← getU32 bs
  let (resetMin, bs) ← getU32 bs
  let (gapTolerance, bs) ← getU32 bs
  return ({ t0hMin, t0hMax, t0lMin, t0lMax, t1hMin, t1hMax, t1lMin, t1lMax, resetMin,
            gapTolerance }, bs)

/-- An `RxConfig` (R18). -/
def getConfig (bs : List Byte) : Option (RxConfig × List Byte) := do
  let (bufferSize, bs) ← getU32 bs
  let (signalRangeMaxNs, bs) ← getU32 bs
  let (startLow, bs) ← getBool bs
  return ({ bufferSize, signalRangeMaxNs, startLow }, bs)

/-- The reason of an `F_RSN` record by its code of R177: 1 BufferFull, 2 Inactivity, 3 Timeout; any
other byte is outside the type's range (R76, R83), the codes of None and Injected among them. -/
def getEndReason : List Byte → Option (EndReason × List Byte)
  | b :: rest =>
    if b.toNat = 1 then some (.bufferFull, rest)
    else if b.toNat = 2 then some (.inactivity, rest)
    else if b.toNat = 3 then some (.timeout, rest)
    else none
  | [] => none

/-- A `WaitStatus` by its code of R177: 0 Success, 1 Timeout. -/
def getWaitStatus : List Byte → Option (WaitStatus × List Byte)
  | b :: rest =>
    if b.toNat = 0 then some (.success, rest)
    else if b.toNat = 1 then some (.timeout, rest)
    else none
  | [] => none

/-! ### Writing fields -/

/-- A `u16`, low byte first. -/
def putU16 (v : U16) : List Byte :=
  [BitVec.ofNat 8 v.toNat, BitVec.ofNat 8 (v.toNat / 256)]

/-- A `u32`, low byte first. -/
def putU32 (v : U32) : List Byte :=
  [BitVec.ofNat 8 v.toNat, BitVec.ofNat 8 (v.toNat / 256),
   BitVec.ofNat 8 (v.toNat / 65536), BitVec.ofNat 8 (v.toNat / 16777216)]

/-- A boolean. -/
def putBool (b : Bool) : List Byte := [if b then 1 else 0]

/-- A list or array: its length, then its elements. -/
def putList {α : Type} (put : α → List Byte) (as : List α) : List Byte :=
  putU32 (BitVec.ofNat 32 as.length) ++ as.flatMap put

/-- An `EdgeSample`. -/
def putEdge (e : EdgeSample) : List Byte := putBool e.high ++ putU32 e.durationNs

/-- A `TimingProfile`. -/
def putProfile (p : TimingProfile) : List Byte :=
  putU32 p.t0hMin ++ putU32 p.t0hMax ++ putU32 p.t0lMin ++ putU32 p.t0lMax
    ++ putU32 p.t1hMin ++ putU32 p.t1hMax ++ putU32 p.t1lMin ++ putU32 p.t1lMax
    ++ putU32 p.resetMin ++ putU32 p.gapTolerance

/-- An `RxConfig`. -/
def putConfig (c : RxConfig) : List Byte :=
  putU32 c.bufferSize ++ putU32 c.signalRangeMaxNs ++ putBool c.startLow

/-- The reason of an `F_RSN` record by its code of R177. -/
def putEndReason : EndReason → List Byte
  | .bufferFull => [1]
  | .inactivity => [2]
  | .timeout => [3]

/-- A `WaitStatus` by its code of R177. -/
def putWaitStatus : WaitStatus → List Byte
  | .success => [0]
  | .timeout => [1]

/-! ### The operation map -/

/-- The code byte of each operation (R78, R79, R80). -/
def Instr.opcode : Instr → Byte
  | .create _ => 0x01
  | .beginCapture _ => 0x02
  | .finished => 0x03
  | .wait _ => 0x04
  | .decode _ _ => 0x05
  | .getRawEdgeTimes _ _ => 0x06
  | .injectEdges _ => 0x07
  | .destroy => 0x08
  | .arm => 0x10
  | .disarm => 0x11
  | .readProgress => 0x12
  | .syncReads _ _ => 0x13
  | .completeCapture _ _ => 0x14
  | .buildEdges => 0x20
  | .decodeBit _ _ _ => 0x30
  | .decodeEdges _ _ _ => 0x31

/-- The operand record of each operation, by its format (R76). -/
def Instr.operandBytes : Instr → List Byte
  | .create pin => putU16 pin
  | .beginCapture config => putConfig config
  | .finished => []
  | .wait timeoutMs => putU32 timeoutMs
  | .decode profile out => putProfile profile ++ putList (fun b => [b]) out
  | .getRawEdgeTimes dst offset => putList putEdge dst ++ putU32 offset
  | .injectEdges edges => putList putEdge edges
  | .destroy => []
  | .arm => []
  | .disarm => []
  | .readProgress => []
  | .syncReads first count => putU32 first ++ putU32 count
  | .completeCapture reason status => putEndReason reason ++ putWaitStatus status
  | .buildEdges => []
  | .decodeBit highNs lowNs profile => putU32 highNs ++ putU32 lowNs ++ putProfile profile
  | .decodeEdges profile edges out =>
    putProfile profile ++ putList putEdge edges ++ putList (fun b => [b]) out

/-- The operation record of `i`: its code byte and its operand record (R75). -/
def encode (i : Instr) : List Byte := i.opcode :: i.operandBytes

/-- The operand record read by the format of the code `op`, with the bytes left over. The outer
`none` says that no operation has this code (R82), the inner one that the record does not fit the
format (R83). -/
def getOperands (op : Nat) (bs : List Byte) : Option (Option (Instr × List Byte)) :=
  match op with
  | 0x01 => some do
    let (pin, bs) ← getU16 bs
    return (.create pin, bs)
  | 0x02 => some do
    let (config, bs) ← getConfig bs
    return (.beginCapture config, bs)
  | 0x03 => some (some (.finished, bs))
  | 0x04 => some do
    let (timeoutMs, bs) ← getU32 bs
    return (.wait timeoutMs, bs)
  | 0x05 => some do
    let (profile, bs) ← getProfile bs
    let (out, bs) ← getList getU8 bs
    return (.decode profile out, bs)
  | 0x06 => some do
    let (dst, bs) ← getList getEdge bs
    let (offset, bs) ← getU32 bs
    return (.getRawEdgeTimes dst offset, bs)
  | 0x07 => some do
    let (edges, bs) ← getList getEdge bs
    return (.injectEdges edges, bs)
  | 0x08 => some (some (.destroy, bs))
  | 0x10 => some (some (.arm, bs))
  | 0x11 => some (some (.disarm, bs))
  | 0x12 => some (some (.readProgress, bs))
  | 0x13 => some do
    let (first, bs) ← getU32 bs
    let (count, bs) ← getU32 bs
    return (.syncReads first count, bs)
  | 0x14 => some do
    let (reason, bs) ← getEndReason bs
    let (status, bs) ← getWaitStatus bs
    return (.completeCapture reason status, bs)
  | 0x20 => some (some (.buildEdges, bs))
  | 0x30 => some do
    let (highNs, bs) ← getU32 bs
    let (lowNs, bs) ← getU32 bs
    let (profile, bs) ← getProfile bs
    return (.decodeBit highNs lowNs profile, bs)
  | 0x31 => some do
    let (profile, bs) ← getProfile bs
    let (edges, bs) ← getList getEdge bs
    let (out, bs) ← getList getU8 bs
    return (.decodeEdges profile edges out, bs)
  | _ => none

/-- The decoding procedure (R86): read the code, take its format, check the record against it. A
record with bytes left over does not fit its format, so an array whose declared capacity differs
from its length does not either (R83). -/
def decode : List Byte → Except DecodeFail Instr
  | [] => .error .malformedOperands
  | op :: bs =>
    match getOperands op.toNat bs with
    | none => .error .reservedOpcode
    | some (some (i, [])) => .ok i
    | some _ => .error .malformedOperands

/-! ### Words of the opcode table -/

/-- The length in bytes of the record of zeros of each code's format (R76). -/
def zeroOperandLength (op : Nat) : Nat :=
  match op with
  | 0x01 => 2
  | 0x02 => 9
  | 0x04 => 4
  | 0x05 => 44
  | 0x06 => 8
  | 0x07 => 4
  | 0x13 => 8
  | 0x14 => 2
  | 0x30 => 48
  | 0x31 => 48
  | _ => 0

/-- The first `n` bytes of the number `w`, the least significant first. -/
def wordBytes : Nat → Nat → List Byte
  | 0, _ => []
  | n + 1, w => BitVec.ofNat 8 w :: wordBytes n (w / 256)

/-- The operation record whose first `nbits` bits are `w` and whose other bits are zeros. -/
def tableRecord (nbits w : Nat) : List Byte :=
  let bs := wordBytes ((nbits + 7) / 8) w
  bs ++ List.replicate (1 + zeroOperandLength (w % 256) - bs.length) 0

/-- The operation the decoder reads from the table's word `w` of `nbits` bits, operands of zeros. -/
def decodeTableWord (nbits w : Nat) : Option Instr :=
  (decode (tableRecord nbits w)).toOption

end Sys2Proof
end

