-- ==== Sys2Proof/Config.lean ====
section
/-! DEFINITION. What is fixed for the machine: the literal parameters of spec/00_scope.md R8 and R9,
the shape of the OPEN parameters of R8 (a record, over which every statement quantifies), the
fixture values of spec/95_test_vectors.md section 0, and the free values, which have no body. -/

namespace Sys2Proof

/-- `P_MAX_SLOTS` (R8): the upper bound on capture slots. -/
def Config.maxSlots : Nat := 8192

/-- `P_GAP_NS` (R8, R148): the Edge Builder's gap threshold in nanoseconds. -/
def Config.gapNs : Nat := 5000

/-- `P_ERR_FACTOR` (R9): a decode is rejected when `invalid * 10 > total`. -/
def Config.errFactor : Nat := 10

/-- FREE VALUE (U2, log 20). The counter's start value `c0` drawn at an `ARM` (R32, R120), as a
function of the draw counter of State. No body: nothing can be proved of its value. -/
opaque Config.counterStart : Nat → Nat

/-- FREE VALUE (U5, log 21). What a foreground read of a Stale slot returns (R63), as a function of
the draw counter of State. No body: nothing can be proved of its value. -/
opaque Config.staleRead : Nat → Nat

/-- FREE VALUE (log 26). Whether `status_of(None)`, which R95 does not state, is Success. No body:
nothing can be proved of its value. -/
opaque Config.statusOfNoneIsSuccess : Bool

/-- `P_BYTE_ORDER` (R8, R56). -/
inductive ByteOrder where
  | little
  | big
deriving DecidableEq, Repr

/-- The backend variant of a channel (R117). -/
inductive Backend where
  | hardware
  | mock
deriving DecidableEq, Repr

/-- A Pin Capability Record: one entry of `P_PIN_TABLE` (R8). The handle and the multiplexer value
are opaque record fields (N2). -/
structure PinRecord where
  pin : U16
  backendId : Nat
  peripheralHandle : Nat
  muxConfig : Nat
deriving DecidableEq, Repr

/-- The OPEN parameters of R8, one field each, and the two facts of the platform that the rules
read without naming a parameter: whether `BUF` is padded to whole cache lines (R57) and which
backend variant the channel has (R117). -/
structure Platform where
  /-- `W` -/
  counterBits : Nat
  /-- `P_CLOCK_HZ` -/
  clockHz : Nat
  /-- `P_POLL_US` -/
  pollUs : Nat
  /-- `P_CACHE_COHERENT` -/
  cacheCoherent : Bool
  /-- `P_CACHE_LINE` -/
  cacheLine : Nat
  /-- `P_MAX_EDGES` -/
  maxEdges : Nat
  /-- `P_PIN_TABLE` -/
  pinTable : List PinRecord
  /-- `P_BACKEND_ID` -/
  backendId : Nat
  /-- `P_CAPTURE_SERVICE_NS` -/
  captureServiceNs : Nat
  /-- `P_BUF_BASE` -/
  bufBase : Nat
  /-- `P_BYTE_ORDER` -/
  byteOrder : ByteOrder
  /-- The buffer is padded to a whole number of cache lines that hold no other data (R57). -/
  bufPadded : Bool
  /-- The channel's backend variant (R117). -/
  backend : Backend
deriving DecidableEq, Repr

/-- The laws R8 states for the parameters: `1 <= W <= 32`, `P_CLOCK_HZ > 0`, `P_POLL_US > 0`,
`P_CACHE_LINE` a power of two. -/
def Platform.lawful (p : Platform) : Bool :=
  decide (1 ≤ p.counterBits) && decide (p.counterBits ≤ 32) && decide (0 < p.clockHz)
    && decide (0 < p.pollUs) && decide (p.cacheLine = 2 ^ p.cacheLine.log2)

/-- DESIGN CHOICE (log 7). The fixture of spec/95_test_vectors.md section 0 (D43), with the values
that section leaves out chosen here: backend id 1, handle 0, multiplexer value 0, line of 32 bytes,
buffer at address 0, little-endian slots, padded, hardware backend. -/
def Platform.fixture : Platform where
  counterBits := 16
  clockHz := 80000000
  pollUs := 10
  cacheCoherent := true
  cacheLine := 32
  maxEdges := 1024
  pinTable := [{ pin := 5, backendId := 1, peripheralHandle := 0, muxConfig := 0 }]
  backendId := 1
  captureServiceNs := 100
  bufBase := 0
  byteOrder := .little
  bufPadded := true
  backend := .hardware

end Sys2Proof
end

