-- ==== Sys2Proof/Machine/State.lean ====
section
/-! DEFINITION. The state of the block (spec/10_state.md), grouped by owner as that file groups it:
`CH`, `CAP`, `XFER`, `IRQ`, `SIG`, `BUF`, `VIS`, `LINE`, `CLK`, the marks, and the model's own
schedule. Beside it the reasons of R178 and the state after reset (R50, R199). -/

namespace Sys2Proof.Machine

/-- The `fault` reasons of R178. A meaning that meets one answers a NEXT state with the mark
`FAULTED` set and the reason in `State.result` (R12, R51, log 10); no step stops with one. -/
inductive Fault where
  /-- Raised by `BufRead_FG` (R52, R63), `SYNC_READS` (R123) and a read of `CH.cfg` before a
  successful `BEGIN` (R52): state holding no value was read (R178). Safe: no value is invented. -/
  | unwrittenRead
  /-- Raised by `BufRead_FG` in `Capturing` (R63, R64). Safe: no value is invented. -/
  | concurrentBufferRead
deriving DecidableEq, Repr

/-- The `refuse` reasons of R178, and the one the host asks for. A meaning that meets one answers a
NEXT state with the mark `REFUSED` set, the reason in `State.result` and no other effect (R12, R51,
log 10); no step stops with one. -/
inductive Refusal where
  /-- An operation whose meaning is not written yet. Raised by no arm of this model. Safe. -/
  | notModelled (mnemonic : String)
  /-- Raised by every channel operation in `Destroyed` (R110). Safe. -/
  | useAfterDestroy
  /-- Raised by every channel operation before `CREATE` (R199). Safe. -/
  | noChannel
  /-- Raised by a second `CREATE` (R199). Safe. -/
  | alreadyCreated
  /-- Raised by `BEGIN` with `start_low = false` (R88). Safe. -/
  | startHighUnsupported
  /-- Raised by `BEGIN` where the parameters break R57 (R88). Safe. -/
  | misalignedBuffer
  /-- Raised by an internal operation the caller issues (R80). Safe. -/
  | internalOperation
  /-- Raised by the decoder on a code not assigned (R82). Safe. -/
  | reservedOpcode
  /-- Raised by the decoder on a record that does not fit its format (R83). Safe. -/
  | malformedOperands
  /-- Raised by every operation issued from interrupt context (R111). Safe. -/
  | wrongContext
deriving DecidableEq, Repr

/-- `ChannelState` (R19, R23). -/
inductive ChannelState where
  | idle
  | configured
  | capturing
  | complete
  | destroyed
deriving DecidableEq, Repr

/-- `BeginError` (R19, R26). -/
inductive BeginError where
  | none
  | unsupportedPin
  | resourceBusy
  | invalidConfig
deriving DecidableEq, Repr

/-- `CompletionReason` (R19, R27). -/
inductive CompletionReason where
  | none
  | bufferFull
  | inactivity
  | timeout
  | injected
deriving DecidableEq, Repr

/-- `BitValue` (R19). -/
inductive BitValue where
  | zero
  | one
  | invalid
deriving DecidableEq, Repr

/-- `DecodeError` (R19). -/
inductive DecodeError where
  | bufferOverflow
  | highErrorRate
deriving DecidableEq, Repr

/-- A decode result: "either a count of bytes successfully decoded, or a decode failure kind" (R12,
R173). -/
inductive DecodeResult where
  | ok (written : Nat)
  | err (kind : DecodeError)
deriving DecidableEq, Repr

/-- `CH.last_stats` (R30). -/
structure DecodeStats where
  totalBits : U32
  invalidBits : U32
deriving DecidableEq, Repr

/-- `VIS[i]` (R42). -/
inductive Visibility where
  | fresh
  | stale
deriving DecidableEq, Repr

/-- The channel registers `CH` (R22 to R31). -/
structure Channel where
  /-- `CH.pin` (R22) -/
  pin : U16
  /-- `CH.state` (R23) -/
  state : ChannelState
  /-- `CH.cfg` (R24) -/
  cfg : RxConfig
  /-- `CH.cfg` holds a value: a `BEGIN` has succeeded (R50, R52) -/
  cfgWritten : Bool
  /-- `CH.capacity` (R25) -/
  capacity : Nat
  /-- `CH.last_error` (R26) -/
  lastError : BeginError
  /-- `CH.completion_reason` (R27) -/
  completionReason : CompletionReason
  /-- `CH.n_samples` (R28) -/
  nSamples : Nat
  /-- `CH.edges` (R29) -/
  edges : List EdgeSample
  /-- `CH.edges_valid` (R29) -/
  edgesValid : Bool
  /-- `CH.last_stats` (R30) -/
  lastStats : DecodeStats
  /-- `CH.buf_allocated` (R31) -/
  bufAllocated : Bool
deriving DecidableEq, Repr

/-- The capture unit `CAP` (R32 to R34, R120, R130). -/
structure Capture where
  /-- `c0`, the counter's start value (R32) -/
  c0 : Sample
  /-- Time since the arm instant, in units of `1 / (P_CLOCK_HZ * 10^9)` seconds: one counter period
  is `10^9` units, one nanosecond is `P_CLOCK_HZ` units (R32, log 17) -/
  elapsed : Nat
  /-- The counter runs and the single any-edge capture mode is set, from `ARM` until `DESTROY` (R32,
  R116) -/
  configured : Bool
  /-- The Pin Capability Record `CH.pin` is routed by (R120), until `DESTROY` -/
  route : Option PinRecord
  /-- `CAP.capture_reg` (R33) -/
  captureReg : Sample
  /-- `CAP.armed` (R34) -/
  armed : Bool
  /-- `k` of the last recorded edge (R130) -/
  lastK : Nat
  /-- `elapsed` at the last latch (R127) -/
  latchAt : Nat
deriving DecidableEq, Repr

/-- The transfer engine `XFER` (R35 to R38). -/
structure Transfer where
  /-- `XFER.length` (R35) -/
  length : Nat
  /-- `XFER.progress` (R37) -/
  progress : Nat
  /-- `XFER.enabled` (R36) -/
  enabled : Bool
  /-- `XFER.pending` (R38) -/
  pending : List Sample
  /-- The engine is attached, from `ARM` until `DESTROY` detaches it (R109) -/
  attached : Bool
deriving DecidableEq, Repr

/-- The completion interrupt line (R39). -/
structure Interrupt where
  /-- `IRQ.enabled` -/
  enabled : Bool
  /-- `IRQ.pending` -/
  pending : Bool
  /-- `ISR.running` -/
  isrRunning : Bool
deriving DecidableEq, Repr

/-- The working registers of a live `WAIT` (R43), with the deadline of R95 and the target of the
sleep of R100. -/
structure WaitRegs where
  /-- `t_start` -/
  tStart : U64
  /-- `deadline_us` -/
  deadlineUs : Nat
  /-- `last_progress` -/
  lastProgress : Nat
  /-- `t_last` -/
  tLast : U64
  /-- `result`: written by the exit that is taken, read by the return (log 30) -/
  result : WaitStatus
  /-- The next poll runs once the clock has reached this (R100) -/
  wakeAt : Nat
deriving DecidableEq, Repr

/-- The working registers of the Decode Engine (R44). -/
structure EngineRegs where
  i : Nat
  acc : Byte
  nbits : Nat
  written : Nat
  total : Nat
  invalid : Nat
deriving DecidableEq, Repr

/-- `CLK` (R46): the clock's value, and the advances of the clock between two successive readings
inside one foreground step, oldest first (log 23). -/
structure Clock where
  now : U64
  draws : List Nat
deriving DecidableEq, Repr

/-- Who issues the operation being executed: the caller in the foreground, an interrupt handler
(R111), or the block itself from inside the rule of another operation (R80). -/
inductive Issuer where
  | caller
  | interrupt
  | block
deriving DecidableEq, Repr

/-- The outcome of R127 where an edge arrives while a sample is pending. -/
inductive Overrun where
  | replace
  | duplicate
deriving DecidableEq, Repr

/-- One step of the hardware agents `SIG`, `CAP` and `ISR` (R6), which may fall between two foreground
steps or inside one (R7). -/
inductive HwStep where
  /-- `SIG`: the line's level changes now (R45, R125); `late` is the draw of R130 (`k` is the floor
  or one more), `overrun` the draw of R127. -/
  | edge (late : Bool) (overrun : Overrun)
  /-- The transfer step (R126). -/
  | transfer
  /-- The whole ISR step (R181). -/
  | isr
  /-- The ISR is entered and acknowledges (R181, first two lines). -/
  | isrEntry
  /-- The ISR signals and returns (R181, last two lines). -/
  | isrReturn
  /-- Real time passes: this many units of `Capture.elapsed` (R32). -/
  | elapse (units : Nat)
deriving DecidableEq, Repr

/-- The platform outside the block. -/
structure Environment where
  /-- The peripherals other live channels hold (R119). -/
  otherHeld : List Nat
  /-- What the hardware agents do at the next points inside foreground steps at which they may, a
  list of steps for each point, the next point's first (R7, log 15). -/
  during : List (List HwStep)
deriving DecidableEq, Repr

/-- One scheduled step of an agent (R6, R7, log 13). -/
inductive Move where
  /-- The foreground takes its next step: a poll of the live `WAIT`, or the next operation. -/
  | foreground
  /-- An interrupt handler issues an operation (R111). -/
  | handlerOp (record : List Byte)
  /-- A hardware agent takes a step. -/
  | hardware (step : HwStep)
  /-- The host clock advances by this many microseconds (R46). -/
  | clock (us : Nat)
  /-- Another live channel takes or releases the peripheral with this handle (R119). -/
  | otherHolds (handle : Nat) (held : Bool)
  /-- The environment settles what the hardware agents will do at one more point inside the
  foreground's steps (R7, log 15). -/
  | during (steps : List HwStep)
deriving DecidableEq, Repr

/-- What the last operation returned (R12): its result value, and the caller's array it was lent
after it (R54, R152). -/
inductive OpResult where
  /-- No operation has returned yet. -/
  | nothing
  /-- The operation returned and returns no value (`CREATE`, `DESTROY`, the internal operations). -/
  | unit
  /-- `BEGIN`, `FINISHED`, `INJECT_EDGES` -/
  | bool (b : Bool)
  /-- A `WAIT` is live and has not returned (R95). -/
  | waiting
  /-- `WAIT` -/
  | waitStatus (status : WaitStatus)
  /-- `DECODE`, with `out` after it -/
  | decoded (res : DecodeResult) (out : List Byte)
  /-- `DECODE_EDGES`, with the counts beside its result (R162) and `out` after it -/
  | decodedEdges (res : DecodeResult) (total invalid : Nat) (out : List Byte)
  /-- `GET_RAW_EDGE_TIMES`, with `dst` after it -/
  | copied (count : Nat) (dst : List EdgeSample)
  /-- `READ_PROGRESS` -/
  | progress (p : Nat)
  /-- `DECODE_BIT` -/
  | bit (v : BitValue)
  /-- `refuse(reason)` -/
  | refused (reason : Refusal)
  /-- `fault(reason)` -/
  | faulted (reason : Fault)
deriving DecidableEq, Repr

/-- The whole state: everything spec/10_state.md gives the block and its environment, and the
model's own schedule, issuer, draw counter and last result. -/
structure State where
  /-- The parameters of R8; no step changes them (log 7) -/
  plat : Platform
  /-- A channel exists (R199) -/
  created : Bool
  /-- `CH` -/
  ch : Channel
  /-- `CAP` -/
  cap : Capture
  /-- `XFER` -/
  xfer : Transfer
  /-- `IRQ`, `ISR` -/
  irq : Interrupt
  /-- `SIG.completion` (R40) -/
  completion : Bool
  /-- `BUF` in bytes (R41, R55): addresses strictly rising, no byte 0 listed -/
  mem : List Host.Cell
  /-- `VIS`, one entry for each slot (R42) -/
  vis : List Visibility
  /-- This channel holds the peripheral of its pin (R109, R119) -/
  held : Bool
  /-- The live `WAIT`, if one is (R43) -/
  wait : Option WaitRegs
  /-- The Decode Engine's working registers (R44) -/
  eng : EngineRegs
  /-- `LINE.level` (R45) -/
  line : Bool
  /-- `CLK` (R46) -/
  clk : Clock
  /-- The platform outside the block -/
  env : Environment
  /-- Who issues the operation being executed (R80, R111) -/
  issuer : Issuer
  /-- The operation records the foreground will issue, first first (R70) -/
  ops : List (List Byte)
  /-- The agents' scheduled moves, first first (R7) -/
  sched : List Move
  /-- How many free values have been drawn -/
  draws : Nat
  /-- What the last operation returned -/
  result : OpResult
  /-- `REFUSED` (R51) -/
  refused : Bool
  /-- `FAULTED` (R51) -/
  faulted : Bool
deriving DecidableEq, Repr

/-- `CH` after `CREATE(pin)` (R50). -/
def Channel.reset (pin : U16) : Channel where
  pin := pin
  state := .idle
  cfg := { bufferSize := 0, signalRangeMaxNs := 0, startLow := false }
  cfgWritten := false
  capacity := 0
  lastError := .none
  completionReason := .none
  nSamples := 0
  edges := []
  edgesValid := false
  lastStats := { totalBits := 0, invalidBits := 0 }
  bufAllocated := false

/-- `CAP` after `CREATE` (R50); the fields R50 leaves unspecified at 0 (DESIGN CHOICE, log 4). -/
def Capture.reset : Capture where
  c0 := 0
  elapsed := 0
  configured := false
  route := none
  captureReg := 0
  armed := false
  lastK := 0
  latchAt := 0

/-- `XFER` after `CREATE` (R50). -/
def Transfer.reset : Transfer where
  length := 0
  progress := 0
  enabled := false
  pending := []
  attached := false

/-- `IRQ` and `ISR` after `CREATE` (R50). -/
def Interrupt.reset : Interrupt where
  enabled := false
  pending := false
  isrRunning := false

/-- "All start at 0" (R44). -/
def EngineRegs.reset : EngineRegs where
  i := 0
  acc := 0
  nbits := 0
  written := 0
  total := 0
  invalid := 0

/-- The machine on the platform `p` before any `CREATE` (R199 "model state before: NoChannel"), every
element at its value of R50, the pin 0 (DESIGN CHOICE, log 2), the environment at rest (logs 5, 6,
13, 15, 22) and nothing placed for the foreground to issue (log 14). -/
def State.boot (p : Platform) : State where
  plat := p
  created := false
  ch := Channel.reset 0
  cap := Capture.reset
  xfer := Transfer.reset
  irq := Interrupt.reset
  completion := false
  mem := []
  vis := []
  held := false
  wait := none
  eng := EngineRegs.reset
  line := false
  clk := { now := 0, draws := [] }
  env := { otherHeld := [], during := [] }
  issuer := .caller
  ops := []
  sched := []
  draws := 0
  result := .nothing
  refused := false
  faulted := false

/-- The machine right after reset: `State.boot` on the fixture platform (log 7). -/
def State.reset : State := State.boot Platform.fixture

end Sys2Proof.Machine
end

