-- ==== Sys2Proof/Machine/Operands.lean ====
section
/-! DEFINITION. Operand forms and value computations: widths and conversions (spec/30_encoding.md
R77), the sample and duration arithmetic (R144, R145), the buffer's sizes and addresses (R25, R55),
the timing windows (R158), the pin table (R118) and the numeric codes of R177. No function here
reads or writes State. -/

namespace Sys2Proof.Machine

/-! ### Samples -/

/-- `trunc_W(v) = v mod 2^W` (R10), as a sample. -/
def truncW (w v : Nat) : Sample := BitVec.ofNat 32 (v % 2 ^ w)

/-- `d = (cur - prev) mod 2^W`, wraparound-safe subtraction in the counter's width (R144). -/
def modularDelta (w : Nat) (prev cur : Sample) : Nat := (cur - prev).toNat % 2 ^ w

/-- `to_ns(d) = min(2^32 - 1, floor(d * 10^9 / P_CLOCK_HZ))`, the product exact (R145). -/
def toNs (clockHz d : Nat) : Nat := min (2 ^ 32 - 1) (d * 1000000000 / clockHz)

/-- `floor((t - t_arm) * P_CLOCK_HZ)` of an elapsed time in the units of `Capture.elapsed` (R32). -/
def ticksOf (elapsed : Nat) : Nat := elapsed / 1000000000

/-- `k` of an edge (R130): the floor or one more, never smaller than the `k` of an earlier edge
(log 19). -/
def edgeK (lastK elapsed : Nat) (late : Bool) : Nat :=
  max lastK (ticksOf elapsed + if late then 1 else 0)

/-! ### The raw-sample buffer -/

/-- `P_SAMPLE_BYTES`: 2 if `W <= 16`, else 4 (R8). -/
def sampleBytes (p : Platform) : Nat := if p.counterBits ≤ 16 then 2 else 4

/-- The byte address of slot `i` (R55). -/
def slotAddr (p : Platform) (i : Nat) : Nat := p.bufBase + i * sampleBytes p

/-- `min(P_MAX_SLOTS, 2 * buffer_size)`, computed without overflow (R25). -/
def capacityFor (bufferSize : U32) : Nat := min Config.maxSlots (2 * bufferSize.toNat)

/-- The placement rule of R57: slot-aligned, and on a non-coherent platform line-aligned and padded
(log 28). -/
def bufferPlaced (p : Platform) : Bool :=
  decide (p.bufBase % sampleBytes p = 0)
    && (p.cacheCoherent || (decide (p.bufBase % p.cacheLine = 0) && p.bufPadded))

/-- The `n` bytes of a number, the least significant first. -/
def littleBytes : Nat → Nat → List Byte
  | 0, _ => []
  | n + 1, v => BitVec.ofNat 8 v :: littleBytes n (v / 256)

/-- The number whose bytes, the least significant first, are `bs`. -/
def littleNat : List Byte → Nat
  | [] => 0
  | b :: bs => b.toNat + 256 * littleNat bs

/-- The bytes of a slot's value in the order of their addresses (R55, R56). -/
def sampleToBytes (p : Platform) (v : Sample) : List Byte :=
  match p.byteOrder with
  | .little => littleBytes (sampleBytes p) v.toNat
  | .big => (littleBytes (sampleBytes p) v.toNat).reverse

/-- The value of a slot from its bytes in the order of their addresses (R55, R56). -/
def bytesToSample (p : Platform) (bs : List Byte) : Sample :=
  match p.byteOrder with
  | .little => BitVec.ofNat 32 (littleNat bs)
  | .big => BitVec.ofNat 32 (littleNat bs.reverse)

/-- `VIS` with the slots `[first, first + count)` made Fresh (R123). -/
def freshen : Nat → Nat → List Visibility → List Visibility
  | _, _, [] => []
  | _, 0, l => l
  | 0, n + 1, _ :: l => .fresh :: freshen 0 n l
  | f + 1, n + 1, v :: l => v :: freshen f (n + 1) l

/-! ### Edge samples -/

/-- The loop of `BUILD_EDGES` (R143): durations of consecutive samples, a gap dropped and the
polarity reset to HIGH after it (R148), the polarity alternating otherwise (R147). -/
def edgesFrom (p : Platform) : Sample → Bool → List Sample → List EdgeSample
  | _, _, [] => []
  | prev, nextHigh, cur :: rest =>
    let ns := toNs p.clockHz (modularDelta p.counterBits prev cur)
    if ns > Config.gapNs then edgesFrom p cur true rest
    else { high := nextHigh, durationNs := BitVec.ofNat 32 ns } :: edgesFrom p cur (!nextHigh) rest

/-- The edge samples of a capture (R143): none for fewer than two samples, the first labelled HIGH
(R147). -/
def edgesOf (p : Platform) : List Sample → List EdgeSample
  | [] => []
  | first :: rest => edgesFrom p first true rest

/-- The count of `GET_RAW_EDGE_TIMES` (R152) for `capacity = L` and `total = len(E)`. -/
def copyCount (capacity total offset : Nat) : Nat :=
  if offset ≥ total then 0 else min capacity (total - offset)

/-- `dst` after the copy of R152: `dst[k] <- E[offset + k]` for `k < count`, the rest as it was. -/
def copyEdges (dst edges : List EdgeSample) (offset : Nat) : List EdgeSample :=
  let count := copyCount dst.length edges.length offset
  (edges.drop offset).take count ++ dst.drop count

/-! ### Timing profile -/

/-- `in(x, lo, hi)`: inclusive bounds (R158, R159). -/
def inWindow (x lo hi : U32) : Bool := decide (lo.toNat ≤ x.toNat) && decide (x.toNat ≤ hi.toNat)

/-- The classification of `DECODE_BIT` (R158): bit 0 first (R160). -/
def classify (h l : U32) (p : TimingProfile) : BitValue :=
  if inWindow h p.t0hMin p.t0hMax && inWindow l p.t0lMin p.t0lMax then .zero
  else if inWindow h p.t1hMin p.t1hMax && inWindow l p.t1lMin p.t1lMax then .one
  else .invalid

/-- The bit a classification adds to the byte being assembled, if it is valid (R165, R166). -/
def bitOf : BitValue → Option Byte
  | .zero => some 0
  | .one => some 1
  | .invalid => none

/-- `gap_detection_enabled(p)` (R17). No rule reads it. -/
def gapDetectionEnabled (p : TimingProfile) : Bool :=
  decide (p.gapTolerance.toNat ≠ 0)
    && decide (p.gapTolerance.toNat > max p.t0lMax.toNat p.t1lMax.toNat)
    && decide (p.gapTolerance.toNat < p.resetMin.toNat * 1000)

/-! ### Pin table -/

/-- `pin_record(pin)`: the first record of the pin and this backend, in table order (R118). -/
def pinRecord (p : Platform) (pin : U16) : Option PinRecord :=
  p.pinTable.find? fun r => decide (r.pin = pin) && decide (r.backendId = p.backendId)

/-- `pin_supported(pin)` (R118). -/
def pinSupported (p : Platform) (pin : U16) : Bool := (pinRecord p pin).isSome

/-! ### Waits and reasons -/

/-- The clock's reading `us` microseconds later: a `u64` that never decreases and does not wrap (R46);
past its greatest value it stays there (log 23). -/
def clockAfter (now : U64) (us : Nat) : U64 := BitVec.ofNat 64 (min (2 ^ 64 - 1) (now.toNat + us))

/-- `zext_64(timeout_ms) * 1000` (R77, R95). -/
def timeoutUs (timeoutMs : U32) : Nat := timeoutMs.toNat * 1000

/-- The reason of an `F_RSN` record as a `CompletionReason` (R103). -/
def reasonOf : EndReason → CompletionReason
  | .bufferFull => .bufferFull
  | .inactivity => .inactivity
  | .timeout => .timeout

/-- `status_of` (R95). R95 does not state it on None, which no `Complete` state holds: there it is a
free value (log 26). -/
def statusOf : CompletionReason → WaitStatus
  | .none => if Config.statusOfNoneIsSuccess then .success else .timeout
  | .bufferFull => .success
  | .inactivity => .success
  | .timeout => .timeout
  | .injected => .success

/-! ### Numeric codes (R177) -/

/-- The code of a `WaitStatus` (R177). -/
def waitStatusCode : WaitStatus → Nat
  | .success => 0
  | .timeout => 1

/-- The code of a `DecodeError` (R177). -/
def decodeErrorCode : DecodeError → Nat
  | .bufferOverflow => 1
  | .highErrorRate => 2

/-- The code of a `BeginError` (R177). -/
def beginErrorCode : BeginError → Nat
  | .none => 0
  | .unsupportedPin => 1
  | .resourceBusy => 2
  | .invalidConfig => 3

/-- The code of a `CompletionReason` (R177). -/
def completionReasonCode : CompletionReason → Nat
  | .none => 0
  | .bufferFull => 1
  | .inactivity => 2
  | .timeout => 3
  | .injected => 4

end Sys2Proof.Machine
end

