-- ==== Sys2Proof/Machine/Flags.lean ====
section
/-! DEFINITION. The boolean state of spec/10_state.md R47 as the rules test it: when each agent's
step is enabled, when a poll may run, when a peripheral is busy, and the refusals every operation
tests first. The block has no arithmetic condition codes (R47). -/

namespace Sys2Proof.Machine

/-! ### When an agent's step is enabled -/

/-- The `CAP` edge step is enabled at an edge while `CAP.armed` and `XFER.enabled` (R125). On a mock
backend `CAP` never takes a step (R117). -/
def capEdgeEnabled (s : State) : Bool :=
  s.cap.armed && s.xfer.enabled && decide (s.plat.backend = .hardware)

/-- The transfer step is enabled while `XFER.enabled` and a sample is pending (R126). -/
def transferEnabled (s : State) : Bool := s.xfer.enabled && !s.xfer.pending.isEmpty

/-- The schedule law of R127 leaves the pending sample no more time (log 18). -/
def serviceDue (s : State) : Bool :=
  transferEnabled s
    && decide (s.plat.captureServiceNs * s.plat.clockHz ≤ s.cap.elapsed - s.cap.latchAt)

/-- The ISR step is enabled while `IRQ.pending` and `IRQ.enabled` (R181); it does not nest (R185). -/
def isrEnabled (s : State) : Bool := s.irq.pending && s.irq.enabled && !s.irq.isrRunning

/-- The sleep between polls is over (R100). -/
def pollReady (r : WaitRegs) (s : State) : Bool := decide (r.wakeAt ≤ s.clk.now.toNat)

/-! ### Reads of boolean state -/

/-- `VIS[i]` (R42): always Fresh on a coherent platform. -/
def slotVisibility (s : State) (i : Nat) : Visibility :=
  if s.plat.cacheCoherent then .fresh else s.vis.getD i .stale

/-- `resource_busy(CH.pin)` (R119): another live channel holds the peripheral of the pin's record,
and this channel does not (log 22). -/
def resourceBusy (s : State) : Bool :=
  !s.held && match pinRecord s.plat s.ch.pin with
    | some r => s.env.otherHeld.contains r.peripheralHandle
    | none => false

/-! ### The refusals tested first (R178, log 11) -/

/-- An engine operation needs no channel (R79, R199); from interrupt context it is refused (R111). -/
def engineGate (s : State) : Option Refusal :=
  if s.issuer = .interrupt then some .wrongContext else none

/-- A channel must exist (R199) and not be destroyed (R110). -/
def liveChannelGate (s : State) : Option Refusal :=
  if !s.created then some .noChannel
  else if s.ch.state = .destroyed then some .useAfterDestroy
  else none

/-- A public channel operation (R78): context (R111), then the channel. -/
def channelGate (s : State) : Option Refusal :=
  if s.issuer = .interrupt then some .wrongContext else liveChannelGate s

/-- An internal operation (R80): context (R111), then the issuer, then the channel. -/
def internalGate (s : State) : Option Refusal :=
  if s.issuer = .interrupt then some .wrongContext
  else if s.issuer = .caller then some .internalOperation
  else liveChannelGate s

/-- `CREATE` (R199): context, then a destroyed channel, then a live one. -/
def createGate (s : State) : Option Refusal :=
  if s.issuer = .interrupt then some .wrongContext
  else if s.created then
    if s.ch.state = .destroyed then some .useAfterDestroy else some .alreadyCreated
  else none

/-- The two refusals of `BEGIN` beyond those of every channel operation, in the order of R88. -/
def beginGate (config : RxConfig) (s : State) : Option Refusal :=
  match channelGate s with
  | some r => some r
  | none =>
    if !config.startLow then some .startHighUnsupported
    else if !bufferPlaced s.plat then some .misalignedBuffer
    else none

/-- The failures of `BEGIN`, in the order of R88 and R183. -/
def beginFailure (config : RxConfig) (s : State) : Option BeginError :=
  if !pinSupported s.plat s.ch.pin then some .unsupportedPin
  else if config.bufferSize = 0 then some .invalidConfig
  else if resourceBusy s then some .resourceBusy
  else none

end Sys2Proof.Machine
end

