-- ==== Sys2Proof/Machine/Ops.lean ====
section
/-! DEFINITION. The named operations over State that the meanings and the agents' steps share: how an
operation ends (spec/00_scope.md R12), memory and slots (spec/20_memory.md), the clock (R46), the
completion signal (R66), interrupt entry and return (R181), the capture and transfer steps (R125 to
R128), `ARM`, `DISARM`, `SYNC_READS`, `COMPLETE_CAPTURE`, the loop of `WAIT`, the Edge Builder and
the Decode Engine. -/

namespace Sys2Proof.Machine

/-- What a meaning answers. -/
abbrev Answer := Host.Outcome State Fault Refusal

/-! ### How an operation ends (R12) -/

/-- `return v`. -/
def State.ret (s : State) (r : OpResult) : State := { s with result := r }

/-- `refuse(reason)`: the mark `REFUSED` and no other effect (R12, R51). -/
def State.refuse (s : State) (r : Refusal) : State :=
  { s with refused := true, result := .refused r }

/-- `fault(reason)`: the mark `FAULTED` (R12, R51); nothing else the operation did is kept (log 25). -/
def State.fail (s : State) (f : Fault) : State :=
  { s with faulted := true, result := .faulted f }

/-- The decoder's refusals as the reasons of R178. -/
def refusalOf : DecodeFail → Refusal
  | .reservedOpcode => .reservedOpcode
  | .malformedOperands => .malformedOperands

/-! ### Memory (R53, R55) -/

/-- The bytes of memory, as address and byte pairs. -/
abbrev Memory := List Host.Cell

/-- The canonical form: addresses strictly rising, no byte 0 listed. -/
def Memory.wf : Memory → Bool
  | [] => true
  | [(_, v)] => decide (v ≠ 0#8)
  | (a, v) :: (b, w) :: m =>
    decide (v ≠ 0#8) && decide (a < b) && Memory.wf ((b, w) :: m)

/-- The byte at an address; an unlisted byte is 0, as `BEGIN` clears `BUF` (R41, R88, log 27). -/
def Memory.read : Memory → Nat → Byte
  | [], _ => 0#8
  | (b, w) :: m, a => if a = b then w else Memory.read m a

/-- Memory with one byte written, in canonical form. -/
def Memory.write : Memory → Nat → Byte → Memory
  | [], a, v => if v = 0#8 then [] else [(a, v)]
  | (b, w) :: m, a, v =>
    if a < b then (if v = 0#8 then (b, w) :: m else (a, v) :: (b, w) :: m)
    else if a = b then (if v = 0#8 then m else (a, v) :: m)
    else (b, w) :: Memory.write m a v

/-- `MemRead(addr, n)` (R11): `n` bytes from `a` on. -/
def Memory.readBytes (m : Memory) (a : Nat) : Nat → List Byte
  | 0 => []
  | n + 1 => Memory.read m a :: Memory.readBytes m (a + 1) n

/-- `MemWrite(addr, n, v)` (R11): these bytes from `a` on. -/
def Memory.writeBytes (m : Memory) (a : Nat) : List Byte → Memory
  | [] => m
  | b :: bs => Memory.writeBytes (Memory.write m a b) (a + 1) bs

/-- A byte of `BUF` exists at this address: `BUF` exists (R31) and the address is in one of its
slots (R55). -/
def State.byteExists (s : State) (a : Nat) : Bool :=
  s.ch.bufAllocated && decide (s.plat.bufBase ≤ a)
    && decide (a < s.plat.bufBase + s.ch.capacity * sampleBytes s.plat)

/-- The byte of memory at this address, if one exists there. -/
def State.byteAt (s : State) (a : Nat) : Option Byte :=
  if s.byteExists a then some (Memory.read s.mem a) else none

/-- The memory contents of slot `i` (R55). -/
def slotValue (s : State) (i : Nat) : Sample :=
  bytesToSample s.plat (Memory.readBytes s.mem (slotAddr s.plat i) (sampleBytes s.plat))

/-- `BufWrite_DMA(i, v)` (R62). -/
def bufWriteDma (i : Nat) (v : Sample) (s : State) : State :=
  { s with
    mem := Memory.writeBytes s.mem (slotAddr s.plat i) (sampleToBytes s.plat v)
    vis := if s.plat.cacheCoherent then s.vis else s.vis.set i .stale }

/-- `BufRead_FG(i)` (R63). A Stale slot reads as a free value, drawn anew (log 21). -/
def bufReadFg (i : Nat) (s : State) : Except Fault (Sample × State) :=
  if !s.ch.bufAllocated || decide (s.ch.capacity ≤ i) then .error .unwrittenRead
  else if s.ch.state = .capturing then .error .concurrentBufferRead
  else
    match slotVisibility s i with
    | .fresh => .ok (slotValue s i, s)
    | .stale =>
      .ok (truncW s.plat.counterBits (Config.staleRead s.draws), { s with draws := s.draws + 1 })

/-- A read of `CH.cfg`: before a successful `BEGIN` it holds no value (R52). -/
def readCfg (s : State) : Except Fault RxConfig :=
  if s.ch.cfgWritten then .ok s.ch.cfg else .error .unwrittenRead

/-! ### The clock and the completion signal -/

/-- `Now_us()` (R46): the clock may have advanced since the last reading (log 23). -/
def nowUs (s : State) : U64 × State :=
  match s.clk.draws with
  | [] => (s.clk.now, s)
  | d :: ds =>
    (clockAfter s.clk.now d, { s with clk := { now := clockAfter s.clk.now d, draws := ds } })

/-- `AtomicStoreRelease(SIG.completion, v)` (R66, log 38). -/
def atomicStoreRelease (v : Bool) (s : State) : State := { s with completion := v }

/-- `AtomicLoadAcquire(SIG.completion)` (R66, log 38): what `FINISHED` returns (R93). -/
def atomicLoadAcquire (s : State) : Bool := s.completion

/-! ### The completion interrupt (R180, R181, R184, R185) -/

/-- Interrupt entry: the interrupt context runs and acknowledges (R181, first two lines). Nothing of
the block is saved (R184). No step where the ISR is not enabled. -/
def isrEntry (s : State) : State :=
  if isrEnabled s then { s with irq := { s.irq with isrRunning := true, pending := false } } else s

/-- The rest of the ISR and the interrupt return (R181, last two lines): the completion signal, then
the return. Nothing is restored (R185). No step where the ISR does not run. -/
def isrReturn (s : State) : State :=
  if s.irq.isrRunning then
    { atomicStoreRelease true s with irq := { s.irq with isrRunning := false } }
  else s

/-- The whole ISR step (R181). No step where it is not enabled. -/
def isrStep (s : State) : State := if isrEnabled s then isrReturn (isrEntry s) else s

/-! ### The capture unit and the transfer engine (R125 to R130) -/

/-- `CAP.counter` now (R32). -/
def captureCounter (s : State) : Sample :=
  truncW s.plat.counterBits (s.cap.c0.toNat + ticksOf s.cap.elapsed)

/-- `sample_value(t_e)` of an edge now (R130). -/
def sampleValue (late : Bool) (s : State) : Sample :=
  truncW s.plat.counterBits (s.cap.c0.toNat + edgeK s.cap.lastK s.cap.elapsed late)

/-- `XFER.pending` after a latch of `v` (R125, R127). -/
def latchPending (overrun : Overrun) (v : Sample) : List Sample → List Sample
  | [] => [v]
  | _ :: _ =>
    match overrun with
    | .replace => [v]
    | .duplicate => [v, v]

/-- `CAP_EDGE(t_e)` (R125). -/
def capEdge (late : Bool) (overrun : Overrun) (s : State) : State :=
  let v := sampleValue late s
  { s with
    cap := { s.cap with
      captureReg := v
      lastK := edgeK s.cap.lastK s.cap.elapsed late
      latchAt := s.cap.elapsed }
    xfer := { s.xfer with pending := latchPending overrun v s.xfer.pending } }

/-- `BUFFER_FULL()` (R128, R180). -/
def bufferFull (s : State) : State :=
  { s with
    xfer := { s.xfer with enabled := false, pending := [] }
    irq := { s.irq with pending := s.irq.pending || s.irq.enabled } }

/-- `XFER_STEP()` (R126). No step where it is not enabled. -/
def xferStep (s : State) : State :=
  match s.xfer.enabled, s.xfer.pending with
  | true, v :: rest =>
    let w := bufWriteDma s.xfer.progress v s
    let t := { w with xfer := { w.xfer with pending := rest, progress := w.xfer.progress + 1 } }
    if t.xfer.progress = t.xfer.length then bufferFull t else t
  | _, _ => s

/-- `n` transfer steps. -/
def xferSteps : Nat → State → State
  | 0, s => s
  | n + 1, s => xferSteps n (xferStep s)

/-- Transfer steps until nothing is pending or the engine is disabled (the drain of R121). -/
def drain (s : State) : State := xferSteps s.xfer.pending.length s

/-- The transfer the schedule law of R127 forces by now, if one is due (log 18). -/
def serveDue (s : State) : State := if serviceDue s then drain s else s

/-- `SIG` (R45): the level changes; the `CAP` edge step if it is enabled (R125, R129), after the
transfer the schedule law forces by now (log 18). -/
def edgeStep (late : Bool) (overrun : Overrun) (s : State) : State :=
  let t := serveDue { s with line := !s.line }
  if capEdgeEnabled t then capEdge late overrun t else t

/-- Real time passes (R32). A counter that does not run records none of it. -/
def elapseStep (units : Nat) (s : State) : State :=
  if s.cap.configured then
    serveDue { s with cap := { s.cap with elapsed := s.cap.elapsed + units } }
  else s

/-! ### The hardware agents inside a foreground step (R7) -/

/-- One step of a hardware agent (R6). A step that is not enabled changes nothing (log 13). -/
def hwStep (h : HwStep) (s : State) : State :=
  match h with
  | .edge late overrun => edgeStep late overrun s
  | .transfer => xferStep s
  | .isr => isrStep s
  | .isrEntry => isrEntry s
  | .isrReturn => isrReturn s
  | .elapse units => elapseStep units s

/-- Steps of the hardware agents, the first first. -/
def hwSteps : List HwStep → State → State
  | [], s => s
  | h :: hs, s => hwSteps hs (hwStep h s)

/-- A point between two lines of a foreground operation: the hardware agents take the steps the
environment has settled for it, none where it has settled none (R7, log 15). -/
def interleave (s : State) : State :=
  match s.env.during with
  | [] => s
  | hs :: rest => hwSteps hs { s with env := { s.env with during := rest } }

/-- The lines of `DISARM` (R121): no edge is latched after the first line, the latched samples land,
the engine and the interrupt are disabled, and an ISR already entered finishes. Between the drain and
the mask the ISR may be entered (log 15). -/
def disarmLines (s : State) : State :=
  let a := interleave (drain { s with cap := { s.cap with armed := false } })
  isrReturn { a with
    xfer := { a.xfer with enabled := false }
    irq := { a.irq with enabled := false, pending := false } }

/-- `DISARM()` (R121). The hardware agents may take steps up to its first line (R129, log 15). On a
mock backend it touches no hardware (R117). -/
def disarm (s : State) : State :=
  match s.plat.backend with
  | .mock => s
  | .hardware => disarmLines (interleave s)

/-- `ARM()` (R120). The counter's start value is a free value (log 20). The clean of `BUF` to memory
changes nothing the model holds (log 36). On a mock backend it touches no hardware (R117). -/
def arm (s : State) : State :=
  match s.plat.backend with
  | .mock => s
  | .hardware =>
    { atomicStoreRelease false s with
      cap := { s.cap with
        route := pinRecord s.plat s.ch.pin
        configured := true
        c0 := truncW s.plat.counterBits (Config.counterStart s.draws)
        elapsed := 0
        lastK := 0
        latchAt := 0
        armed := true }
      xfer := {
        length := s.ch.capacity
        progress := 0
        pending := []
        enabled := true
        attached := true }
      irq := { s.irq with pending := false, enabled := true }
      held := true
      draws := s.draws + 1 }

/-- `READ_PROGRESS` (R122). -/
def readProgress (s : State) : Nat := s.xfer.progress

/-- `SYNC_READS(first, count)` (R123): nothing for a count of 0, a fault beyond `CH.capacity`,
nothing on a coherent platform, else the range becomes Fresh. -/
def syncReads (first count : Nat) (s : State) : Except Fault State :=
  if count = 0 then .ok s
  else if first + count > s.ch.capacity then .error .unwrittenRead
  else if s.plat.cacheCoherent then .ok s
  else .ok { s with vis := freshen first count s.vis }

/-! ### Completion detection (R95 to R104) -/

/-- `COMPLETE_CAPTURE(reason, status)` (R103); `status` is not stored. -/
def completeCapture (reason : CompletionReason) (s : State) : Except Fault State :=
  let d := disarm s
  let n := readProgress d
  match syncReads 0 n d with
  | .error f => .error f
  | .ok t =>
    .ok { t with ch := { t.ch with nSamples := n, completionReason := reason, state := .complete } }

/-- The lines of `WAIT` before its loop (R95). -/
def waitEnter (deadlineUs : Nat) (s : State) : WaitRegs × State :=
  let (t, s) := nowUs s
  ({ tStart := t, deadlineUs, lastProgress := readProgress s, tLast := t, result := .timeout,
     wakeAt := t.toNat }, s)

/-- The end of a `WAIT`: the completion transition, the status in `result` (R43), and no `WAIT` is live
any more. -/
def waitExit (reason : CompletionReason) (status : WaitStatus) (r : WaitRegs) (s : State) :
    Except Fault (State × Option WaitRegs) :=
  match completeCapture reason s with
  | .error f => .error f
  | .ok t => .ok ({ t with wait := none }, some { r with result := status })

/-- The last lines of a poll (R95): exit (b), or the sleep of R100. -/
def waitDeadline (r : WaitRegs) (t : U64) (s : State) : Except Fault (State × Option WaitRegs) :=
  if t.toNat - r.tStart.toNat ≥ r.deadlineUs then waitExit .timeout .timeout r s
  else
    let wakeAt := t.toNat + min s.plat.pollUs (r.tStart.toNat + r.deadlineUs - t.toNat)
    .ok ({ s with wait := some { r with wakeAt } }, none)

/-- One poll of `WAIT` (R95, R99): exit (a), then exit (c), then exit (b). It answers the working
registers if the wait ended. The hardware agents may take steps between the reading of the signal and
that of the progress (R7, log 15). -/
def waitPoll (r : WaitRegs) (s : State) : Except Fault (State × Option WaitRegs) :=
  if atomicLoadAcquire s then waitExit .bufferFull .success r s
  else
    let (t, s) := nowUs s
    let s := interleave s
    let p := readProgress s
    if p ≠ r.lastProgress then waitDeadline { r with lastProgress := p, tLast := t } t s
    else
      match readCfg s with
      | .error f => .error f
      | .ok cfg =>
        if (t.toNat - r.tLast.toNat) * 1000 > cfg.signalRangeMaxNs.toNat then
          waitExit .inactivity .success r s
        else waitDeadline r t s

/-- `ENSURE_COMPLETE()` (R104): in `Capturing` the lines of `WAIT(0)` and its first poll, which
always exits; the status is discarded. -/
def ensureComplete (s : State) : Except Fault State :=
  if s.ch.state = .capturing then
    let (r, t) := waitEnter 0 s
    match waitPoll r t with
    | .error f => .error f
    | .ok (u, _) => .ok u
  else .ok s

/-! ### The Edge Builder (R143, R150) -/

/-- `BufRead_FG` of `count` slots from `i` on, in order. -/
def readSlots : Nat → Nat → State → Except Fault (List Sample × State)
  | 0, _, s => .ok ([], s)
  | count + 1, i, s =>
    match bufReadFg i s with
    | .error f => .error f
    | .ok (v, t) =>
      match readSlots count (i + 1) t with
      | .error f => .error f
      | .ok (vs, u) => .ok (v :: vs, u)

/-- `BUILD_EDGES()` (R143). No slot is read for fewer than two samples. -/
def buildEdges (s : State) : Except Fault State :=
  if s.ch.nSamples < 2 then .ok { s with ch := { s.ch with edges := [], edgesValid := true } }
  else
    match readSlots s.ch.nSamples 0 s with
    | .error f => .error f
    | .ok (samples, t) =>
      .ok { t with ch := { t.ch with edges := edgesOf t.plat samples, edgesValid := true } }

/-- `ENSURE_EDGES()` (R150). -/
def ensureEdges (s : State) : Except Fault State :=
  match ensureComplete s with
  | .error f => .error f
  | .ok t =>
    if t.ch.state = .complete && !t.ch.edgesValid then buildEdges t else .ok t

/-- `current_edges()` (R150). -/
def currentEdges (s : State) : List EdgeSample := if s.ch.edgesValid then s.ch.edges else []

/-! ### The Decode Engine (R162) -/

/-- Where the loop of `DECODE_EDGES` ended: the working registers, `out`, and whether a byte found
no slot (R167). -/
structure EngineEnd where
  regs : EngineRegs
  out : List Byte
  overflow : Bool
deriving DecidableEq, Repr

/-- The working registers after a pair has been classified as `v` (R162, R165, R166). -/
def EngineRegs.take (r : EngineRegs) (v : BitValue) : EngineRegs :=
  match bitOf v with
  | none => { r with i := r.i + 2, total := r.total + 1, invalid := r.invalid + 1 }
  | some b =>
    { r with i := r.i + 2, total := r.total + 1, acc := r.acc <<< 1 ||| b, nbits := r.nbits + 1 }

/-- The working registers after a byte has been emitted (R166). -/
def EngineRegs.emitted (r : EngineRegs) : EngineRegs :=
  { r with acc := 0, nbits := 0, written := r.written + 1 }

/-- The loop of `DECODE_EDGES` (R162) on the edges from the cursor on. -/
def decodeLoop (p : TimingProfile) : List EdgeSample → EngineRegs → List Byte → EngineEnd
  | a :: b :: rest, r, out =>
    if !a.high || b.high then decodeLoop p (b :: rest) { r with i := r.i + 1 } out
    else
      let q := r.take (classify a.durationNs b.durationNs p)
      if q.nbits = 8 then
        if q.written = out.length then { regs := q, out := out, overflow := true }
        else decodeLoop p rest q.emitted (out.set q.written q.acc)
      else decodeLoop p rest q out
  | _, r, out => { regs := r, out := out, overflow := false }

/-- The partial final byte (R168): flushed left-aligned, or it finds no slot. -/
def flushPartial (e : EngineEnd) : EngineEnd :=
  if e.overflow || e.regs.nbits = 0 then e
  else if e.regs.written = e.out.length then { e with overflow := true }
  else
    { e with
      regs := { e.regs with written := e.regs.written + 1 }
      out := e.out.set e.regs.written (e.regs.acc <<< (8 - e.regs.nbits)) }

/-- The result of a decode (R162, R167, R170). -/
def decodeVerdict (e : EngineEnd) : DecodeResult :=
  if e.overflow then .err .bufferOverflow
  else if e.regs.invalid * Config.errFactor > e.regs.total then .err .highErrorRate
  else .ok e.regs.written

/-- `DECODE_EDGES(p, edges, out)` (R162). -/
def decodeEdges (p : TimingProfile) (edges : List EdgeSample) (out : List Byte) : EngineEnd :=
  flushPartial (decodeLoop p edges EngineRegs.reset out)

end Sys2Proof.Machine
end

