-- ==== Sys2Proof/Machine/Agents.lean ====
section
/-! DEFINITION. The moves of the agents other than the foreground and the hardware agents of
spec/00_scope.md R6: `CLK`, the platform, and the environment's choice of what the hardware agents
do inside the foreground's steps. -/

namespace Sys2Proof.Machine

/-- `CLK` advances (R46). -/
def clockMove (us : Nat) (s : State) : State :=
  { s with clk := { s.clk with now := clockAfter s.clk.now us } }

/-- Another live channel takes or releases a peripheral (R119). -/
def otherHoldsMove (handle : Nat) (held : Bool) (s : State) : State :=
  let others := s.env.otherHeld.filter (fun h => decide (h ≠ handle))
  { s with env := { s.env with otherHeld := if held then handle :: others else others } }

/-- The environment settles what the hardware agents do at one more point inside the foreground's
steps (R7, log 15). -/
def duringMove (steps : List HwStep) (s : State) : State :=
  { s with env := { s.env with during := s.env.during ++ [steps] } }

end Sys2Proof.Machine
end

