-- ==== Sys2Proof/Machine/CaptureBackend.lean ====
section
/-! DEFINITION. The capture-backend family (spec/41_capture_backend.md): the internal operations `ARM`,
`DISARM`, `READ_PROGRESS` and `SYNC_READS`. The caller is refused (R80); issued by the block each has
its effect, whatever state its precondition names (log 34). -/

namespace Sys2Proof.Machine

/-- `ARM` (R120). -/
def execArm (s : State) : Answer :=
  match internalGate s with
  | some r => .next (s.refuse r)
  | none => .next ((arm s).ret .unit)

/-- `DISARM` (R121). -/
def execDisarm (s : State) : Answer :=
  match internalGate s with
  | some r => .next (s.refuse r)
  | none => .next ((disarm s).ret .unit)

/-- `READ_PROGRESS` (R122). -/
def execReadProgress (s : State) : Answer :=
  match internalGate s with
  | some r => .next (s.refuse r)
  | none => .next (s.ret (.progress (readProgress s)))

/-- `SYNC_READS first, count` (R123). -/
def execSyncReads (first count : U32) (s : State) : Answer :=
  match internalGate s with
  | some r => .next (s.refuse r)
  | none =>
    match syncReads first.toNat count.toNat s with
    | .error f => .next (s.fail f)
    | .ok t => .next (t.ret .unit)

end Sys2Proof.Machine
end

