-- ==== Sys2Proof/Machine/ChannelControl.lean ====
section
/-! DEFINITION. The channel-control family (spec/40_channel_control.md): `BEGIN`, `FINISHED`, `WAIT`,
`COMPLETE_CAPTURE`, `INJECT_EDGES`, `DESTROY`, and the poll of a live `WAIT`. -/

namespace Sys2Proof.Machine

/-- `if CH.state = Capturing: DISARM()` (R88, R106, R109). -/
def disarmIfCapturing (s : State) : State :=
  if s.ch.state = .capturing then disarm s else s

/-- A failing `BEGIN` writes `CH.last_error` and nothing else (R89). -/
def beginFail (e : BeginError) (s : State) : State :=
  { s with ch := { s.ch with lastError := e } }

/-- `BEGIN` between validation and `ARM` (R88): the previous capture is disarmed (R90), the channel
is `Configured` (R91), `BUF` is allocated anew with every slot 0 and Fresh (log 27). -/
def configureChannel (config : RxConfig) (s : State) : State :=
  let d := disarmIfCapturing s
  { d with
    ch := { d.ch with
      state := .configured
      cfg := config
      cfgWritten := true
      capacity := capacityFor config.bufferSize
      bufAllocated := true
      edges := []
      edgesValid := false
      nSamples := 0
      completionReason := .none
      lastError := .none }
    mem := []
    vis := List.replicate (capacityFor config.bufferSize) .fresh }

/-- `BEGIN` after validation (R88). -/
def beginConfigured (config : RxConfig) (s : State) : State :=
  let a := arm (configureChannel config s)
  { a with ch := { a.ch with state := .capturing } }

/-- `BEGIN config` (R88). -/
def execBegin (config : RxConfig) (s : State) : Answer :=
  match beginGate config s with
  | some r => .next (s.refuse r)
  | none =>
    match beginFailure config s with
    | some e => .next ((beginFail e s).ret (.bool false))
    | none => .next ((beginConfigured config s).ret (.bool true))

/-- `FINISHED` (R93). -/
def execFinished (s : State) : Answer :=
  match channelGate s with
  | some r => .next (s.refuse r)
  | none => .next (s.ret (.bool (atomicLoadAcquire s)))

/-- `WAIT timeout_ms` up to its loop (R95, R101, R102): in `Idle` and `Complete` it returns at once,
otherwise a `WAIT` is live and its polls are the foreground's next steps. -/
def execWait (timeoutMs : U32) (s : State) : Answer :=
  match channelGate s with
  | some r => .next (s.refuse r)
  | none =>
    match s.ch.state with
    | .idle => .next (s.ret (.waitStatus .timeout))
    | .complete => .next (s.ret (.waitStatus (statusOf s.ch.completionReason)))
    | _ =>
      let (r, t) := waitEnter (timeoutUs timeoutMs) s
      .next ({ t with wait := some r }.ret .waiting)

/-- One foreground step of a live `WAIT` (R95, R100): nothing while it sleeps, else one poll; when
the wait ends its status is the result. -/
def pollStep (r : WaitRegs) (s : State) : State :=
  if pollReady r s then
    match waitPoll r s with
    | .error f => { s with wait := none }.fail f
    | .ok (t, some q) => t.ret (.waitStatus q.result)
    | .ok (t, none) => t
  else s

/-- `COMPLETE_CAPTURE reason, status` (R103), issued by the block. -/
def execCompleteCapture (reason : EndReason) (status : WaitStatus) (s : State) : Answer :=
  match internalGate s with
  | some r => .next (s.refuse r)
  | none =>
    match completeCapture (reasonOf reason) s with
    | .error f => .next (s.fail f)
    | .ok t => .next (t.ret (.waitStatus status))

/-- `INJECT_EDGES` once the length is accepted (R106). -/
def injectAccepted (edges : List EdgeSample) (s : State) : State :=
  let d := disarmIfCapturing s
  { d with
    ch := { d.ch with
      edges := edges
      edgesValid := true
      nSamples := 0
      completionReason := .injected
      state := .complete } }

/-- `INJECT_EDGES edges` (R106). -/
def execInjectEdges (edges : List EdgeSample) (s : State) : Answer :=
  match channelGate s with
  | some r => .next (s.refuse r)
  | none =>
    if edges.length > s.plat.maxEdges then .next (s.ret (.bool false))
    else .next ((injectAccepted edges s).ret (.bool true))

/-- `DESTROY` on a live channel (R109): the counter stops, the engine is detached, the pin's routing
and resource are released, `BUF` is freed. -/
def destroyChannel (s : State) : State :=
  let d := disarmIfCapturing s
  { d with
    cap := { d.cap with configured := false, route := none }
    xfer := { d.xfer with attached := false }
    held := false
    mem := []
    vis := []
    ch := { d.ch with
      bufAllocated := false
      capacity := 0
      edges := []
      edgesValid := false
      state := .destroyed } }

/-- `DESTROY` (R109). -/
def execDestroy (s : State) : Answer :=
  match channelGate s with
  | some r => .next (s.refuse r)
  | none => .next ((destroyChannel s).ret .unit)

end Sys2Proof.Machine
end

