-- ==== Sys2Proof/Machine/DecodeEngine.lean ====
section
/-! DEFINITION. The decode-engine family (spec/43_decode_engine.md): `DECODE_BIT`, `DECODE_EDGES` and
`DECODE`. -/

namespace Sys2Proof.Machine

/-- `DECODE_BIT high_ns, low_ns, profile` (R158). -/
def execDecodeBit (highNs lowNs : U32) (profile : TimingProfile) (s : State) : Answer :=
  match engineGate s with
  | some r => .next (s.refuse r)
  | none => .next (s.ret (.bit (classify highNs lowNs profile)))

/-- `DECODE_EDGES profile, edges, out` (R162). The engine's working registers keep their last values
(log 31). -/
def execDecodeEdges (profile : TimingProfile) (edges : List EdgeSample) (out : List Byte)
    (s : State) : Answer :=
  match engineGate s with
  | some r => .next (s.refuse r)
  | none =>
    let e := decodeEdges profile edges out
    .next ({ s with eng := e.regs }.ret
      (.decodedEdges (decodeVerdict e) e.regs.total e.regs.invalid e.out))

/-- The decode of the edge cache (R171, last lines): the result, and its counts as `CH.last_stats`
(log 35). -/
def decodeCache (profile : TimingProfile) (out : List Byte) (s : State) : State :=
  let e := decodeEdges profile (currentEdges s) out
  { s with
    eng := e.regs
    ch := { s.ch with lastStats := {
      totalBits := BitVec.ofNat 32 e.regs.total
      invalidBits := BitVec.ofNat 32 e.regs.invalid } } }.ret (.decoded (decodeVerdict e) e.out)

/-- `DECODE profile, out` (R171). -/
def execDecode (profile : TimingProfile) (out : List Byte) (s : State) : Answer :=
  match channelGate s with
  | some r => .next (s.refuse r)
  | none =>
    match ensureEdges s with
    | .error f => .next (s.fail f)
    | .ok t => .next (decodeCache profile out t)

end Sys2Proof.Machine
end

