-- ==== Sys2Proof/Machine/EdgeBuilder.lean ====
section
/-! DEFINITION. The edge-builder family (spec/42_edge_builder.md): `BUILD_EDGES` and
`GET_RAW_EDGE_TIMES`. -/

namespace Sys2Proof.Machine

/-- `BUILD_EDGES` (R143), issued by the block. -/
def execBuildEdges (s : State) : Answer :=
  match internalGate s with
  | some r => .next (s.refuse r)
  | none =>
    match buildEdges s with
    | .error f => .next (s.fail f)
    | .ok t => .next (t.ret .unit)

/-- `GET_RAW_EDGE_TIMES dst, offset` (R152). -/
def execGetRawEdgeTimes (dst : List EdgeSample) (offset : U32) (s : State) : Answer :=
  match channelGate s with
  | some r => .next (s.refuse r)
  | none =>
    match ensureEdges s with
    | .error f => .next (s.fail f)
    | .ok t =>
      let edges := currentEdges t
      .next (t.ret (.copied (copyCount dst.length edges.length offset.toNat)
        (copyEdges dst edges offset.toNat)))

end Sys2Proof.Machine
end

