-- ==== Sys2Proof/Machine/Reset.lean ====
section
/-! DEFINITION. The reset family (spec/70_reset_and_hazards.md): `CREATE`. -/

namespace Sys2Proof.Machine

/-- Every element at its value of R50, with `CH.pin <- pin`. The marks stay as they were, since "no
later step, including `CREATE`" clears them (R51, log 24); the environment and the schedule are not
the channel's. -/
def createChannel (pin : U16) (s : State) : State :=
  { s with
    created := true
    ch := Channel.reset pin
    cap := Capture.reset
    xfer := Transfer.reset
    irq := Interrupt.reset
    completion := false
    mem := []
    vis := []
    held := false
    wait := none
    eng := EngineRegs.reset }

/-- `CREATE pin` (R199). -/
def execCreate (pin : U16) (s : State) : Answer :=
  match createGate s with
  | some r => .next (s.refuse r)
  | none => .next ((createChannel pin s).ret .unit)

end Sys2Proof.Machine
end

