-- ==== Sys2Proof/Machine/Dispatch.lean ====
section
/-! DEFINITION. The dispatch of spec/30_encoding.md R86: one arm per operation, one meaning each. -/

namespace Sys2Proof.Machine

def exec (i : Instr) (s : State) : Host.Outcome State Fault Refusal :=
  match i with
  | .create pin => Sys2Proof.Machine.execCreate pin s
  | .beginCapture config => Sys2Proof.Machine.execBegin config s
  | .finished => Sys2Proof.Machine.execFinished s
  | .wait timeoutMs => Sys2Proof.Machine.execWait timeoutMs s
  | .decode profile out => Sys2Proof.Machine.execDecode profile out s
  | .getRawEdgeTimes dst offset => Sys2Proof.Machine.execGetRawEdgeTimes dst offset s
  | .injectEdges edges => Sys2Proof.Machine.execInjectEdges edges s
  | .destroy => Sys2Proof.Machine.execDestroy s
  | .arm => Sys2Proof.Machine.execArm s
  | .disarm => Sys2Proof.Machine.execDisarm s
  | .readProgress => Sys2Proof.Machine.execReadProgress s
  | .syncReads first count => Sys2Proof.Machine.execSyncReads first count s
  | .completeCapture reason status => Sys2Proof.Machine.execCompleteCapture reason status s
  | .buildEdges => Sys2Proof.Machine.execBuildEdges s
  | .decodeBit highNs lowNs profile => Sys2Proof.Machine.execDecodeBit highNs lowNs profile s
  | .decodeEdges profile edges out => Sys2Proof.Machine.execDecodeEdges profile edges out s

end Sys2Proof.Machine
end

