-- ==== Sys2Proof/Machine/Foreground.lean ====
section
/-! DEFINITION. The foreground's steps (spec/00_scope.md R6, R7) and the choice of who moves next
(log 13): the decoder on an operation record, the poll of a live `WAIT`, the scheduled moves. -/

namespace Sys2Proof.Machine

/-- An operation record is issued: decoded (R86) and run, or refused by the decoder (R82, R83). -/
def issueRecord (who : Issuer) (record : List Byte) (s : State) : Answer :=
  let t := { s with issuer := who }
  match decode record with
  | .ok i => exec i t
  | .error e => .next (t.refuse (refusalOf e))

/-- The foreground's next step: the poll of the live `WAIT` (R95), else the next operation (R70),
else nothing. -/
def foregroundStep (s : State) : Answer :=
  match s.wait with
  | some r => .next (pollStep r s)
  | none =>
    match s.ops with
    | record :: rest => issueRecord .caller record { s with ops := rest }
    | [] => .next s

/-- One scheduled move (R6, R7). -/
def moveStep (m : Move) (s : State) : Answer :=
  match m with
  | .foreground => foregroundStep s
  | .handlerOp record => issueRecord .interrupt record s
  | .hardware h => .next (hwStep h s)
  | .clock us => .next (clockMove us s)
  | .otherHolds handle held => .next (otherHoldsMove handle held s)
  | .during steps => .next (duringMove steps s)

/-- The next step of the machine: the first scheduled move, else the foreground's step. -/
def nextStep (s : State) : Answer :=
  match s.sched with
  | m :: rest => moveStep m { s with sched := rest }
  | [] => foregroundStep s

/-- The state in which the very next step is the foreground's, to issue `record`: the foreground is
scheduled first, no `WAIT` is live, the record is the first to be issued (log 14). -/
def placeRecord (record : List Byte) (s : State) : State :=
  { s with sched := .foreground :: s.sched, wait := none, ops := record :: s.ops }

end Sys2Proof.Machine
end

