-- ==== Sys2Proof/Machine/Step.lean ====
section
/-! DEFINITION. One step of the machine, and where it fetches its next operation (log 14). -/

namespace Sys2Proof.Machine

/-- One step: of the agent the schedule names, or of the foreground (R6, R7). -/
def step (s : State) : Host.Outcome State Fault Refusal := nextStep s

/-- `s` with the table's word `w` of `nbits` bits, operands of zeros, as the record the foreground
issues in the very next step. -/
def State.withFetchWord (s : State) (nbits w : Nat) : State := placeRecord (tableRecord nbits w) s

end Sys2Proof.Machine
end

