-- ==== Sys2Proof/Safety.lean ====
section
/-! DEFINITION. What counts as a safe run (spec/10_state.md R51), and the invariant of the block's
reachable states, in the terms the obligations use. -/

namespace Sys2Proof.Machine

/-- "Every claim about a run takes `REFUSED = false and FAULTED = false` as a premise" (R51). -/
def Unmarked (s : State) : Prop := s.refused = false ∧ s.faulted = false

/-- Nothing of the backend is active: no edge is recorded, no transfer and no ISR step is enabled,
no ISR runs (R64, R121, R129). -/
structure Quiet (s : State) : Prop where
  notArmed : s.cap.armed = false
  notEnabled : s.xfer.enabled = false
  nonePending : s.xfer.pending = []
  irqMasked : s.irq.enabled = false
  irqClear : s.irq.pending = false
  isrIdle : s.irq.isrRunning = false

/-- A live `WAIT`: its start is not in the future and its next poll is not after its deadline
(R100). -/
structure WaitBounded (r : WaitRegs) (now : U64) : Prop where
  started : r.tStart.toNat ≤ now.toNat
  lastSeen : r.tLast.toNat ≤ now.toNat
  wakes : r.wakeAt ≤ r.tStart.toNat + r.deadlineUs

/-- The invariant of the block's states: what the rules promise at every operation boundary. -/
structure Inv (s : State) : Prop where
  /-- The memory keeps its canonical form. -/
  memWf : Memory.wf s.mem = true
  /-- Memory lists bytes of `BUF` only (R53, R55). -/
  memInBuf : ∀ c ∈ s.mem, s.byteExists c.1 = true
  /-- `CH.capacity` is at most `P_MAX_SLOTS` (R25). -/
  capacityLe : s.ch.capacity ≤ Config.maxSlots
  /-- `VIS` has an entry for each slot of `BUF` (R42). -/
  visLength : s.vis.length = s.ch.capacity
  /-- Without `BUF` the capacity is 0 (R25, R31). -/
  noBuf : s.ch.bufAllocated = false → s.ch.capacity = 0
  /-- Before `CREATE` the channel is as `CREATE` leaves it: nothing armed (R199). -/
  noChannel : s.created = false → s.ch.state = .idle
  /-- `Configured` is never observed at an operation boundary (R23, R91). -/
  notConfigured : s.ch.state ≠ .configured
  /-- A capture has a buffer and a configuration (R23). -/
  capturing : s.ch.state = .capturing → s.ch.bufAllocated = true ∧ s.ch.cfgWritten = true
    ∧ s.xfer.progress ≤ s.ch.capacity
  /-- Outside a capture nothing of the backend is active (R64, R129). -/
  quiet : s.ch.state ≠ .capturing → Quiet s
  /-- A mock backend is never active (R117). -/
  mock : s.plat.backend = .mock → Quiet s ∧ s.xfer.progress = 0 ∧ s.completion = false
  /-- The engine moves samples only short of buffer full, and only then is a sample pending (R36,
  R38, R128). -/
  transferring : s.xfer.enabled = true → s.xfer.progress < s.xfer.length
  /-- A pending sample has an engine to move it (R121, R128). -/
  pendingServed : s.xfer.enabled = false → s.xfer.pending = []
  /-- At most two samples are pending (R38). -/
  pendingLe : s.xfer.pending.length ≤ 2
  /-- A pending sample is a W-bit value (R38). -/
  pendingFit : ∀ v ∈ s.xfer.pending, v.toNat < 2 ^ s.plat.counterBits
  /-- The counter's start value is a W-bit value (R32). -/
  startFit : s.cap.c0.toNat < 2 ^ s.plat.counterBits
  /-- The capture register is a W-bit value (R33). -/
  captureFit : s.cap.captureReg.toNat < 2 ^ s.plat.counterBits
  /-- The last recorded tick count is at most one above the ticks that have passed (R130). -/
  tickBound : s.cap.lastK ≤ s.cap.elapsed / 1000000000 + 1
  /-- The last latch is not in the future (R127). -/
  latched : s.cap.latchAt ≤ s.cap.elapsed
  /-- The slots not yet written since the clear of `BEGIN` hold 0 (R131). -/
  tailClear : s.ch.bufAllocated = true →
    ∀ i, s.xfer.progress ≤ i → i < s.ch.capacity → slotValue s i = 0#32
  /-- On the hardware backend a capture's transfer length is the capacity (R35). -/
  lengthEq : s.ch.state = .capturing → s.plat.backend = .hardware → s.xfer.length = s.ch.capacity
  /-- The completion interrupt and the completion signal of a capture mean buffer full (R96, R128,
  R180). -/
  fullSignal : s.ch.state = .capturing →
    s.irq.pending = true ∨ s.irq.isrRunning = true ∨ s.completion = true →
    s.xfer.progress = s.ch.capacity
  /-- A `Complete` channel has a completion reason (R27). -/
  reason : s.ch.state = .complete → s.ch.completionReason ≠ .none
  /-- A valid edge cache is a `Complete` channel's (R29, R150). -/
  cacheComplete : s.ch.edgesValid = true → s.ch.state = .complete
  /-- The edge cache is bounded (R29). -/
  cacheLength : s.ch.edges.length ≤ max (Config.maxSlots - 1) s.plat.maxEdges
  /-- The slots the Edge Builder has still to read exist and are Fresh (R124). -/
  readable : s.ch.state = .complete → s.ch.edgesValid = false →
    s.ch.bufAllocated = true ∧ s.ch.nSamples ≤ s.ch.capacity
      ∧ ∀ i < s.ch.nSamples, slotVisibility s i = .fresh
  /-- A `WAIT` is live only in a capture (R95), within its bound (R100). -/
  waiting : ∀ r, s.wait = some r → s.ch.state = .capturing ∧ WaitBounded r s.clk.now

/-- It is the foreground's turn in `start`: nothing is scheduled, or the foreground is scheduled first
(R7, log 13); `s` is the state it steps from. -/
def ForegroundTurn (start s : State) : Prop :=
  start.sched = [] ∧ s = start
    ∨ ∃ moves, start.sched = .foreground :: moves ∧ s = { start with sched := moves }

/-- The foreground may issue a public channel operation: it is not issued from interrupt context, a
channel exists and is not destroyed (R110, R111, R199). -/
structure CanIssue (s : State) : Prop where
  context : s.issuer ≠ .interrupt
  created : s.created = true
  live : s.ch.state ≠ .destroyed

/-- The block issues an internal operation on a live channel (R80, R110). -/
structure BlockIssues (s : State) : Prop where
  issuer : s.issuer = .block
  created : s.created = true
  live : s.ch.state ≠ .destroyed

/-- `t` is `s` after the lines of `DISARM` (R121): the backend is quiet, the samples that were pending
have landed in their slots as far as the transfer length goes, every other slot and byte is as it
was, and so is every element `DISARM`, the transfer steps it waits for, the ISR and the other hardware
agents do not write. -/
structure Drained (s t : State) : Prop where
  /-- What changes at most, and what it becomes. The line and the time since arm are the hardware
  agents' own, and the environment has settled one point less. -/
  frame : t = { s with
    cap := { s.cap with armed := false, elapsed := t.cap.elapsed }
    mem := t.mem
    vis := t.vis
    xfer := {
      length := s.xfer.length
      progress := t.xfer.progress
      enabled := false
      pending := []
      attached := s.xfer.attached }
    irq := { enabled := false, pending := false, isrRunning := false }
    completion := t.completion
    line := t.line
    env := { s.env with during := s.env.during.tail } }
  /-- As many transfer steps as samples were pending, up to buffer full. -/
  progress : t.xfer.progress =
    s.xfer.progress + min s.xfer.pending.length (s.xfer.length - s.xfer.progress)
  /-- The pending samples are in the next slots, in order. -/
  landed : ∀ j v, s.xfer.pending[j]? = some v → s.xfer.progress + j < s.xfer.length →
    slotValue t (s.xfer.progress + j) = v
  /-- On a platform whose caches are not coherent a slot written is Stale (R62). -/
  landedStale : ∀ i, s.xfer.progress ≤ i → i < t.xfer.progress →
    slotVisibility t i = if s.plat.cacheCoherent then .fresh else .stale
  /-- Every byte outside the slots written is as it was. -/
  bytes : ∀ a, a < slotAddr s.plat s.xfer.progress ∨ slotAddr s.plat t.xfer.progress ≤ a →
    Memory.read t.mem a = Memory.read s.mem a
  /-- Every slot not written keeps its visibility. -/
  visibility : ∀ i, i < s.xfer.progress ∨ t.xfer.progress ≤ i →
    slotVisibility t i = slotVisibility s i
  /-- The signal is not cleared. -/
  signalKept : s.completion = true → t.completion = true
  /-- An ISR already entered finishes and has set the signal. -/
  signalFinished : s.irq.isrRunning = true → t.completion = true
  /-- The signal is set by an ISR alone: one already entered, or one entered at buffer full before
  the mask line. -/
  signalSet : t.completion = true → s.completion = true ∨ s.irq.isrRunning = true ∨
    (s.env.during.head?.getD [] ≠ [] ∧ t.xfer.progress = s.xfer.length)
  /-- Time does not run back; with no step of another agent settled for the mask line the time and
  the line's level are as they were. -/
  time : s.cap.elapsed ≤ t.cap.elapsed
  still : s.env.during.head?.getD [] = [] → t.cap.elapsed = s.cap.elapsed ∧ t.line = s.line

/-- `t` is `s` after `DISARM` (R121): on the hardware backend the hardware agents take their steps up
to the first line (R129) and the lines follow; on a mock backend nothing happens (R117). -/
structure Disarmed (s t : State) : Prop where
  mock : s.plat.backend = .mock → t = s
  hardware : s.plat.backend = .hardware → Drained (interleave s) t

/-- `t` is `s` with steps of the hardware agents alone between (R7): the foreground's elements, the
parameters and the schedule are as they were, nothing is armed or masked, and neither the signal nor
progress nor time goes back. -/
structure Advanced (s t : State) : Prop where
  frame : t = { s with
    cap := { s.cap with
      elapsed := t.cap.elapsed
      captureReg := t.cap.captureReg
      lastK := t.cap.lastK
      latchAt := t.cap.latchAt }
    mem := t.mem
    vis := t.vis
    xfer := { t.xfer with length := s.xfer.length, attached := s.xfer.attached }
    irq := { t.irq with enabled := s.irq.enabled }
    completion := t.completion
    line := t.line
    env := t.env }
  others : t.env.otherHeld = s.env.otherHeld
  signal : s.completion = true → t.completion = true
  progress : s.xfer.progress ≤ t.xfer.progress
  time : s.cap.elapsed ≤ t.cap.elapsed

end Sys2Proof.Machine
end

