-- ==== Sys2Proof/Certificates/Slice0/Obligations.lean ====
section
/-! DEFINITION. The statements for the provers, one def each, in the order of OBLIGATIONS.json, and the
few functions they are stated with. -/

namespace Sys2Proof.Spec

open Sys2Proof.Machine

/-- The 16 codes of R78 to R80. -/
def codes : List Nat :=
  [0x01, 0x02, 0x03, 0x04, 0x05, 0x06, 0x07, 0x08, 0x10, 0x11, 0x12, 0x13, 0x14, 0x20, 0x30, 0x31]

/-- The public channel operations but `CREATE` (R78). -/
def isPublic : Instr → Bool
  | .beginCapture _ | .finished | .wait _ | .decode _ _ | .getRawEdgeTimes _ _ | .injectEdges _
  | .destroy => true
  | .create _ | .arm | .disarm | .readProgress | .syncReads _ _ | .completeCapture _ _
  | .buildEdges | .decodeBit _ _ _ | .decodeEdges _ _ _ => false

/-- The internal operations (R80). -/
def isInternal : Instr → Bool
  | .arm | .disarm | .readProgress | .syncReads _ _ | .completeCapture _ _ | .buildEdges => true
  | .create _ | .beginCapture _ | .finished | .wait _ | .decode _ _ | .getRawEdgeTimes _ _
  | .injectEdges _ | .destroy | .decodeBit _ _ _ | .decodeEdges _ _ _ => false

/-- `SIG.completion` may be cleared only by these (R182: "until the next `ARM` or `CREATE`"; `BEGIN`
runs `ARM`). -/
def clearsSignal : Instr → Bool
  | .create _ | .beginCapture _ | .arm => true
  | .finished | .wait _ | .decode _ _ | .getRawEdgeTimes _ _ | .injectEdges _ | .destroy | .disarm
  | .readProgress | .syncReads _ _ | .completeCapture _ _ | .buildEdges | .decodeBit _ _ _
  | .decodeEdges _ _ _ => false

/-- The edge samples of a bit string: each bit one HIGH and one LOW sample. -/
def pairs (h0 l0 h1 l1 : U32) (bits : List Bool) : List EdgeSample :=
  bits.flatMap fun b =>
    [{ high := true, durationNs := if b then h1 else h0 },
     { high := false, durationNs := if b then l1 else l0 }]

/-- The number whose binary digits, the most significant first, are `bits`. -/
def binary (bits : List Bool) : Nat := bits.foldl (fun n b => 2 * n + b.toNat) 0

/-- The bytes of a bit string: eight bits a byte, the first in bit 7 (R166), a last group of 1 to 7
bits left-aligned with zeros below it (R168). -/
def packMsb : List Bool → List Byte
  | b7 :: b6 :: b5 :: b4 :: b3 :: b2 :: b1 :: b0 :: rest =>
    BitVec.ofNat 8 (binary [b7, b6, b5, b4, b3, b2, b1, b0]) :: packMsb rest
  | [] => []
  | bits => [BitVec.ofNat 8 (binary (bits ++ List.replicate (8 - bits.length) false))]

/-- The edge samples of (HIGH, LOW) pairs of these durations. -/
def highLows (ds : List (U32 × U32)) : List EdgeSample :=
  ds.flatMap fun d => [{ high := true, durationNs := d.1 }, { high := false, durationNs := d.2 }]

/-- The classifications of the (HIGH, LOW) pairs of an edge sequence, in order: a LOW edge where a pair
should start and a HIGH edge followed by a HIGH one are passed over alone (R163, R164), an edge left
over at the end is no pair (R169). -/
def classified (p : TimingProfile) : List EdgeSample → List BitValue
  | a :: b :: rest =>
    if a.high = true ∧ b.high = false then classify a.durationNs b.durationNs p :: classified p rest
    else classified p (b :: rest)
  | _ => []

/-- The bits of the valid classifications, in order (R165, R166). -/
def validBits (vs : List BitValue) : List Bool :=
  vs.filterMap fun v => match v with
    | .zero => some false
    | .one => some true
    | .invalid => none

/-- The classifications up to the one that gives the `n`-th valid bit, all of them if none does. -/
def upToBit : List BitValue → Nat → List BitValue
  | [], _ => []
  | _, 0 => []
  | v :: vs, n + 1 => v :: upToBit vs (if v = .invalid then n + 1 else n)

/-- The interval between two consecutive samples is a gap (R148). -/
def isGap (p : Platform) (prev cur : Sample) : Bool :=
  decide (toNs p.clockHz (modularDelta p.counterBits prev cur) > 5000)

/-- The placement rule in the words of R57; the padding is a parameter of the platform (log 28). -/
def Placed (p : Platform) : Prop :=
  p.bufBase % (if p.counterBits ≤ 16 then 2 else 4) = 0
    ∧ (p.cacheCoherent = false → p.bufBase % p.cacheLine = 0 ∧ p.bufPadded = true)

/-- `r` is the first record of the pin table, in its order, with this pin and this backend (R118). -/
def FirstRecord (p : Platform) (pin : U16) (r : PinRecord) : Prop :=
  ∃ before after, p.pinTable = before ++ r :: after ∧ r.pin = pin ∧ r.backendId = p.backendId
    ∧ ∀ q ∈ before, ¬(q.pin = pin ∧ q.backendId = p.backendId)

/-- The edge sample number `i` of a capture without a gap, if there are two samples to build it from:
HIGH for an even `i` (R147), the duration the scaled modular difference of samples `i` and `i + 1`
(R143 to R145). -/
def edgeAt (p : Platform) (samples : List Sample) (i : Nat) : Option EdgeSample :=
  match samples[i]?, samples[i + 1]? with
  | some a, some b => some {
      high := decide (i % 2 = 0)
      durationNs := BitVec.ofNat 32 (toNs p.clockHz (modularDelta p.counterBits a b)) }
  | _, _ => none

/-- How many intervals of consecutive samples are gaps. -/
def gapCount (p : Platform) : List Sample → Nat
  | a :: b :: rest => (if isGap p a b then 1 else 0) + gapCount p (b :: rest)
  | _ => 0

/-- The samples of the capture the channel holds: `BUF[0 .. CH.n_samples)`. -/
def captured (s : State) : List Sample := (List.range s.ch.nSamples).map (slotValue s)

/-- The edge list a channel outside a capture shows (R143, R150): in `Complete` the cache, built from
the capture if it is not valid; else the empty one. -/
def edgesSeen (s : State) : List EdgeSample :=
  if s.ch.state = .complete then
    if s.ch.edgesValid then s.ch.edges else edgesOf s.plat (captured s)
  else []

/-- `s` with the cache built where a capture is complete (R150). -/
def withCache (s : State) : State :=
  if s.ch.state = .complete then
    { s with ch := { s.ch with edges := edgesSeen s, edgesValid := true } }
  else s

/-- `WAIT(0)` of a channel in `Capturing` up to the call of `COMPLETE_CAPTURE` at its first poll (R95,
R104): the reason it completes with, and the state there, after the readings of the clock and, where
the signal is not set, the steps of the hardware agents between the signal's reading and the
progress's (R7). -/
def zeroWait (s : State) : CompletionReason × State :=
  let t := (nowUs s).2
  if s.completion then (.bufferFull, t)
  else
    let u := interleave (nowUs t).2
    (if u.xfer.progress = s.xfer.progress
        ∧ ((nowUs t).1.toNat - (nowUs s).1.toNat) * 1000 > s.ch.cfg.signalRangeMaxNs.toNat
      then .inactivity else .timeout, u)

/-- What transferring all that is pending in `s` writes (R126, R62, R128): the samples in the next
slots, in order, as far as the buffer goes, no other byte or slot, and at buffer full the engine's stop
and the interrupt. -/
structure Served (s t : State) : Prop where
  progress : t.xfer.progress =
    s.xfer.progress + min s.xfer.pending.length (s.xfer.length - s.xfer.progress)
  landed : ∀ j v, s.xfer.pending[j]? = some v → s.xfer.progress + j < s.xfer.length →
    slotValue t (s.xfer.progress + j) = v
  written : ∀ i, s.xfer.progress ≤ i → i < t.xfer.progress →
    slotVisibility t i = if s.plat.cacheCoherent then .fresh else .stale
  bytes : ∀ a, a < slotAddr s.plat s.xfer.progress ∨ slotAddr s.plat t.xfer.progress ≤ a →
    Memory.read t.mem a = Memory.read s.mem a
  visibility : ∀ i, i < s.xfer.progress ∨ t.xfer.progress ≤ i →
    slotVisibility t i = slotVisibility s i
  enabled : t.xfer.enabled = decide (t.xfer.progress ≠ s.xfer.length)
  interrupt : t.irq = { s.irq with pending :=
    if t.xfer.progress = s.xfer.length then s.irq.enabled || s.irq.pending else s.irq.pending }

/-- `t` is the state a completed capture leaves: `s` after `DISARM`, with the count latched, its slots
Fresh, the reason stored, `Complete`, and no `WAIT` live (R103). -/
structure Completed (reason : CompletionReason) (s d t : State) : Prop where
  disarmed : Disarmed s d
  frame : t = { d with
    vis := t.vis
    ch := { s.ch with nSamples := d.xfer.progress, completionReason := reason, state := .complete }
    wait := none }
  entries : t.vis.length = s.vis.length
  fresh : ∀ i, slotVisibility t i =
    if i < d.xfer.progress then .fresh else slotVisibility d i

end Sys2Proof.Spec

open Sys2Proof Sys2Proof.Machine Sys2Proof.Spec

/-! ### Encoding -/

/-- A few records written out from R76, R78 to R80 decode to the operations they stand for. The byte
form of the operand record is the model's choice (log 8). -/
def Obligations.RecordsWrittenOutDecode : Prop :=
  decode [0x01, 5, 0] = .ok (.create 5)
  ∧ decode [0x02, 24, 0, 0, 0, 0x50, 0xC3, 0, 0, 1] = .ok (.beginCapture ⟨24, 50000, true⟩)
  ∧ decode [0x03] = .ok .finished
  ∧ decode [0x04, 10, 0, 0, 0] = .ok (.wait 10)
  ∧ decode [0x06, 0, 0, 0, 0, 3, 0, 0, 0] = .ok (.getRawEdgeTimes [] 3)
  ∧ decode [0x07, 2, 0, 0, 0, 1, 0x90, 1, 0, 0, 0, 0x52, 3, 0, 0]
      = .ok (.injectEdges [⟨true, 400⟩, ⟨false, 850⟩])
  ∧ decode [0x08] = .ok .destroy
  ∧ decode [0x10] = .ok .arm
  ∧ decode [0x13, 0, 0, 0, 0, 10, 0, 0, 0] = .ok (.syncReads 0 10)
  ∧ decode [0x20] = .ok .buildEdges
  ∧ decode [0x04] = .error .malformedOperands
  ∧ decode [0x00] = .error .reservedOpcode

/-- R82: exactly the codes of R78 to R80 spell an operation; a record with any other code is refused
as `ReservedOpcode` when the foreground issues it. -/
def Obligations.ReservedCodesAreRefused : Prop :=
  (∀ (op : Byte) (operands : List Byte),
    decode (op :: operands) = .error .reservedOpcode ↔ op.toNat ∉ codes)
  ∧ ∀ (op : Byte) (operands : List Byte) (rest : List (List Byte)) (start s : State),
    op.toNat ∉ codes → ForegroundTurn start s → s.wait = none →
    s.ops = (op :: operands) :: rest →
    step start = .next { s with
      ops := rest
      issuer := .caller
      refused := true
      result := .refused .reservedOpcode }

/-- Decoding the record of a well-formed operation gives it back, with every operand at every value
its format admits. -/
def Obligations.DecodeOfEncodeIsTheOperation : Prop :=
  ∀ i : Instr, i.wellFormed = true → decode (encode i) = .ok i

/-- The decoder accepts nothing but the record of the well-formed operation it answers (R83, R86). -/
def Obligations.DecodedRecordsAreEncodings : Prop :=
  ∀ (record : List Byte) (i : Instr), decode record = .ok i →
    i.wellFormed = true ∧ record = encode i

/-- A step of the foreground, scheduled or with nothing scheduled, runs the operation its next record
decodes to, and refuses a record the decoder refuses; the record is consumed and the issuer is the
caller (log 13). With no `WAIT` live and no record placed it does nothing.

A scheduled step of the hardware agents is taken alone; one scheduled for inside an operation is settled
in the environment, and is taken, in order with the others settled with it, at the first point inside
an operation the foreground reaches (R7, log 15). The ISR may be split into its entry, which
acknowledges, and its return, which signals (R181, log 16). Time counts from the arm instant while the
unit is configured (R32), and changes nothing else where no transfer is due (R127, log 18).

The clock's move advances its reading, which stays at the greatest `u64` (R46, log 23); another
channel's move takes or releases the one peripheral (R119, log 22). -/
def Obligations.StepRunsTheDecodedOperation : Prop :=
  (∀ (start s : State) (record : List Byte) (rest : List (List Byte)),
    ForegroundTurn start s → s.wait = none → s.ops = record :: rest →
    (∀ i, decode record = .ok i → step start = exec i { s with ops := rest, issuer := .caller })
    ∧ (decode record = .error .malformedOperands →
        step start = .next { s with
          ops := rest
          issuer := .caller
          refused := true
          result := .refused .malformedOperands }))
  ∧ (∀ start s : State, ForegroundTurn start s → s.wait = none → s.ops = [] →
    step start = .next s)
  ∧ (∀ (h : HwStep) (moves : List Move) (s : State), s.sched = .hardware h :: moves →
    step s = .next (hwStep h { s with sched := moves }))
  ∧ (∀ (steps : List HwStep) (moves : List Move) (s : State), s.sched = .during steps :: moves →
    step s = .next { s with
      sched := moves
      env := { s.env with during := s.env.during ++ [steps] } })
  ∧ (∀ s : State, s.env.during = [] → interleave s = s)
  ∧ (∀ (steps : List HwStep) (later : List (List HwStep)) (s : State),
    s.env.during = steps :: later →
    interleave s
      = steps.foldl (fun t h => hwStep h t) { s with env := { s.env with during := later } })
  ∧ (∀ s : State, hwStep .isrEntry s =
    if s.irq.pending = true ∧ s.irq.enabled = true ∧ s.irq.isrRunning = false then
      { s with irq := { enabled := true, pending := false, isrRunning := true } }
    else s)
  ∧ (∀ s : State, hwStep .isrReturn s =
    if s.irq.isrRunning = true then
      { s with completion := true, irq := { s.irq with isrRunning := false } }
    else s)
  ∧ (∀ s : State, s.xfer.enabled = false ∨ s.xfer.pending = [] → hwStep .transfer s = s)
  ∧ (∀ (units : Nat) (s : State), s.cap.configured = false → hwStep (.elapse units) s = s)
  ∧ (∀ (units : Nat) (s : State), s.cap.configured = true →
    s.xfer.enabled = false ∨ s.xfer.pending = []
      ∨ s.cap.elapsed + units - s.cap.latchAt < s.plat.captureServiceNs * s.plat.clockHz →
    hwStep (.elapse units) s = { s with cap := { s.cap with elapsed := s.cap.elapsed + units } })
  ∧ (∀ (us : Nat) (moves : List Move) (s : State), s.sched = .clock us :: moves →
    step s = .next { s with
      sched := moves
      clk := { s.clk with
        now := BitVec.ofNat 64 (min (2 ^ 64 - 1) (s.clk.now.toNat + us)) } })
  ∧ ∀ (handle : Nat) (held : Bool) (moves : List Move) (s : State),
    s.sched = .otherHolds handle held :: moves →
    ∃ others : List Nat,
      step s = .next { s with sched := moves, env := { s.env with otherHeld := others } }
      ∧ ∀ h, h ∈ others ↔ if h = handle then held = true else h ∈ s.env.otherHeld

/-! ### Reset and the refusals tested first -/

/-- Before `CREATE`, on every platform: no channel exists and every element with a value in R50 has it
(that the machine starts so is the model's reading, log 1). -/
def Obligations.BootHoldsTheResetValues : Prop :=
  ∀ p : Platform, let s := State.boot p
    s.created = false ∧ s.ch.state = .idle ∧ s.ch.capacity = 0 ∧ s.ch.lastError = .none
    ∧ s.ch.completionReason = .none ∧ s.ch.nSamples = 0 ∧ s.ch.edges = []
    ∧ s.ch.edgesValid = false ∧ s.ch.lastStats = ⟨0, 0⟩ ∧ s.ch.bufAllocated = false
    ∧ s.cap.armed = false ∧ s.xfer.length = 0 ∧ s.xfer.progress = 0 ∧ s.xfer.enabled = false
    ∧ s.xfer.pending = [] ∧ s.irq.enabled = false ∧ s.irq.pending = false
    ∧ s.irq.isrRunning = false ∧ s.completion = false ∧ s.mem = [] ∧ s.vis = []
    ∧ s.refused = false ∧ s.faulted = false

/-- `CREATE` of a first channel (R199): the channel is `Idle` with the given pin, every element to which
R50 gives a value has it, and the platform, the environment, the schedule and the marks are as they
were. That the marks stay is the model's reading of R50 and R51 (log 24); the zeros in `CH.cfg`, `c0`,
`CAP.capture_reg` and the other fields of the capture unit, to which R50 gives no value, are the
model's choice (logs 3 and 4). -/
def Obligations.CreateConstructsAnIdleChannel : Prop :=
  ∀ (pin : U16) (s : State), s.issuer ≠ .interrupt → s.created = false →
    ∃ t, exec (.create pin) s = .next t
      ∧ t = { State.boot s.plat with
          created := true
          ch := { (State.boot s.plat).ch with pin := pin }
          line := s.line
          clk := s.clk
          env := s.env
          issuer := s.issuer
          ops := s.ops
          sched := s.sched
          draws := s.draws
          result := .unit
          refused := s.refused
          faulted := s.faulted }

/-- R110, R199: what is refused for want of a live channel. A second `CREATE`, every public operation
before `CREATE`, every public operation and `CREATE` after `DESTROY`, every internal operation the
block issues then; a refusal sets `REFUSED` and has no other effect. -/
def Obligations.OperationsNeedALiveChannel : Prop :=
  ∀ (i : Instr) (s : State), s.issuer ≠ .interrupt →
    (isPublic i = true ∨ isInternal i = true ∧ s.issuer = .block →
      (s.created = false → exec i s = .next (s.refuse .noChannel))
      ∧ (s.created = true → s.ch.state = .destroyed →
          exec i s = .next (s.refuse .useAfterDestroy)))
    ∧ ∀ pin, s.created = true → exec (.create pin) s = .next (s.refuse
        (if s.ch.state = .destroyed then .useAfterDestroy else .alreadyCreated))

/-- R80: an internal operation the caller issues is refused and has no other effect, whatever the
state. That the reason is InternalOperation also without a channel and in `Destroyed`, where R199 and
R110 name their own, is the model's choice of an order (log 11). -/
def Obligations.CallerMayNotIssueInternalOperations : Prop :=
  ∀ (i : Instr) (s : State), isInternal i = true → s.issuer = .caller →
    exec i s = .next { s with refused := true, result := .refused .internalOperation }

/-- R111: every operation issued from interrupt context is refused and has no other effect, also as an
interrupt handler's move; a handler's record that spells no operation is refused by the decoder (R82,
R83). That the reason is WrongContext before any other is the model's choice of an order (log 11). -/
def Obligations.InterruptContextMayNotIssue : Prop :=
  (∀ (i : Instr) (s : State), s.issuer = .interrupt →
    exec i s = .next { s with refused := true, result := .refused .wrongContext })
  ∧ (∀ (i : Instr) (record : List Byte) (rest : List Move) (s : State), decode record = .ok i →
    s.sched = .handlerOp record :: rest →
    step s = .next { s with
      sched := rest
      issuer := .interrupt
      refused := true
      result := .refused .wrongContext })
  ∧ ∀ (e : DecodeFail) (record : List Byte) (rest : List Move) (s : State),
    decode record = .error e → s.sched = .handlerOp record :: rest →
    step s = .next { s with
      sched := rest
      issuer := .interrupt
      refused := true
      result := .refused (match e with
        | .reservedOpcode => .reservedOpcode
        | .malformedOperands => .malformedOperands) }

/-! ### Channel control -/

/-- `BEGIN` that passes validation on the hardware backend (R88, R90, R120, R25): the whole next
state, from every state of the block, after the `DISARM` of a capture (`d`). The start value `c0` is a free value below `2^W` (log 20). -/
def Obligations.BeginConfiguresAndArms : Prop :=
  ∀ (config : RxConfig) (s : State), Inv s → CanIssue s → s.plat.backend = .hardware →
    config.startLow = true → config.bufferSize ≠ 0 → bufferPlaced s.plat = true →
    pinSupported s.plat s.ch.pin = true → resourceBusy s = false →
    ∃ d t, exec (.beginCapture config) s = .next t
      ∧ (s.ch.state = .capturing → Disarmed s d) ∧ (s.ch.state ≠ .capturing → d = s)
      ∧ t.cap.c0.toNat < 2 ^ s.plat.counterBits
      ∧ t = { d with
          ch := { s.ch with
            state := .capturing
            cfg := config
            cfgWritten := true
            capacity := min 8192 (2 * config.bufferSize.toNat)
            lastError := .none
            completionReason := .none
            nSamples := 0
            edges := []
            edgesValid := false
            bufAllocated := true }
          cap := {
            c0 := t.cap.c0
            elapsed := 0
            configured := true
            route := pinRecord s.plat s.ch.pin
            captureReg := d.cap.captureReg
            armed := true
            lastK := 0
            latchAt := 0 }
          xfer := {
            length := min 8192 (2 * config.bufferSize.toNat)
            progress := 0
            enabled := true
            pending := []
            attached := true }
          irq := { enabled := true, pending := false, isrRunning := false }
          completion := false
          mem := t.mem
          vis := t.vis
          held := true
          draws := s.draws + 1
          result := .bool true }
      ∧ ∀ i < t.ch.capacity, slotValue t i = 0#32 ∧ slotVisibility t i = .fresh

/-- R88, R89: the refusals of `BEGIN` beyond those of every operation, and its failures, in the order
of the rule; a failure writes `CH.last_error` and nothing else but the false result. The tests are the
rules' own: the placement of R57 (that the padding is a parameter is the model's choice, log 28), the
pin's first record in the table's order (R118), and another channel's hold on that record's peripheral
while this channel does not hold it (R119; that the draw is environment state is the model's choice,
log 22). -/
def Obligations.BeginRefusesOrFailsInOrder : Prop :=
  (∀ p : Platform, bufferPlaced p = true ↔ Placed p)
  ∧ (∀ (p : Platform) (pin : U16),
    (∀ r, pinRecord p pin = some r ↔ FirstRecord p pin r)
    ∧ (pinSupported p pin = true ↔ ∃ r, FirstRecord p pin r)
    ∧ (pinSupported p pin = true ↔ ∃ r ∈ p.pinTable, r.pin = pin ∧ r.backendId = p.backendId))
  ∧ (∀ s : State, resourceBusy s = true ↔ s.held = false
    ∧ ∃ r, FirstRecord s.plat s.ch.pin r ∧ r.peripheralHandle ∈ s.env.otherHeld)
  ∧ ∀ (config : RxConfig) (s : State), CanIssue s →
    (config.startLow = false →
      exec (.beginCapture config) s = .next (s.refuse .startHighUnsupported))
    ∧ (config.startLow = true → bufferPlaced s.plat = false →
      exec (.beginCapture config) s = .next (s.refuse .misalignedBuffer))
    ∧ (config.startLow = true → bufferPlaced s.plat = true →
      ∀ e : BeginError,
        e = (if pinSupported s.plat s.ch.pin = false then .unsupportedPin
          else if config.bufferSize = 0 then .invalidConfig
          else if resourceBusy s = true then .resourceBusy
          else .none) →
        e ≠ .none →
        exec (.beginCapture config) s
          = .next { s with ch := { s.ch with lastError := e }, result := .bool false })

/-- R93: `FINISHED`, code 0x03, is refused in `Destroyed`; else it returns the completion signal and
writes nothing. -/
def Obligations.FinishedReturnsTheSignal : Prop :=
  decode [0x03] = .ok .finished
  ∧ ∀ s : State, s.issuer ≠ .interrupt → s.created = true →
    (s.ch.state = .destroyed → exec .finished s = .next (s.refuse .useAfterDestroy))
    ∧ (s.ch.state ≠ .destroyed →
      exec .finished s = .next { s with result := .bool s.completion })

/-- R101, R102: `WAIT` in `Idle` returns Timeout at once, in `Complete` the status of the stored
reason, and writes nothing, whatever the reason. -/
def Obligations.WaitReturnsAtOnceOutsideACapture : Prop :=
  ∀ (timeoutMs : U32) (s : State), CanIssue s →
    (s.ch.state = .idle →
      exec (.wait timeoutMs) s = .next { s with result := .waitStatus .timeout })
    ∧ (s.ch.state = .complete →
      ∃ status, exec (.wait timeoutMs) s = .next { s with result := .waitStatus status }
        ∧ (s.ch.completionReason ≠ .none →
          status = if s.ch.completionReason = .timeout then .timeout else .success))

/-- R95, R43: `WAIT` in `Capturing` sets its working registers from one reading of the clock and of the
progress counter; the first poll may run at once. Nothing else changes but the clock's reading. The
register `result` holds Timeout until an exit writes it, the model's choice (log 30). -/
def Obligations.WaitEntersItsLoop : Prop :=
  ∀ (timeoutMs : U32) (s : State), CanIssue s → s.ch.state = .capturing →
    ∃ (now : U64) (clk : Clock), s.clk.now.toNat ≤ now.toNat ∧ clk.now = now
      ∧ (s.clk.draws = [] → now = s.clk.now)
      ∧ exec (.wait timeoutMs) s = .next { s with
          clk := clk
          wait := some {
            tStart := now
            deadlineUs := timeoutMs.toNat * 1000
            lastProgress := s.xfer.progress
            tLast := now
            result := .timeout
            wakeAt := now.toNat }
          result := .waiting }

/-- R96, R99, R103: a poll that finds the completion signal ends the wait with Success and BufferFull,
whatever the clock says. -/
def Obligations.PollEndsAtBufferFull : Prop :=
  ∀ (r : WaitRegs) (start s : State), Inv s → ForegroundTurn start s → s.wait = some r →
    r.wakeAt ≤ s.clk.now.toNat → s.completion = true →
    ∃ d t, Completed .bufferFull s d t
      ∧ step start = .next { t with result := .waitStatus .success }

/-- R97, R99, R103: a poll with no completion signal whose progress is the last value seen, and whose
clock reading is more than `signal_range_max_ns` after that value was first seen, ends the wait with
Success and Inactivity, also when the timeout has elapsed. The hardware agents may take steps between
the reading of the signal and that of the progress, and between that and `DISARM` (R7). -/
def Obligations.PollEndsAtInactivity : Prop :=
  ∀ (r : WaitRegs) (start s : State), Inv s → ForegroundTurn start s → s.wait = some r →
    r.wakeAt ≤ s.clk.now.toNat → s.completion = false →
    let t := (nowUs s).1.toNat
    let u := interleave (nowUs s).2
    u.xfer.progress = r.lastProgress →
    (t - r.tLast.toNat) * 1000 > s.ch.cfg.signalRangeMaxNs.toNat →
    ∃ d v, Completed .inactivity u d v
      ∧ step start = .next { v with result := .waitStatus .success }

/-- R98, R99, R103: a poll at which neither buffer full nor inactivity holds, at least the timeout
after the wait's start, ends it with Timeout. -/
def Obligations.PollEndsAtTimeout : Prop :=
  ∀ (r : WaitRegs) (start s : State), Inv s → ForegroundTurn start s → s.wait = some r →
    r.wakeAt ≤ s.clk.now.toNat → s.completion = false →
    let t := (nowUs s).1.toNat
    let u := interleave (nowUs s).2
    (u.xfer.progress ≠ r.lastProgress ∨
      (t - r.tLast.toNat) * 1000 ≤ s.ch.cfg.signalRangeMaxNs.toNat) →
    t - r.tStart.toNat ≥ r.deadlineUs →
    ∃ d v, Completed .timeout u d v
      ∧ step start = .next { v with result := .waitStatus .timeout }

/-- R95, R97, R100: a poll that meets no exit records a changed progress value with its time and sleeps
for the poll interval or the time left, whichever is less; a foreground that sleeps does nothing. -/
def Obligations.PollSleepsOtherwise : Prop :=
  ∀ (r : WaitRegs) (start s : State), Inv s → ForegroundTurn start s → s.wait = some r →
    (s.clk.now.toNat < r.wakeAt → step start = .next s)
    ∧ (r.wakeAt ≤ s.clk.now.toNat → s.completion = false →
      let t := (nowUs s).1
      let u := interleave (nowUs s).2
      (u.xfer.progress ≠ r.lastProgress ∨
        (t.toNat - r.tLast.toNat) * 1000 ≤ s.ch.cfg.signalRangeMaxNs.toNat) →
      t.toNat - r.tStart.toNat < r.deadlineUs →
      step start = .next { u with
        wait := some {
          tStart := r.tStart
          deadlineUs := r.deadlineUs
          lastProgress := u.xfer.progress
          tLast := if u.xfer.progress = r.lastProgress then r.tLast else t
          result := r.result
          wakeAt := t.toNat
            + min s.plat.pollUs (r.tStart.toNat + r.deadlineUs - t.toNat) } })

/-- The liveness bound of R98 and R100: in every state of the block, once the host clock has reached
the deadline of a live `WAIT`, the foreground's next step ends it, whatever the backend does. -/
def Obligations.WaitEndsByItsDeadline : Prop :=
  ∀ (r : WaitRegs) (start s : State), Inv s → ForegroundTurn start s → s.wait = some r →
    r.tStart.toNat + r.deadlineUs ≤ s.clk.now.toNat →
    ∃ t status, step start = .next t ∧ t.wait = none ∧ t.ch.state = .complete
      ∧ t.result = .waitStatus status ∧ Quiet t

/-- R103: `COMPLETE_CAPTURE` issued by the block in a capture: disarmed and drained, the count latched
after the drain, its slots Fresh, the reason stored, the channel `Complete`. -/
def Obligations.CompleteCaptureLatchesTheCapture : Prop :=
  ∀ (reason : EndReason) (status : WaitStatus) (s : State), Inv s → BlockIssues s →
    s.ch.state = .capturing →
    ∃ d t, Completed (reasonOf reason) s d t
      ∧ exec (.completeCapture reason status) s
        = .next { t with wait := s.wait, result := .waitStatus status }

/-- R106, R107: `INJECT_EDGES` of at most `P_MAX_EDGES` edges enters `Complete` with them, after a
`DISARM` when capturing; a longer list returns false and leaves every element unchanged. -/
def Obligations.InjectEdgesReplacesTheCache : Prop :=
  ∀ (edges : List EdgeSample) (s : State), Inv s → CanIssue s →
    (edges.length ≤ s.plat.maxEdges →
      ∃ d, (s.ch.state = .capturing → Disarmed s d) ∧ (s.ch.state ≠ .capturing → d = s)
        ∧ exec (.injectEdges edges) s = .next { d with
            ch := { s.ch with
              edges := edges
              edgesValid := true
              nSamples := 0
              completionReason := .injected
              state := .complete }
            result := .bool true })
    ∧ (s.plat.maxEdges < edges.length →
      exec (.injectEdges edges) s = .next { s with result := .bool false })

/-- R109: `DESTROY` disarms a capture, stops the counter, detaches the engine, releases the pin and
frees the buffer; every other element is as it was. -/
def Obligations.DestroyReleasesTheHardware : Prop :=
  ∀ s : State, Inv s → CanIssue s →
    ∃ d, (s.ch.state = .capturing → Disarmed s d) ∧ (s.ch.state ≠ .capturing → d = s)
      ∧ exec .destroy s = .next { d with
          cap := { d.cap with configured := false, route := none }
          xfer := { d.xfer with attached := false }
          held := false
          mem := []
          vis := []
          ch := { s.ch with
            bufAllocated := false
            capacity := 0
            edges := []
            edgesValid := false
            state := .destroyed }
          result := .unit }

/-- The table of R112: the channel state after each public operation the caller issues on a live
channel, by the state before it, and what `BEGIN` and `INJECT_EDGES` returned; `WAIT` in a capture
enters its loop, and the poll that ends it makes the transition (the `Poll` statements). `DECODE_BIT`
and `DECODE_EDGES` touch no channel state, nor does a refused operation. -/
def Obligations.ChannelStateMachine : Prop :=
  ∀ (i : Instr) (s : State), Inv s → s.wait = none → s.issuer = .caller → s.created = true →
    ∃ t, exec i s = .next t
      ∧ t.ch.state =
        (if s.ch.state = .destroyed then .destroyed
        else match i with
          | .beginCapture _ => if t.result = .bool true then .capturing else s.ch.state
          | .decode _ _ => if s.ch.state = .capturing then .complete else s.ch.state
          | .getRawEdgeTimes _ _ => if s.ch.state = .capturing then .complete else s.ch.state
          | .injectEdges _ => if t.result = .bool true then .complete else s.ch.state
          | .destroy => .destroyed
          | _ => s.ch.state)

/-! ### Capture backend -/

/-- R120: `ARM` issued by the block on the hardware backend: the whole next state. The start value is a
free value below `2^W` (log 20). R120 states the effect under its precondition, which its issuer
`BEGIN` establishes; that it is the same in every live channel is the model's choice (log 34). -/
def Obligations.ArmProgramsTheBackend : Prop :=
  ∀ s : State, BlockIssues s → s.plat.backend = .hardware →
    ∃ c0 : Sample, c0.toNat < 2 ^ s.plat.counterBits
      ∧ exec .arm s = .next { s with
          cap := { s.cap with
            c0 := c0
            elapsed := 0
            configured := true
            route := pinRecord s.plat s.ch.pin
            armed := true
            lastK := 0
            latchAt := 0 }
          xfer := {
            length := s.ch.capacity
            progress := 0
            enabled := true
            pending := []
            attached := true }
          irq := { s.irq with enabled := true, pending := false }
          completion := false
          held := true
          draws := s.draws + 1
          result := .unit }

/-- R117: on a mock backend `ARM` and `DISARM` touch no hardware, and a `BEGIN` that passes validation
configures the channel and leaves the backend as it was (the model's reading, log 29). -/
def Obligations.MockBackendTouchesNoHardware : Prop :=
  ∀ s : State, Inv s → s.plat.backend = .mock →
    (BlockIssues s → exec .arm s = .next { s with result := .unit }
      ∧ exec .disarm s = .next { s with result := .unit })
    ∧ ∀ config : RxConfig, CanIssue s → config.startLow = true → config.bufferSize ≠ 0 →
      bufferPlaced s.plat = true → pinSupported s.plat s.ch.pin = true → resourceBusy s = false →
      exec (.beginCapture config) s = .next { s with
        ch := { s.ch with
          state := .capturing
          cfg := config
          cfgWritten := true
          capacity := min 8192 (2 * config.bufferSize.toNat)
          lastError := .none
          completionReason := .none
          nSamples := 0
          edges := []
          edgesValid := false
          bufAllocated := true }
        mem := []
        vis := List.replicate (min 8192 (2 * config.bufferSize.toNat)) .fresh
        result := .bool true }

/-- R121: `DISARM` issued by the block stops the capture and drains it, and is idempotent: a second one
changes nothing but what the other agents do meanwhile, which is the line's level and the time since
arm, and nothing at all where they take no step. -/
def Obligations.DisarmStopsAndDrains : Prop :=
  ∀ s : State, Inv s → BlockIssues s →
    ∃ d, Disarmed s d ∧ exec .disarm s = .next { d with result := .unit }
      ∧ Quiet d
      ∧ ∃ t, exec .disarm { d with result := .unit } = .next t
        ∧ t = { d with
            cap := { d.cap with elapsed := t.cap.elapsed }
            line := t.line
            env := { d.env with during := t.env.during }
            result := .unit }
        ∧ (d.env.during = [] → t = { d with result := .unit })

/-- R122: `READ_PROGRESS` issued by the block returns the progress counter and has no side effect. -/
def Obligations.ReadProgressReturnsTheCounter : Prop :=
  ∀ s : State, BlockIssues s →
    exec .readProgress s = .next { s with result := .progress s.xfer.progress }

/-- R123: `SYNC_READS` issued by the block: nothing for an empty range, a fault for a range beyond the
buffer (the order of these two is the model's reading, log 39), nothing on a coherent platform, else
the range becomes Fresh and every other slot keeps its visibility. -/
def Obligations.SyncReadsMakesTheRangeFresh : Prop :=
  ∀ (first count : U32) (s : State), BlockIssues s → s.vis.length = s.ch.capacity →
    (count = 0 → exec (.syncReads first count) s = .next { s with result := .unit })
    ∧ (count ≠ 0 → s.ch.capacity < first.toNat + count.toNat →
      exec (.syncReads first count) s
        = .next { s with faulted := true, result := .faulted .unwrittenRead })
    ∧ (first.toNat + count.toNat ≤ s.ch.capacity → s.plat.cacheCoherent = true →
      exec (.syncReads first count) s = .next { s with result := .unit })
    ∧ (first.toNat + count.toNat ≤ s.ch.capacity →
      ∃ w, exec (.syncReads first count) s = .next { s with vis := w, result := .unit }
        ∧ w.length = s.vis.length
        ∧ ∀ i, slotVisibility { s with vis := w } i =
            if first.toNat ≤ i ∧ i < first.toNat + count.toNat then .fresh
            else slotVisibility s i)

/-- R125, R127, R130: an edge while the backend is armed and its engine enabled latches one sample
`trunc_W(c0 + k)`, `k` the tick count or one more as drawn and never smaller than an earlier `k`; with
a sample still pending inside its service time the draw of R127 replaces or duplicates it. -/
def Obligations.EdgeIsLatched : Prop :=
  ∀ (late : Bool) (overrun : Overrun) (rest : List Move) (s : State),
    s.sched = .hardware (.edge late overrun) :: rest → s.plat.backend = .hardware → s.cap.armed = true →
    s.xfer.enabled = true → s.cap.lastK ≤ s.cap.elapsed / 1000000000 + 1 →
    (s.xfer.pending = [] ∨
      s.cap.elapsed - s.cap.latchAt < s.plat.captureServiceNs * s.plat.clockHz) →
    ∃ (k : Nat) (v : Sample),
      k = max s.cap.lastK (s.cap.elapsed / 1000000000 + if late then 1 else 0)
      ∧ (k = s.cap.elapsed / 1000000000 ∨ k = s.cap.elapsed / 1000000000 + 1)
      ∧ v.toNat = (s.cap.c0.toNat + k) % 2 ^ s.plat.counterBits % 2 ^ 32
      ∧ step s = .next { s with
          sched := rest
          line := !s.line
          cap := { s.cap with captureReg := v, lastK := k, latchAt := s.cap.elapsed }
          xfer := { s.xfer with pending :=
            if s.xfer.pending = [] then [v]
            else if overrun = .replace then [v] else [v, v] } }

/-- R129: an edge while the backend is not armed, or after buffer full, or on a mock backend (R117),
changes the line's level and nothing else. -/
def Obligations.EdgeIsNotRecorded : Prop :=
  ∀ (late : Bool) (overrun : Overrun) (rest : List Move) (s : State), Inv s →
    s.sched = .hardware (.edge late overrun) :: rest →
    s.cap.armed = false ∧ s.ch.state ≠ .capturing ∨ s.xfer.enabled = false
      ∨ s.plat.backend = .mock →
    step s = .next { s with sched := rest, line := !s.line }

/-- The schedule law of R127 as the model keeps it (log 18): real time that brings the age of the last
latch to `P_CAPTURE_SERVICE_NS`, or an edge that finds it reached, finds every pending sample
transferred, in order, as far as the buffer goes, and the backend still armed; so the edge's own sample
is latched beside nothing pending, unless the buffer is full. With a service time of 0 this is every
edge that finds a sample pending. The transfer is that of R126, R62 and R128: no other byte or slot
changes, the slots written are Stale unless the platform is coherent, and filling the buffer disables
the engine and raises the interrupt if it is enabled. -/
def Obligations.PendingSampleIsServedInTime : Prop :=
  ∀ (rest : List Move) (s : State), Inv s → s.xfer.enabled = true → s.xfer.pending ≠ [] →
    (∀ units, s.sched = .hardware (.elapse units) :: rest → s.cap.configured = true →
      s.plat.captureServiceNs * s.plat.clockHz ≤ s.cap.elapsed + units - s.cap.latchAt →
      ∃ t, step s = .next t ∧ Served s t
        ∧ t = { s with
            sched := rest
            cap := { s.cap with elapsed := s.cap.elapsed + units }
            mem := t.mem
            vis := t.vis
            xfer := { t.xfer with
              length := s.xfer.length
              pending := []
              attached := s.xfer.attached }
            irq := t.irq })
    ∧ ∀ late overrun, s.sched = .hardware (.edge late overrun) :: rest → s.cap.armed = true →
      s.plat.backend = .hardware →
      s.plat.captureServiceNs * s.plat.clockHz ≤ s.cap.elapsed - s.cap.latchAt →
      ∃ t, step s = .next t ∧ Served s t
        ∧ t = { s with
            sched := rest
            line := !s.line
            cap :=
              if t.xfer.progress = s.xfer.length then s.cap
              else { s.cap with
                captureReg := sampleValue late s
                lastK := edgeK s.cap.lastK s.cap.elapsed late
                latchAt := s.cap.elapsed }
            mem := t.mem
            vis := t.vis
            xfer := { t.xfer with
              length := s.xfer.length
              pending := if t.xfer.progress = s.xfer.length then [] else [sampleValue late s]
              attached := s.xfer.attached }
            irq := t.irq }

/-- R126, R62, R128: an enabled transfer step writes the oldest pending sample into the slot of the
progress counter and counts it; every other byte is as it was; the step that fills the buffer
disables the engine, drops what is pending and raises the interrupt if it is enabled. -/
def Obligations.TransferWritesTheNextSlot : Prop :=
  ∀ (v : Sample) (pending : List Sample) (rest : List Move) (s : State), Inv s →
    s.sched = .hardware .transfer :: rest → s.xfer.enabled = true → s.xfer.pending = v :: pending →
    ∃ t, step s = .next t
      ∧ slotValue t s.xfer.progress = v
      ∧ slotVisibility t s.xfer.progress = (if s.plat.cacheCoherent then .fresh else .stale)
      ∧ (∀ a, a < slotAddr s.plat s.xfer.progress ∨ slotAddr s.plat (s.xfer.progress + 1) ≤ a →
          Memory.read t.mem a = Memory.read s.mem a)
      ∧ (∀ i, i ≠ s.xfer.progress → slotVisibility t i = slotVisibility s i)
      ∧ t = { s with
          sched := rest
          mem := t.mem
          vis := t.vis
          xfer := { s.xfer with
            progress := s.xfer.progress + 1
            enabled := decide (s.xfer.progress + 1 ≠ s.xfer.length)
            pending := if s.xfer.progress + 1 = s.xfer.length then [] else pending }
          irq := { s.irq with pending :=
            if s.xfer.progress + 1 = s.xfer.length then s.irq.enabled || s.irq.pending
            else s.irq.pending } }

/-- The consequence R130 draws: two recorded edges less than `2^W - 2` ticks apart give a modular
difference within one tick below and two above the whole ticks between them. -/
def Obligations.SampleDifferenceIsBounded : Prop :=
  ∀ (w c0 lastK t1 t2 : Nat) (late1 late2 : Bool), w ≤ 32 → t1 ≤ t2 →
    lastK ≤ t1 / 1000000000 + 1 → t2 - t1 < (2 ^ w - 2) * 1000000000 →
    let k1 := edgeK lastK t1 late1
    let k2 := edgeK k1 t2 late2
    let d := modularDelta w (truncW w (c0 + k1)) (truncW w (c0 + k2))
    (t2 - t1) / 1000000000 - 1 ≤ d ∧ d ≤ (t2 - t1) / 1000000000 + 2

/-- R181: the ISR step, where the interrupt is pending and enabled, acknowledges it, sets the
completion signal and returns; it writes nothing else. Where the interrupt is not pending or not
enabled, or the ISR already runs (R185), there is no ISR step. -/
def Obligations.IsrSetsTheSignal : Prop :=
  ∀ (rest : List Move) (s : State), s.sched = .hardware .isr :: rest →
    (s.irq.pending = true → s.irq.enabled = true → s.irq.isrRunning = false →
      step s = .next { s with
        sched := rest
        completion := true
        irq := { s.irq with pending := false } })
    ∧ (s.irq.pending = false ∨ s.irq.enabled = false ∨ s.irq.isrRunning = true →
      step s = .next { s with sched := rest })

/-- R37, R122: no scheduled move of another agent lowers the progress counter, and in a capture it is
at most the transfer length; so it is at a point inside an operation (R7). -/
def Obligations.ProgressNeverDecreases : Prop :=
  ∀ (m : Move) (rest : List Move) (s t : State), Inv s →
    (s.sched = m :: rest ∧ m ≠ .foreground ∧ step s = .next t) ∨ t = interleave s →
    s.xfer.progress ≤ t.xfer.progress
    ∧ (s.ch.state = .capturing → s.plat.backend = .hardware → t.xfer.progress ≤ t.xfer.length)

/-- R182: the completion signal, once true, stays true through every move, every poll and every
operation but those that run `ARM` or `CREATE`. -/
def Obligations.SignalStaysUntilRearmed : Prop :=
  ∀ s : State, s.completion = true →
    (∀ m rest t, s.sched = m :: rest → m ≠ .foreground → step s = .next t → t.completion = true)
    ∧ (∀ start r t, ForegroundTurn start s → s.wait = some r → step start = .next t →
      t.completion = true)
    ∧ ∀ i t, clearsSignal i = false → exec i s = .next t → t.completion = true

/-- R64, R129: outside a capture no move of the hardware agents changes memory, its visibility, the
progress counter, the interrupt line, the signal or a channel register; so at a point inside an
operation (R7). -/
def Obligations.HardwareIsStillOutsideACapture : Prop :=
  ∀ (m : Move) (rest : List Move) (s t : State), Inv s → s.ch.state ≠ .capturing →
    (s.sched = m :: rest ∧ m ≠ .foreground ∧ step s = .next t) ∨ t = interleave s →
    t.mem = s.mem ∧ t.vis = s.vis ∧ t.xfer = s.xfer ∧ t.irq = s.irq
    ∧ t.completion = s.completion ∧ t.ch = s.ch ∧ Quiet t

/-! ### Edge Builder -/

/-- R144: the delta of two samples is their difference modulo `2^W`. -/
def Obligations.DeltaIsModular : Prop :=
  ∀ (w : Nat) (prev cur : Sample), w ≤ 32 →
    (modularDelta w prev cur : Int) = ((cur.toNat : Int) - prev.toNat) % 2 ^ w

/-- R145: the scaled duration is the exact quotient rounded down, but at most `2^32 - 1`, and a
saturated one is a gap. -/
def Obligations.ScalingTruncatesAndSaturates : Prop :=
  ∀ (clockHz d : Nat), 0 < clockHz →
    toNs clockHz d ≤ 2 ^ 32 - 1
    ∧ (toNs clockHz d < 2 ^ 32 - 1 →
        toNs clockHz d * clockHz ≤ d * 1000000000
        ∧ d * 1000000000 < (toNs clockHz d + 1) * clockHz)
    ∧ (toNs clockHz d = 2 ^ 32 - 1 → (2 ^ 32 - 1) * clockHz ≤ d * 1000000000
        ∧ toNs clockHz d > 5000)

/-- R146: no edge sample depends on the counter's start value: adding a constant to every sample modulo
`2^W` changes none. -/
def Obligations.StartValueCancels : Prop :=
  ∀ (p : Platform) (c : Nat) (samples : List Sample), p.counterBits ≤ 32 →
    edgesOf p (samples.map fun v => truncW p.counterBits (v.toNat + c)) = edgesOf p samples

/-- R149: as many edge samples as intervals that are no gaps. -/
def Obligations.EdgeCountIsIntervalsLessGaps : Prop :=
  ∀ (p : Platform) (samples : List Sample),
    (edgesOf p samples).length + gapCount p samples = samples.length - 1

/-- R148: a gap is dropped and the polarity starts again at HIGH after it: the edge samples of a capture
with a gap are those of the two parts, one after the other. -/
def Obligations.GapSplitsTheCapture : Prop :=
  ∀ (p : Platform) (before after : List Sample) (a b : Sample), isGap p a b = true →
    edgesOf p (before ++ [a] ++ b :: after) = edgesOf p (before ++ [a]) ++ edgesOf p (b :: after)

/-- R147, R143 to R145: without a gap the first edge sample is HIGH and the polarity alternates; there
is one for each two consecutive samples, and its duration is their modular difference in nanoseconds. -/
def Obligations.PolarityAlternatesFromHigh : Prop :=
  ∀ (p : Platform) (samples : List Sample), gapCount p samples = 0 →
    ∀ i : Nat, (edgesOf p samples)[i]? = edgeAt p samples i

/-- R143, R124: `BUILD_EDGES` issued by the block on a completed capture builds the cache from the
capture's samples, reading no stale slot, and changes nothing else. -/
def Obligations.BuildEdgesFillsTheCache : Prop :=
  ∀ s : State, Inv s → BlockIssues s → s.ch.state = .complete → s.ch.edgesValid = false →
    exec .buildEdges s = .next { s with
      ch := { s.ch with edges := edgesOf s.plat (captured s), edgesValid := true }
      result := .unit }

/-- R150, R152, R153: `GET_RAW_EDGE_TIMES` outside a capture: it builds the cache of a completed capture
if it is not built, returns the count, copies the edge samples from the offset on, leaves the rest of
`dst` as it was, and changes nothing else. -/
def Obligations.GetRawEdgeTimesCopiesTheCache : Prop :=
  ∀ (dst : List EdgeSample) (offset : U32) (s : State), Inv s → CanIssue s →
    s.ch.state ≠ .capturing →
    ∃ (count : Nat) (copied : List EdgeSample),
      exec (.getRawEdgeTimes dst offset) s
        = .next { withCache s with result := .copied count copied }
      ∧ count = (if (edgesSeen s).length ≤ offset.toNat then 0
          else min dst.length ((edgesSeen s).length - offset.toNat))
      ∧ copied.length = dst.length
      ∧ (∀ k < count, copied[k]? = (edgesSeen s)[offset.toNat + k]?)
      ∧ ∀ k, count ≤ k → copied[k]? = dst[k]?

/-- R104, R150, R153: `GET_RAW_EDGE_TIMES` in `Capturing` first completes the capture by `WAIT(0)`,
builds the cache from its samples and copies from it, and changes nothing else. -/
def Obligations.GetRawEdgeTimesCompletesACapture : Prop :=
  ∀ (dst : List EdgeSample) (offset : U32) (s : State), Inv s → CanIssue s →
    s.ch.state = .capturing →
    ∃ d t, Completed (zeroWait s).1 (zeroWait s).2 d t
      ∧ let edges := edgesOf s.plat (captured t)
        exec (.getRawEdgeTimes dst offset) s = .next { t with
          ch := { t.ch with edges := edges, edgesValid := true }
          result := .copied (copyCount dst.length edges.length offset.toNat)
            (copyEdges dst edges offset.toNat) }

/-! ### Decode Engine -/

/-- R158, R159, R160: `DECODE_BIT` needs no channel, returns 0 if both durations are within the bit-0
windows, bounds included, else 1 if both are within the bit-1 windows, else Invalid, and changes
nothing; it reads neither `reset_min` nor `gap_tolerance` (R17, R161). -/
def Obligations.DecodeBitClassifiesThePair : Prop :=
  ∀ (h l : U32) (p : TimingProfile) (s : State), s.issuer ≠ .interrupt →
    ∃ v : BitValue, exec (.decodeBit h l p) s = .next { s with result := .bit v }
      ∧ (∀ resetMin gapTolerance : U32,
          exec (.decodeBit h l { p with resetMin, gapTolerance }) s
            = .next { s with result := .bit v })
      ∧ (v = .zero ↔ p.t0hMin.toNat ≤ h.toNat ∧ h.toNat ≤ p.t0hMax.toNat
          ∧ p.t0lMin.toNat ≤ l.toNat ∧ l.toNat ≤ p.t0lMax.toNat)
      ∧ (v = .one ↔ v ≠ .zero ∧ p.t1hMin.toNat ≤ h.toNat ∧ h.toNat ≤ p.t1hMax.toNat
          ∧ p.t1lMin.toNat ≤ l.toNat ∧ l.toNat ≤ p.t1lMax.toNat)

/-- R162, R166, R168, R169: `DECODE_EDGES` of the edge samples of any bit string, with or without one
edge left over, returns its bytes MSB-first, the last group of bits left-aligned, in a buffer that
holds them; the rest of the buffer is as it was. -/
def Obligations.DecodeEdgesReturnsTheBytes : Prop :=
  ∀ (p : TimingProfile) (h0 l0 h1 l1 : U32) (bits : List Bool) (tail : List EdgeSample)
    (out : List Byte) (s : State), s.issuer ≠ .interrupt →
    classify h0 l0 p = .zero → classify h1 l1 p = .one → tail.length ≤ 1 →
    (packMsb bits).length ≤ out.length →
    ∃ t, exec (.decodeEdges p (pairs h0 l0 h1 l1 bits ++ tail) out) s = .next t
      ∧ t = { s with
          eng := t.eng
          result := (.decodedEdges (.ok (packMsb bits).length) bits.length 0
            (packMsb bits ++ out.drop (packMsb bits).length)) }

/-- R162, R167: `DECODE_EDGES` of a bit string whose bytes exceed the buffer stops with
`BufferOverflow` after writing exactly the buffer, having seen the pairs up to the byte that found no
slot. -/
def Obligations.DecodeEdgesStopsAtOverflow : Prop :=
  ∀ (p : TimingProfile) (h0 l0 h1 l1 : U32) (bits : List Bool) (out : List Byte) (s : State),
    s.issuer ≠ .interrupt → classify h0 l0 p = .zero → classify h1 l1 p = .one →
    out.length < (packMsb bits).length →
    ∃ t, exec (.decodeEdges p (pairs h0 l0 h1 l1 bits) out) s = .next t
      ∧ t = { s with
          eng := t.eng
          result := (.decodedEdges (.err .bufferOverflow)
            (min bits.length (8 * (out.length + 1))) 0 ((packMsb bits).take out.length)) }

/-- R163, R164: a LOW edge where a pair should start is discarded alone, and so is a HIGH edge followed
by a HIGH one, after any number of (HIGH, LOW) pairs, valid or not; the result, the counts and the
bytes are those of the sequence without it. -/
def Obligations.PolarityViolationDiscardsOneEdge : Prop :=
  ∀ (p : TimingProfile) (before : List (U32 × U32)) (a : EdgeSample) (rest : List EdgeSample)
    (out : List Byte) (s : State), s.issuer ≠ .interrupt →
    a.high = false ∨ (∃ b more, rest = b :: more ∧ b.high = true) →
    ∃ t u, exec (.decodeEdges p (highLows before ++ a :: rest) out) s = .next t
      ∧ exec (.decodeEdges p (highLows before ++ rest) out) s = .next u
      ∧ t = { u with eng := t.eng }

/-- R54, R162 to R170: `DECODE_EDGES` of any edges always completes, and what it returns is this. The
pairs it classifies are the (HIGH, LOW) pairs of the sequence, up to the one whose bit completes a byte
for which `out` has no slot; `total` is their number and `invalid` the number of the invalid ones; the
bytes of the valid bits are in `out` from its start, as many as it holds, and the rest of `out` is as it
was. Bytes that exceed `out`, the last partial one among them, are `BufferOverflow`; otherwise the
decode fails with `HighErrorRate` exactly when ten times the invalid count exceeds the total. -/
def Obligations.DecodeEdgesAccountsForEveryPair : Prop :=
  ∀ (p : TimingProfile) (edges : List EdgeSample) (out : List Byte) (s : State),
    s.issuer ≠ .interrupt →
    let seen := upToBit (classified p edges) (8 * (out.length + 1))
    let invalid := seen.count .invalid
    let bytes := packMsb (validBits seen)
    ∃ t, exec (.decodeEdges p edges out) s = .next t
      ∧ t = { s with
          eng := t.eng
          result := .decodedEdges
            (if out.length < bytes.length then .err .bufferOverflow
              else if invalid * 10 > seen.length then .err .highErrorRate
              else .ok bytes.length)
            seen.length invalid
            (bytes.take out.length ++ out.drop bytes.length) }

/-- R54: `DECODE_EDGES` writes `out` from its start and no further than the bytes it emitted; the rest
of `out`, and its length, are as they were. -/
def Obligations.DecodeEdgesLeavesTheRestOfOut : Prop :=
  ∀ (p : TimingProfile) (edges : List EdgeSample) (out : List Byte) (s : State),
    s.issuer ≠ .interrupt →
    ∃ t res total invalid after, exec (.decodeEdges p edges out) s = .next t
      ∧ t.result = .decodedEdges res total invalid after
      ∧ after.length = out.length
      ∧ ∀ k, ((validBits (classified p edges)).length + 7) / 8 ≤ k → after[k]? = out[k]?

/-- R150, R171, R113: `DECODE` outside a capture builds the cache of a completed capture if it is not
built, returns what `DECODE_EDGES` returns on the edges (on the empty sequence in `Idle`), stores its
counts, and changes nothing else but the engine's working registers. That `CH.last_stats` holds the low
32 bits of a count beyond `u32` is the model's choice (log 35). -/
def Obligations.DecodeDecodesTheCache : Prop :=
  ∀ (p : TimingProfile) (out : List Byte) (s : State), Inv s → CanIssue s →
    s.ch.state ≠ .capturing →
    ∃ t u res total invalid after,
      exec (.decodeEdges p (edgesSeen s) out) s = .next u
      ∧ u.result = .decodedEdges res total invalid after
      ∧ exec (.decode p out) s = .next t
      ∧ t = { withCache s with
          eng := u.eng
          ch := { (withCache s).ch with lastStats := {
            totalBits := BitVec.ofNat 32 total
            invalidBits := BitVec.ofNat 32 invalid } }
          result := .decoded res after }
      ∧ (s.ch.state = .idle → res = .ok 0 ∧ total = 0 ∧ invalid = 0 ∧ after = out)

/-- R104, R150, R171: `DECODE` in `Capturing` first completes the capture by `WAIT(0)`, builds the cache
from its samples, decodes it and stores the counts, and changes nothing else but the engine's working
registers. That `CH.last_stats` holds the low 32 bits of a count beyond `u32` is the model's choice
(log 35). -/
def Obligations.DecodeCompletesACapture : Prop :=
  ∀ (p : TimingProfile) (out : List Byte) (s : State), Inv s → CanIssue s →
    s.ch.state = .capturing →
    ∃ d t u res total invalid after, Completed (zeroWait s).1 (zeroWait s).2 d t
      ∧ let edges := edgesOf s.plat (captured t)
        exec (.decodeEdges p edges out) s = .next u
        ∧ u.result = .decodedEdges res total invalid after
        ∧ exec (.decode p out) s = .next { t with
          eng := u.eng
          ch := { t.ch with
            edges := edges
            edgesValid := true
            lastStats := {
              totalBits := BitVec.ofNat 32 total
              invalidBits := BitVec.ofNat 32 invalid } }
          result := .decoded res after }

/-- R172: a second `DECODE` with the same profile and buffer answers the very state the first one left,
from every state of the block. -/
def Obligations.DecodeIsIdempotent : Prop :=
  ∀ (p : TimingProfile) (out : List Byte) (s : State), Inv s → CanIssue s →
    ∃ t, exec (.decode p out) s = .next t ∧ exec (.decode p out) t = .next t

/-! ### The whole machine -/

/-- The invariant holds at reset, on every platform. -/
def Obligations.InvariantHoldsAtBoot : Prop :=
  (∀ p : Platform, Inv (State.boot p)) ∧ Inv State.reset

/-- Every step from a state with the invariant answers a next state, and keeps the invariant. -/
def Obligations.StepKeepsTheInvariant : Prop :=
  ∀ s : State, Inv s → ∃ t, step s = .next t ∧ Inv t

/-- R52, R64, R206: from a state with the invariant no step meets a fault: the mark `FAULTED` is never
newly set, so no buffer read is concurrent with the capture and no state without a value is read. -/
def Obligations.NoStepFaults : Prop :=
  ∀ s t : State, Inv s → step s = .next t →
    t.faulted = s.faulted ∧ ∀ f, t.result = .faulted f → s.result = .faulted f

/-- R51: no step clears `REFUSED` or `FAULTED`; no step changes a parameter (R8). The hardware agents'
steps inside an operation (R7) change neither mark, no parameter, and nothing else of the
foreground's. -/
def Obligations.MarksAndParametersPersist : Prop :=
  (∀ s t : State, step s = .next t →
    (s.refused = true → t.refused = true) ∧ (s.faulted = true → t.faulted = true)
    ∧ t.plat = s.plat)
  ∧ ∀ s : State, Advanced s (interleave s)
end

