-- ==== Sys2Proof/Laws/Codec.lean ====
section
/-! SUPPORT. For each operand type of spec/30_encoding.md R76: reading what was written gives it back,
and what was read is what writing it gives. -/

namespace Sys2Proof

theorem getU32_put (v : U32) (r : List Byte) : getU32 (putU32 v ++ r) = some (v, r) := by
  simp only [putU32, List.cons_append, List.nil_append, getU32, BitVec.toNat_ofNat]
  congr 2
  apply BitVec.eq_of_toNat_eq
  have := v.isLt
  simp only [BitVec.toNat_ofNat]
  omega

theorem put_getU32 {bs r : List Byte} {v : U32} (h : getU32 bs = some (v, r)) : bs = putU32 v ++ r
    := by
  match bs, h with
  | b0 :: b1 :: b2 :: b3 :: rest, h =>
    simp only [getU32, Option.some.injEq, Prod.mk.injEq] at h
    obtain ⟨h1, h2⟩ := h
    subst h1 h2
    simp only [putU32, List.cons_append, List.nil_append, BitVec.toNat_ofNat]
    have := b0.isLt; have := b1.isLt; have := b2.isLt; have := b3.isLt
    have e : (b0.toNat + 256 * b1.toNat + 65536 * b2.toNat + 16777216 * b3.toNat) % 2 ^ 32 =
        (b0.toNat + 256 * b1.toNat + 65536 * b2.toNat + 16777216 * b3.toNat) := by omega
    rw [e]
    congr 1
    · apply BitVec.eq_of_toNat_eq; simp only [BitVec.toNat_ofNat]; omega
    congr 1
    · apply BitVec.eq_of_toNat_eq; simp only [BitVec.toNat_ofNat]; omega
    congr 1
    · apply BitVec.eq_of_toNat_eq; simp only [BitVec.toNat_ofNat]; omega
    congr 1
    · apply BitVec.eq_of_toNat_eq; simp only [BitVec.toNat_ofNat]; omega

theorem getU16_put (v : U16) (r : List Byte) : getU16 (putU16 v ++ r) = some (v, r) := by
  simp only [putU16, List.cons_append, List.nil_append, getU16, BitVec.toNat_ofNat]
  congr 2
  apply BitVec.eq_of_toNat_eq
  have := v.isLt
  simp only [BitVec.toNat_ofNat]
  omega

theorem put_getU16 {bs r : List Byte} {v : U16} (h : getU16 bs = some (v, r)) : bs = putU16 v ++ r
    := by
  match bs, h with
  | b0 :: b1 :: rest, h =>
    simp only [getU16, Option.some.injEq, Prod.mk.injEq] at h
    obtain ⟨h1, h2⟩ := h
    subst h1 h2
    simp only [putU16, List.cons_append, List.nil_append, BitVec.toNat_ofNat]
    have := b0.isLt; have := b1.isLt
    congr 1
    · apply BitVec.eq_of_toNat_eq; simp only [BitVec.toNat_ofNat]; omega
    congr 1
    · apply BitVec.eq_of_toNat_eq; simp only [BitVec.toNat_ofNat]; omega

theorem getBool_put (b : Bool) (r) : getBool (putBool b ++ r) = some (b, r) := by cases b <;> rfl

theorem byte_eq {b : Byte} {n : Nat} (hn : n < 256) (h : b.toNat = n) : b = BitVec.ofNat 8 n := by
  apply BitVec.eq_of_toNat_eq; simp; omega

theorem put_getBool {bs r} {b : Bool} (h : getBool bs = some (b, r)) : bs = putBool b ++ r := by
  match bs, h with
  | x :: rest, h =>
    simp only [getBool] at h
    split at h
    · rename_i hx; cases h; rw [byte_eq (by omega) hx]; rfl
    · split at h
      · rename_i hx; cases h; rw [byte_eq (by omega) hx]; rfl
      · cases h

theorem getEdge_put (e : EdgeSample) (r) : getEdge (putEdge e ++ r) = some (e, r) := by
  simp [getEdge, putEdge, List.append_assoc, getBool_put, getU32_put]

theorem put_getEdge {bs r} {e : EdgeSample} (h : getEdge bs = some (e, r)) : bs = putEdge e ++ r
    := by
  simp only [getEdge, Option.bind_eq_bind, Option.bind_eq_some_iff] at h
  obtain ⟨⟨a, b1⟩, h1, ⟨c, b2⟩, h2, h3⟩ := h
  cases h3; dsimp only at *
  rw [put_getBool h1, put_getU32 h2]; simp [putEdge]

theorem getMany_put {α} (get) (put : α → List Byte) (hg : ∀ a r, get (put a ++ r) = some (a, r))
    (as : List α) (r) :
    getMany get as.length (as.flatMap put ++ r) = some (as, r) := by
  induction as with
  | nil => rfl
  | cons a as ih => simp [getMany, List.append_assoc, hg, ih]

theorem put_getMany {α} {get} {put : α → List Byte} (hg : ∀ {bs r a}, get bs = some (a, r) → bs =
    put a ++ r) {n} {as : List α} {bs r}
    (h : getMany get n bs = some (as, r)) : as.length = n ∧ bs = as.flatMap put ++ r := by
  induction n generalizing as bs with
  | zero =>
    simp only [getMany, Option.some.injEq, Prod.mk.injEq] at h
    obtain ⟨h1, h2⟩ := h
    subst h1 h2
    simp
  | succ n ih =>
    simp only [getMany, Option.bind_eq_bind, Option.bind_eq_some_iff] at h
    obtain ⟨⟨a, b1⟩, h1, ⟨c, b2⟩, h2, h3⟩ := h
    cases h3; dsimp only at *
    obtain ⟨i1, i2⟩ := ih h2
    rw [hg h1, i2]; simp [i1]

theorem getList_put {α} (get) (put : α → List Byte) (hg : ∀ a r, get (put a ++ r) = some (a, r))
    (as : List α) (r) (hl : as.length < 2^32):
    getList get (putList put as ++ r) = some (as, r) := by
  simp only [getList, putList, List.append_assoc, getU32_put, Option.bind_eq_bind, Option.bind_some]
  have : (BitVec.ofNat 32 as.length).toNat = as.length := by simp; omega
  rw [this]; exact getMany_put get put hg as r

theorem put_getList {α} {get} {put : α → List Byte} (hg : ∀ {bs r a}, get bs = some (a, r) → bs =
    put a ++ r) {as : List α} {bs r}
    (h : getList get bs = some (as, r)) : fitsU32 as.length = true ∧ bs = putList put as ++ r := by
  simp only [getList, Option.bind_eq_bind, Option.bind_eq_some_iff] at h
  obtain ⟨⟨a, b1⟩, h1, h2⟩ := h
  dsimp only at *
  obtain ⟨i1, i2⟩ := put_getMany hg h2
  have := a.isLt
  refine ⟨by simp [fitsU32]; omega, ?_⟩
  rw [put_getU32 h1, i2, putList, i1]; simp

theorem getU8_put (b : Byte) (r) : getU8 ([b] ++ r) = some (b, r) := rfl

theorem put_getU8 {bs r} {b : Byte} (h : getU8 bs = some (b, r)) : bs = [b] ++ r := by
  match bs, h with
  | x :: rest, h => cases h; rfl

theorem getProfile_put (p : TimingProfile) (r) : getProfile (putProfile p ++ r) = some (p, r) := by
  simp only [getProfile, putProfile, List.append_assoc, getU32_put, Option.bind_eq_bind,
      Option.bind_some]
  rfl

theorem put_getProfile {bs r} {p : TimingProfile} (h : getProfile bs = some (p, r)) : bs =
    putProfile p ++ r := by
  simp only [getProfile, Option.bind_eq_bind, Option.bind_eq_some_iff] at h
  obtain ⟨⟨a0, b0⟩, h0, ⟨a1, b1⟩, h1, ⟨a2, b2⟩, h2, ⟨a3, b3⟩, h3, ⟨a4, b4⟩, h4, ⟨a5, b5⟩, h5, ⟨a6,
      b6⟩, h6, ⟨a7, b7⟩, h7, ⟨a8, b8⟩, h8, ⟨a9, b9⟩, h9, h⟩ := h
  cases h; dsimp only at *
  rw [put_getU32 h0, put_getU32 h1, put_getU32 h2, put_getU32 h3, put_getU32 h4, put_getU32 h5,
      put_getU32 h6, put_getU32 h7, put_getU32 h8, put_getU32 h9]
  simp only [putProfile, List.append_assoc]

theorem getConfig_put (c : RxConfig) (r) : getConfig (putConfig c ++ r) = some (c, r) := by
  simp [getConfig, putConfig, List.append_assoc, getBool_put, getU32_put]

theorem put_getConfig {bs r} {p : RxConfig} (h : getConfig bs = some (p, r)) : bs = putConfig p ++
    r := by
  simp only [getConfig, Option.bind_eq_bind, Option.bind_eq_some_iff] at h
  obtain ⟨⟨a0, b0⟩, h0, ⟨a1, b1⟩, h1, ⟨a2, b2⟩, h2, h⟩ := h
  cases h; dsimp only at *
  rw [put_getU32 h0, put_getU32 h1, put_getBool h2]
  simp only [putConfig, List.append_assoc]

theorem getReason_put (e : EndReason) (r) : getEndReason (putEndReason e ++ r) = some (e, r) := by cases
    e <;> rfl

theorem getStatus_put (e : WaitStatus) (r) : getWaitStatus (putWaitStatus e ++ r) = some (e, r) := by cases
    e <;> rfl

theorem put_getReason {bs r} {b : EndReason} (h : getEndReason bs = some (b, r)) : bs =
    putEndReason b ++ r := by
  match bs, h with
  | x :: rest, h =>
    simp only [getEndReason] at h
    split at h
    · rename_i hx; cases h; rw [byte_eq (by omega) hx]; rfl
    · split at h
      · rename_i hx; cases h; rw [byte_eq (by omega) hx]; rfl
      · split at h
        · rename_i hx; cases h; rw [byte_eq (by omega) hx]; rfl
        · cases h

theorem put_getStatus {bs r} {b : WaitStatus} (h : getWaitStatus bs = some (b, r)) : bs =
    putWaitStatus b ++ r := by
  match bs, h with
  | x :: rest, h =>
    simp only [getWaitStatus] at h
    split at h
    · rename_i hx; cases h; rw [byte_eq (by omega) hx]; rfl
    · split at h
      · rename_i hx; cases h; rw [byte_eq (by omega) hx]; rfl
      · cases h

end Sys2Proof
end

