-- ==== Sys2Proof/Laws/Memory.lean ====
section
/-! SUPPORT. The laws of memory: a read after a write, the canonical form every memory operation keeps,
and the same for slots. -/

namespace Sys2Proof.Machine

/-! ### The canonical form -/

theorem Memory.wf_tail {c : Host.Cell} {m : Memory} (h : Memory.wf (c :: m) = true) :
    Memory.wf m = true := by
  cases m with
  | nil => rfl
  | cons d m => simp [Memory.wf] at h; exact h.2

/-- Every address listed in a memory is at least `a`. -/
def Memory.above (a : Nat) (m : Memory) : Prop := ∀ c ∈ m, a ≤ c.1

theorem Memory.above_of_wf {a : Nat} {v : Byte} {m : Memory} (h : Memory.wf ((a, v) :: m) = true) :
    Memory.above (a + 1) m := by
  induction m generalizing a v with
  | nil => intro c hc; cases hc
  | cons d m ih =>
    obtain ⟨b, w⟩ := d
    simp [Memory.wf] at h
    intro c hc
    rcases List.mem_cons.mp hc with rfl | hc
    · exact h.1.2
    · have := ih h.2 c hc; omega

theorem Memory.read_of_above {a x : Nat} {m : Memory} (h : Memory.above a m) (hx : x < a) :
    Memory.read m x = 0#8 := by
  induction m with
  | nil => rfl
  | cons d m ih =>
    obtain ⟨b, w⟩ := d
    have hb := h (b, w) (List.mem_cons_self)
    have : x ≠ b := by simp at hb; omega
    simp [Memory.read, this]
    exact ih fun c hc => h c (List.mem_cons_of_mem _ hc)

theorem Memory.wf_cons {a : Nat} {v : Byte} {m : Memory} (hv : v ≠ 0#8) (hm : Memory.wf m = true)
    (hf : Memory.above (a + 1) m) : Memory.wf ((a, v) :: m) = true := by
  cases m with
  | nil => simp [Memory.wf, hv]
  | cons d m =>
    obtain ⟨b, w⟩ := d
    have := hf (b, w) List.mem_cons_self
    simp only [Memory.wf, Bool.and_eq_true, decide_eq_true_eq]
    exact ⟨⟨hv, by simpa using this⟩, hm⟩

theorem Memory.head_ne_zero {a : Nat} {v : Byte} {m : Memory}
    (h : Memory.wf ((a, v) :: m) = true) : v ≠ 0#8 := by
  cases m with
  | nil => simpa [Memory.wf] using h
  | cons d m => simp [Memory.wf] at h; exact h.1.1

/-- A write lists no address but the one written and those listed before. -/
theorem Memory.mem_write {m : Memory} {a : Nat} {v : Byte} {c : Host.Cell}
    (h : c ∈ Memory.write m a v) : c.1 = a ∨ c ∈ m := by
  induction m with
  | nil =>
    simp only [Memory.write] at h
    split at h
    · cases h
    · left; simp at h; simp [h]
  | cons d m ih =>
    obtain ⟨b, w⟩ := d
    simp only [Memory.write] at h
    split at h
    · split at h
      · exact .inr h
      · rcases List.mem_cons.mp h with rfl | h
        · exact .inl rfl
        · exact .inr h
    · split at h
      · split at h
        · exact .inr (List.mem_cons_of_mem _ h)
        · rcases List.mem_cons.mp h with rfl | h
          · exact .inl rfl
          · exact .inr (List.mem_cons_of_mem _ h)
      · rcases List.mem_cons.mp h with rfl | h
        · exact .inr List.mem_cons_self
        · rcases ih h with h | h
          · exact .inl h
          · exact .inr (List.mem_cons_of_mem _ h)

/-- A write keeps the canonical form. -/
theorem Memory.wf_write {m : Memory} (a : Nat) (v : Byte) (h : Memory.wf m = true) :
    Memory.wf (Memory.write m a v) = true := by
  induction m with
  | nil =>
    simp only [Memory.write]
    split
    · rfl
    · simp [Memory.wf, *]
  | cons d m ih =>
    obtain ⟨b, w⟩ := d
    have hf := Memory.above_of_wf h
    simp only [Memory.write]
    split
    · split
      · exact h
      · rename_i hab hv
        refine Memory.wf_cons hv h fun c hc => ?_
        rcases List.mem_cons.mp hc with rfl | hc
        · exact hab
        · have := hf c hc; omega
    · split
      · subst_vars
        split
        · exact Memory.wf_tail h
        · rename_i hv
          exact Memory.wf_cons hv (Memory.wf_tail h) hf
      · refine Memory.wf_cons (Memory.head_ne_zero h) (ih (Memory.wf_tail h)) fun c hc => ?_
        rcases Memory.mem_write hc with hc | hc
        · omega
        · exact hf c hc

/-- A read after a write: the byte written at its address, every other byte as before. -/
theorem Memory.read_write {m : Memory} (a b : Nat) (v : Byte) (h : Memory.wf m = true) :
    Memory.read (Memory.write m a v) b = if b = a then v else Memory.read m b := by
  induction m with
  | nil =>
    simp only [Memory.write]
    by_cases hv : v = 0#8
    · simp [hv, Memory.read]
    · simp [hv, Memory.read]
  | cons d m ih =>
    obtain ⟨c, w⟩ := d
    have hf := Memory.above_of_wf h
    have ih := ih (Memory.wf_tail h)
    simp only [Memory.write]
    split
    · rename_i hac
      split
      · by_cases hb : b = a
        · subst hb
          simp [Memory.read, Nat.ne_of_lt hac, Memory.read_of_above hf (by omega : b < c + 1), *]
        · simp [hb]
      · simp [Memory.read]
    · split
      · subst_vars
        split
        · by_cases hb : b = c
          · subst hb
            simp [*, Memory.read_of_above hf (by omega : b < b + 1)]
          · simp [Memory.read, hb]
        · by_cases hb : b = c <;> simp [Memory.read, hb]
      · by_cases hb : b = c
        · subst hb
          simp [Memory.read, Ne.symm ‹¬a = b›]
        · simp only [Memory.read, hb, if_false, ih]

/-! ### Several bytes -/

theorem Memory.wf_writeBytes {m : Memory} (a : Nat) (bs : List Byte) (h : Memory.wf m = true) :
    Memory.wf (Memory.writeBytes m a bs) = true := by
  induction bs generalizing m a with
  | nil => exact h
  | cons b bs ih => exact ih _ (Memory.wf_write a b h)

/-- Bytes written list no address outside their range but those listed before. -/
theorem Memory.mem_writeBytes {m : Memory} {a : Nat} {bs : List Byte} {c : Host.Cell}
    (h : c ∈ Memory.writeBytes m a bs) : (a ≤ c.1 ∧ c.1 < a + bs.length) ∨ c ∈ m := by
  induction bs generalizing m a with
  | nil => exact .inr h
  | cons b bs ih =>
    rcases ih h with h | h
    · left; simp; omega
    · rcases Memory.mem_write h with h | h
      · left; simp; omega
      · exact .inr h

/-- Bytes written leave every byte outside their range as it was. -/
theorem Memory.read_writeBytes_outside {m : Memory} (a x : Nat) (bs : List Byte)
    (h : Memory.wf m = true) (hx : x < a ∨ a + bs.length ≤ x) :
    Memory.read (Memory.writeBytes m a bs) x = Memory.read m x := by
  induction bs generalizing m a with
  | nil => rfl
  | cons b bs ih =>
    simp only [List.length_cons] at hx
    have h1 : x ≠ a := by omega
    rw [Memory.writeBytes, ih _ (Memory.wf_write a b h) (by omega), Memory.read_write _ _ _ h]
    simp [h1]

theorem Memory.readBytes_congr {m n : Memory} (a : Nat) (k : Nat)
    (h : ∀ x, a ≤ x → x < a + k → Memory.read m x = Memory.read n x) :
    Memory.readBytes m a k = Memory.readBytes n a k := by
  induction k generalizing a with
  | zero => rfl
  | succ k ih =>
    simp only [Memory.readBytes]
    rw [h a (le_refl _) (by omega), ih (a + 1) fun x h1 h2 => h x (by omega) (by omega)]

/-- Bytes written are read back. -/
theorem Memory.readBytes_writeBytes {m : Memory} (a : Nat) (bs : List Byte)
    (h : Memory.wf m = true) :
    Memory.readBytes (Memory.writeBytes m a bs) a bs.length = bs := by
  induction bs generalizing m a with
  | nil => rfl
  | cons b bs ih =>
    have hw := Memory.wf_write a b h
    simp only [List.length_cons, Memory.readBytes, Memory.writeBytes]
    rw [ih (a + 1) hw, Memory.read_writeBytes_outside _ _ _ hw (by omega), Memory.read_write _ _ _ h]
    simp

theorem Memory.length_readBytes (m : Memory) (a k : Nat) :
    (Memory.readBytes m a k).length = k := by
  induction k generalizing a with
  | zero => rfl
  | succ k ih => simp [Memory.readBytes, ih]

theorem Memory.readBytes_nil (a k : Nat) : Memory.readBytes [] a k = List.replicate k 0#8 := by
  induction k generalizing a with
  | zero => rfl
  | succ k ih => simp [Memory.readBytes, Memory.read, ih, List.replicate_succ]

/-! ### Slots -/

theorem length_littleBytes (n v : Nat) : (littleBytes n v).length = n := by
  induction n generalizing v with
  | zero => rfl
  | succ n ih => simp [littleBytes, ih]

theorem littleNat_littleBytes (n v : Nat) (h : v < 256 ^ n) : littleNat (littleBytes n v) = v := by
  induction n generalizing v with
  | zero => simp at h; simp [littleBytes, littleNat, h]
  | succ n ih =>
    have : v / 256 < 256 ^ n := by
      rw [Nat.div_lt_iff_lt_mul (by norm_num)]; rw [pow_succ] at h; exact h
    simp only [littleBytes, littleNat, ih _ this, BitVec.toNat_ofNat]
    omega

theorem littleNat_zeros (n : Nat) : littleNat (List.replicate n 0#8) = 0 := by
  induction n with
  | zero => rfl
  | succ n ih => simp [List.replicate_succ, littleNat, ih]

theorem length_sampleToBytes (p : Platform) (v : Sample) :
    (sampleToBytes p v).length = sampleBytes p := by
  unfold sampleToBytes; cases p.byteOrder <;> simp [length_littleBytes]

/-- A slot holds the sample written, in either byte order (R56). -/
theorem bytesToSample_sampleToBytes (p : Platform) (v : Sample)
    (h : v.toNat < 256 ^ sampleBytes p) : bytesToSample p (sampleToBytes p v) = v := by
  unfold bytesToSample sampleToBytes
  cases p.byteOrder <;> simp [littleNat_littleBytes _ _ h]

/-- A W-bit sample fits its slot (R8). -/
theorem sample_fits (p : Platform) (v : Sample) (h : v.toNat < 2 ^ p.counterBits) :
    v.toNat < 256 ^ sampleBytes p := by
  unfold sampleBytes
  split
  · calc v.toNat < 2 ^ p.counterBits := h
      _ ≤ 2 ^ 16 := Nat.pow_le_pow_right (by norm_num) ‹_›
      _ = 256 ^ 2 := by norm_num
  · have := v.isLt; norm_num; omega

/-- With no byte listed every slot reads 0. -/
theorem slotValue_of_mem_nil (s : State) (h : s.mem = []) (i : Nat) : slotValue s i = 0#32 := by
  unfold slotValue bytesToSample
  rw [h, Memory.readBytes_nil]
  cases s.plat.byteOrder <;> simp [littleNat_zeros]

/-- `BufWrite_DMA` keeps the canonical form. -/
theorem bufWriteDma_mem_wf (i : Nat) (v : Sample) (s : State) (h : Memory.wf s.mem = true) :
    Memory.wf (bufWriteDma i v s).mem = true := Memory.wf_writeBytes _ _ h

/-- The slot written reads the sample (R62), every other slot as before. -/
theorem slotValue_bufWriteDma (i j : Nat) (v : Sample) (s : State) (h : Memory.wf s.mem = true)
    (hv : v.toNat < 256 ^ sampleBytes s.plat) :
    slotValue (bufWriteDma i v s) j = if j = i then v else slotValue s j := by
  have hlen := length_sampleToBytes s.plat v
  unfold slotValue bufWriteDma
  by_cases hj : j = i
  · subst hj
    have := Memory.readBytes_writeBytes (slotAddr s.plat j) (sampleToBytes s.plat v) h
    rw [hlen] at this
    simp [this, bytesToSample_sampleToBytes _ _ hv]
  · simp only [hj, if_false]
    congr 1
    apply Memory.readBytes_congr
    intro x h1 h2
    apply Memory.read_writeBytes_outside _ _ _ h
    rw [hlen]
    unfold slotAddr at *
    rcases Nat.lt_or_gt_of_ne hj with hj | hj
    · left
      have : (j + 1) * sampleBytes s.plat ≤ i * sampleBytes s.plat := Nat.mul_le_mul_right _ hj
      rw [Nat.add_mul] at this; omega
    · right
      have : (i + 1) * sampleBytes s.plat ≤ j * sampleBytes s.plat := Nat.mul_le_mul_right _ hj
      rw [Nat.add_mul] at this; omega

end Sys2Proof.Machine
end

