-- ==== Sys2Proof/Laws/State.lean ====
section
/-! SUPPORT. One lemma per field for the three ways an operation ends (`return`, `refuse`, `fault`)
and the small facts of reset. -/

namespace Sys2Proof.Machine

@[simp] theorem State.ret_plat (s : State) (r : OpResult) :
    (s.ret r).plat = s.plat := rfl
@[simp] theorem State.ret_created (s : State) (r : OpResult) :
    (s.ret r).created = s.created := rfl
@[simp] theorem State.ret_ch (s : State) (r : OpResult) :
    (s.ret r).ch = s.ch := rfl
@[simp] theorem State.ret_cap (s : State) (r : OpResult) :
    (s.ret r).cap = s.cap := rfl
@[simp] theorem State.ret_xfer (s : State) (r : OpResult) :
    (s.ret r).xfer = s.xfer := rfl
@[simp] theorem State.ret_irq (s : State) (r : OpResult) :
    (s.ret r).irq = s.irq := rfl
@[simp] theorem State.ret_completion (s : State) (r : OpResult) :
    (s.ret r).completion = s.completion := rfl
@[simp] theorem State.ret_mem (s : State) (r : OpResult) :
    (s.ret r).mem = s.mem := rfl
@[simp] theorem State.ret_vis (s : State) (r : OpResult) :
    (s.ret r).vis = s.vis := rfl
@[simp] theorem State.ret_held (s : State) (r : OpResult) :
    (s.ret r).held = s.held := rfl
@[simp] theorem State.ret_wait (s : State) (r : OpResult) :
    (s.ret r).wait = s.wait := rfl
@[simp] theorem State.ret_eng (s : State) (r : OpResult) :
    (s.ret r).eng = s.eng := rfl
@[simp] theorem State.ret_line (s : State) (r : OpResult) :
    (s.ret r).line = s.line := rfl
@[simp] theorem State.ret_clk (s : State) (r : OpResult) :
    (s.ret r).clk = s.clk := rfl
@[simp] theorem State.ret_env (s : State) (r : OpResult) :
    (s.ret r).env = s.env := rfl
@[simp] theorem State.ret_issuer (s : State) (r : OpResult) :
    (s.ret r).issuer = s.issuer := rfl
@[simp] theorem State.ret_ops (s : State) (r : OpResult) :
    (s.ret r).ops = s.ops := rfl
@[simp] theorem State.ret_sched (s : State) (r : OpResult) :
    (s.ret r).sched = s.sched := rfl
@[simp] theorem State.ret_draws (s : State) (r : OpResult) :
    (s.ret r).draws = s.draws := rfl
@[simp] theorem State.ret_result (s : State) (r : OpResult) :
    (s.ret r).result = r := rfl
@[simp] theorem State.ret_refused (s : State) (r : OpResult) :
    (s.ret r).refused = s.refused := rfl
@[simp] theorem State.ret_faulted (s : State) (r : OpResult) :
    (s.ret r).faulted = s.faulted := rfl

@[simp] theorem State.refuse_plat (s : State) (r : Refusal) :
    (s.refuse r).plat = s.plat := rfl
@[simp] theorem State.refuse_created (s : State) (r : Refusal) :
    (s.refuse r).created = s.created := rfl
@[simp] theorem State.refuse_ch (s : State) (r : Refusal) :
    (s.refuse r).ch = s.ch := rfl
@[simp] theorem State.refuse_cap (s : State) (r : Refusal) :
    (s.refuse r).cap = s.cap := rfl
@[simp] theorem State.refuse_xfer (s : State) (r : Refusal) :
    (s.refuse r).xfer = s.xfer := rfl
@[simp] theorem State.refuse_irq (s : State) (r : Refusal) :
    (s.refuse r).irq = s.irq := rfl
@[simp] theorem State.refuse_completion (s : State) (r : Refusal) :
    (s.refuse r).completion = s.completion := rfl
@[simp] theorem State.refuse_mem (s : State) (r : Refusal) :
    (s.refuse r).mem = s.mem := rfl
@[simp] theorem State.refuse_vis (s : State) (r : Refusal) :
    (s.refuse r).vis = s.vis := rfl
@[simp] theorem State.refuse_held (s : State) (r : Refusal) :
    (s.refuse r).held = s.held := rfl
@[simp] theorem State.refuse_wait (s : State) (r : Refusal) :
    (s.refuse r).wait = s.wait := rfl
@[simp] theorem State.refuse_eng (s : State) (r : Refusal) :
    (s.refuse r).eng = s.eng := rfl
@[simp] theorem State.refuse_line (s : State) (r : Refusal) :
    (s.refuse r).line = s.line := rfl
@[simp] theorem State.refuse_clk (s : State) (r : Refusal) :
    (s.refuse r).clk = s.clk := rfl
@[simp] theorem State.refuse_env (s : State) (r : Refusal) :
    (s.refuse r).env = s.env := rfl
@[simp] theorem State.refuse_issuer (s : State) (r : Refusal) :
    (s.refuse r).issuer = s.issuer := rfl
@[simp] theorem State.refuse_ops (s : State) (r : Refusal) :
    (s.refuse r).ops = s.ops := rfl
@[simp] theorem State.refuse_sched (s : State) (r : Refusal) :
    (s.refuse r).sched = s.sched := rfl
@[simp] theorem State.refuse_draws (s : State) (r : Refusal) :
    (s.refuse r).draws = s.draws := rfl
@[simp] theorem State.refuse_result (s : State) (r : Refusal) :
    (s.refuse r).result = .refused r := rfl
@[simp] theorem State.refuse_refused (s : State) (r : Refusal) :
    (s.refuse r).refused = true := rfl
@[simp] theorem State.refuse_faulted (s : State) (r : Refusal) :
    (s.refuse r).faulted = s.faulted := rfl

@[simp] theorem State.fail_plat (s : State) (f : Fault) :
    (s.fail f).plat = s.plat := rfl
@[simp] theorem State.fail_created (s : State) (f : Fault) :
    (s.fail f).created = s.created := rfl
@[simp] theorem State.fail_ch (s : State) (f : Fault) :
    (s.fail f).ch = s.ch := rfl
@[simp] theorem State.fail_cap (s : State) (f : Fault) :
    (s.fail f).cap = s.cap := rfl
@[simp] theorem State.fail_xfer (s : State) (f : Fault) :
    (s.fail f).xfer = s.xfer := rfl
@[simp] theorem State.fail_irq (s : State) (f : Fault) :
    (s.fail f).irq = s.irq := rfl
@[simp] theorem State.fail_completion (s : State) (f : Fault) :
    (s.fail f).completion = s.completion := rfl
@[simp] theorem State.fail_mem (s : State) (f : Fault) :
    (s.fail f).mem = s.mem := rfl
@[simp] theorem State.fail_vis (s : State) (f : Fault) :
    (s.fail f).vis = s.vis := rfl
@[simp] theorem State.fail_held (s : State) (f : Fault) :
    (s.fail f).held = s.held := rfl
@[simp] theorem State.fail_wait (s : State) (f : Fault) :
    (s.fail f).wait = s.wait := rfl
@[simp] theorem State.fail_eng (s : State) (f : Fault) :
    (s.fail f).eng = s.eng := rfl
@[simp] theorem State.fail_line (s : State) (f : Fault) :
    (s.fail f).line = s.line := rfl
@[simp] theorem State.fail_clk (s : State) (f : Fault) :
    (s.fail f).clk = s.clk := rfl
@[simp] theorem State.fail_env (s : State) (f : Fault) :
    (s.fail f).env = s.env := rfl
@[simp] theorem State.fail_issuer (s : State) (f : Fault) :
    (s.fail f).issuer = s.issuer := rfl
@[simp] theorem State.fail_ops (s : State) (f : Fault) :
    (s.fail f).ops = s.ops := rfl
@[simp] theorem State.fail_sched (s : State) (f : Fault) :
    (s.fail f).sched = s.sched := rfl
@[simp] theorem State.fail_draws (s : State) (f : Fault) :
    (s.fail f).draws = s.draws := rfl
@[simp] theorem State.fail_result (s : State) (f : Fault) :
    (s.fail f).result = .faulted f := rfl
@[simp] theorem State.fail_refused (s : State) (f : Fault) :
    (s.fail f).refused = s.refused := rfl
@[simp] theorem State.fail_faulted (s : State) (f : Fault) :
    (s.fail f).faulted = true := rfl

/-! ### The state after reset -/

@[simp] theorem State.reset_created : State.reset.created = false := rfl
@[simp] theorem State.reset_mem_wf : Memory.wf State.reset.mem = true := rfl
@[simp] theorem State.boot_plat (p : Platform) : (State.boot p).plat = p := rfl
@[simp] theorem State.boot_ch (p : Platform) : (State.boot p).ch = Channel.reset 0 := rfl
@[simp] theorem State.boot_mem (p : Platform) : (State.boot p).mem = [] := rfl

/-- Two states are equal if their fields are. -/
theorem State.eq_of_fields {s t : State}
    (h_plat : s.plat = t.plat)
    (h_created : s.created = t.created)
    (h_ch : s.ch = t.ch)
    (h_cap : s.cap = t.cap)
    (h_xfer : s.xfer = t.xfer)
    (h_irq : s.irq = t.irq)
    (h_completion : s.completion = t.completion)
    (h_mem : s.mem = t.mem)
    (h_vis : s.vis = t.vis)
    (h_held : s.held = t.held)
    (h_wait : s.wait = t.wait)
    (h_eng : s.eng = t.eng)
    (h_line : s.line = t.line)
    (h_clk : s.clk = t.clk)
    (h_env : s.env = t.env)
    (h_issuer : s.issuer = t.issuer)
    (h_ops : s.ops = t.ops)
    (h_sched : s.sched = t.sched)
    (h_draws : s.draws = t.draws)
    (h_result : s.result = t.result)
    (h_refused : s.refused = t.refused)
    (h_faulted : s.faulted = t.faulted) : s = t := by
  cases s; cases t; simp_all

end Sys2Proof.Machine
end

