-- ==== Sys2Proof/Laws/Ops.lean ====
section
/-! SUPPORT. What each shared operation can do, said once: the transfer step, the drain, the interrupt
steps, `DISARM`, `SYNC_READS`, `COMPLETE_CAPTURE`, the clock, the poll, the slot reads, the Edge
Builder and the Decode Engine. -/

namespace Sys2Proof.Machine

/-! ### Operands -/

theorem truncW_lt (w v : Nat) : (truncW w v).toNat < 2 ^ w := by
  have h : v % 2 ^ w < 2 ^ w := Nat.mod_lt _ (by positivity)
  have := Nat.mod_le (v % 2 ^ w) (2 ^ 32)
  simp only [truncW, BitVec.toNat_ofNat]
  omega

theorem latchPending_length (o : Overrun) (v : Sample) (l : List Sample) :
    (latchPending o v l).length ≤ 2 := by
  cases l <;> cases o <;> simp [latchPending]

theorem mem_latchPending {o : Overrun} {v x : Sample} {l : List Sample}
    (h : x ∈ latchPending o v l) : x = v := by
  cases l <;> cases o <;> simpa [latchPending] using h

theorem latchPending_ne_nil (o : Overrun) (v : Sample) (l : List Sample) :
    latchPending o v l ≠ [] := by
  cases l <;> cases o <;> simp [latchPending]

theorem length_freshen (f n : Nat) (l : List Visibility) : (freshen f n l).length = l.length := by
  induction l generalizing f n with
  | nil => cases f <;> cases n <;> rfl
  | cons v l ih => cases f <;> cases n <;> simp [freshen, ih]

/-- The range becomes Fresh, every other slot keeps its value (R123). -/
theorem getElem?_freshen (f n i : Nat) (l : List Visibility) :
    (freshen f n l)[i]? = if f ≤ i ∧ i < f + n ∧ i < l.length then some .fresh else l[i]? := by
  induction l generalizing f n i with
  | nil => cases f <;> cases n <;> simp [freshen]
  | cons v l ih =>
    cases n with
    | zero =>
      have h : ¬(f ≤ i ∧ i < f + 0 ∧ i < (v :: l).length) := by omega
      rw [if_neg h]
      cases f <;> rfl
    | succ n =>
      cases f with
      | zero =>
        cases i with
        | zero => simp [freshen]
        | succ i =>
          simp only [freshen, List.getElem?_cons_succ, ih, List.length_cons]
          congr 1
          simp only [eq_iff_iff]
          omega
      | succ f =>
        cases i with
        | zero => simp [freshen]
        | succ i =>
          simp only [freshen, List.getElem?_cons_succ, ih, List.length_cons]
          congr 1
          simp only [eq_iff_iff]
          omega

/-! ### The transfer step and the drain -/

/-- What a transfer step leaves as it was: all but memory, visibility, the engine's progress, its
pending samples and enable, and the pending interrupt. -/
structure TransferFrame (s t : State) : Prop where
  rest : t = { s with
    mem := t.mem
    vis := t.vis
    xfer := { t.xfer with length := s.xfer.length, attached := s.xfer.attached }
    irq := { t.irq with enabled := s.irq.enabled, isrRunning := s.irq.isrRunning } }

theorem TransferFrame.refl (s : State) : TransferFrame s s := ⟨rfl⟩

theorem TransferFrame.trans {s t u : State} (h : TransferFrame s t) (k : TransferFrame t u) :
    TransferFrame s u := by
  refine ⟨?_⟩
  have h := h.rest
  have k := k.rest
  rw [h] at k
  exact k

/-- A transfer step that is not enabled changes nothing (R126). -/
theorem xferStep_of_not_enabled (s : State) (h : transferEnabled s = false) : xferStep s = s := by
  unfold transferEnabled at h
  unfold xferStep
  split
  · simp_all
  · rfl

/-- An enabled transfer step (R126, R128). -/
theorem xferStep_enabled (s : State) (v : Sample) (rest : List Sample)
    (he : s.xfer.enabled = true) (hp : s.xfer.pending = v :: rest) :
    xferStep s =
      let t : State := { bufWriteDma s.xfer.progress v s with
        xfer := { s.xfer with pending := rest, progress := s.xfer.progress + 1 } }
      if s.xfer.progress + 1 = s.xfer.length then bufferFull t else t := by
  unfold xferStep
  rw [he, hp]
  simp [bufWriteDma, he]

theorem xferStep_frame (s : State) : TransferFrame s (xferStep s) := by
  cases he : s.xfer.enabled with
  | false => rw [xferStep_of_not_enabled s (by simp [transferEnabled, he])]; exact .refl s
  | true =>
    cases hp : s.xfer.pending with
    | nil => rw [xferStep_of_not_enabled s (by simp [transferEnabled, hp])]; exact .refl s
    | cons v rest =>
      rw [xferStep_enabled s v rest he hp]
      dsimp only
      split <;> exact ⟨rfl⟩

theorem xferSteps_frame (n : Nat) (s : State) : TransferFrame s (xferSteps n s) := by
  induction n generalizing s with
  | zero => exact .refl s
  | succ n ih => exact (xferStep_frame s).trans (ih _)

theorem drain_frame (s : State) : TransferFrame s (drain s) := xferSteps_frame _ s

theorem xferSteps_of_not_enabled (n : Nat) (s : State) (h : s.xfer.enabled = false) :
    xferSteps n s = s := by
  induction n with
  | zero => rfl
  | succ n ih => rw [xferSteps, xferStep_of_not_enabled s (by simp [transferEnabled, h]), ih]

/-- A property every transfer step keeps is kept by any number of them. -/
theorem xferSteps_induct {P : State → Prop} (h : ∀ s, P s → P (xferStep s)) (n : Nat) (s : State)
    (hs : P s) : P (xferSteps n s) := by
  induction n generalizing s with
  | zero => exact hs
  | succ n ih => exact ih _ (h s hs)

/-- After enough transfer steps the engine is disabled or nothing is pending. -/
theorem xferSteps_done (n : Nat) (s : State) (h : s.xfer.pending.length ≤ n) :
    (xferSteps n s).xfer.enabled = false ∨ (xferSteps n s).xfer.pending = [] := by
  induction n generalizing s with
  | zero => right; simpa [xferSteps] using h
  | succ n ih =>
    cases he : s.xfer.enabled with
    | false => left; rw [xferSteps_of_not_enabled _ _ he, he]
    | true =>
      cases hp : s.xfer.pending with
      | nil =>
        rw [xferSteps, xferStep_of_not_enabled s (by simp [transferEnabled, hp])]
        exact ih s (by simp [hp])
      | cons v rest =>
        apply ih
        rw [xferStep_enabled s v rest he hp]
        rw [hp] at h
        simp only [List.length_cons] at h
        dsimp only
        split
        · simp [bufferFull]
        · simp; omega

/-- The drain ends with the engine disabled or nothing pending (R121). -/
theorem drain_done (s : State) :
    (drain s).xfer.enabled = false ∨ (drain s).xfer.pending = [] :=
  xferSteps_done _ s (le_refl _)

/-! ### The interrupt steps -/

/-- What the interrupt steps leave as it was: all but the signal and the interrupt line; the line's
enable stays (R181 "It writes nothing else"). -/
structure InterruptFrame (s t : State) : Prop where
  rest : t = { s with
    completion := t.completion
    irq := { t.irq with enabled := s.irq.enabled } }

theorem InterruptFrame.refl (s : State) : InterruptFrame s s := ⟨rfl⟩

theorem InterruptFrame.trans {s t u : State} (h : InterruptFrame s t) (k : InterruptFrame t u) :
    InterruptFrame s u := by
  refine ⟨?_⟩
  have h := h.rest
  have k := k.rest
  rw [h] at k
  exact k

theorem isrEntry_frame (s : State) : InterruptFrame s (isrEntry s) := by
  unfold isrEntry; split <;> exact ⟨rfl⟩

theorem isrReturn_frame (s : State) : InterruptFrame s (isrReturn s) := by
  unfold isrReturn atomicStoreRelease; split <;> exact ⟨rfl⟩

theorem isrStep_frame (s : State) : InterruptFrame s (isrStep s) := by
  unfold isrStep
  split
  · exact (isrEntry_frame s).trans (isrReturn_frame _)
  · exact .refl s

/-- The whole ISR step where it is enabled (R181). -/
theorem isrStep_enabled (s : State) (h : isrEnabled s = true) :
    isrStep s = { s with
      completion := true
      irq := { s.irq with pending := false, isrRunning := false } } := by
  simp [isrStep, isrEntry, isrReturn, atomicStoreRelease, h]

theorem isrStep_not_enabled (s : State) (h : isrEnabled s = false) : isrStep s = s := by
  simp [isrStep, h]

/-! ### The hardware agents' steps -/

/-- What the hardware agents' steps leave as it was: all but the capture unit's time and last latch,
memory and visibility, the engine's progress, pending samples and enable, the interrupt line but its
enable, the signal and the line's level. -/
structure HardwareFrame (s t : State) : Prop where
  rest : t = { s with
    cap := { s.cap with
      elapsed := t.cap.elapsed
      captureReg := t.cap.captureReg
      lastK := t.cap.lastK
      latchAt := t.cap.latchAt }
    mem := t.mem
    vis := t.vis
    xfer := { t.xfer with length := s.xfer.length, attached := s.xfer.attached }
    irq := { t.irq with enabled := s.irq.enabled }
    completion := t.completion
    line := t.line }

theorem HardwareFrame.refl (s : State) : HardwareFrame s s := ⟨rfl⟩

theorem HardwareFrame.trans {s t u : State} (h : HardwareFrame s t) (k : HardwareFrame t u) :
    HardwareFrame s u := by
  refine ⟨?_⟩
  have h := h.rest
  have k := k.rest
  rw [h] at k
  exact k

theorem TransferFrame.hardware {s t : State} (h : TransferFrame s t) : HardwareFrame s t := by
  refine ⟨?_⟩
  have h := h.rest
  rw [h]

theorem InterruptFrame.hardware {s t : State} (h : InterruptFrame s t) : HardwareFrame s t := by
  refine ⟨?_⟩
  have h := h.rest
  rw [h]

theorem serveDue_frame (s : State) : TransferFrame s (serveDue s) := by
  unfold serveDue
  split
  · exact drain_frame s
  · exact .refl s

theorem hwStep_frame (h : HwStep) (s : State) : HardwareFrame s (hwStep h s) := by
  cases h with
  | edge late overrun =>
    have h1 : HardwareFrame s { s with line := !s.line } := ⟨rfl⟩
    have h2 := h1.trans (serveDue_frame { s with line := !s.line }).hardware
    simp only [hwStep, edgeStep]
    split
    · exact h2.trans ⟨rfl⟩
    · exact h2
  | transfer => exact (xferStep_frame s).hardware
  | isr => exact (isrStep_frame s).hardware
  | isrEntry => exact (isrEntry_frame s).hardware
  | isrReturn => exact (isrReturn_frame s).hardware
  | elapse units =>
    simp only [hwStep, elapseStep]
    split
    · exact HardwareFrame.trans (t := { s with cap := { s.cap with elapsed := s.cap.elapsed + units } })
        ⟨rfl⟩ (serveDue_frame _).hardware
    · exact .refl s

/-- A property every hardware step keeps is kept by any number of them. -/
theorem hwSteps_induct {P : State → Prop} (h : ∀ k s, P s → P (hwStep k s)) (ks : List HwStep)
    (s : State) (hs : P s) : P (hwSteps ks s) := by
  induction ks generalizing s with
  | nil => exact hs
  | cons k ks ih => exact ih _ (h k s hs)

/-- A point inside an operation is steps of the hardware agents with the environment's next list used
up. -/
theorem interleave_eq (s : State) : interleave s =
    hwSteps (s.env.during.head?.getD [])
      { s with env := { s.env with during := s.env.during.tail } } := by
  unfold interleave
  split
  · rename_i h
    simp only [h, List.head?_nil, Option.getD_none, List.tail_nil, hwSteps]
    rw [← h]
  · rename_i h
    rw [h]
    rfl

theorem interleave_nil (s : State) (h : s.env.during = []) : interleave s = s := by
  simp [interleave, h]

theorem interleave_frame (s : State) :
    HardwareFrame { s with env := { s.env with during := s.env.during.tail } } (interleave s) := by
  rw [interleave_eq]
  exact hwSteps_induct (P := fun t => HardwareFrame _ t) (fun k t h => h.trans (hwStep_frame k t)) _ _
    (.refl _)

/-- A property every hardware step keeps, and that does not rest on the environment's lists, holds
after a point inside an operation. -/
theorem interleave_induct {P : State → Prop} (h : ∀ k s, P s → P (hwStep k s)) (s : State)
    (hs : P { s with env := { s.env with during := s.env.during.tail } }) : P (interleave s) := by
  rw [interleave_eq]
  exact hwSteps_induct h _ _ hs

/-! ### The hardware agents where nothing is latched or transferred -/

/-- What the hardware agents' steps do where no edge is latched and no sample transferred: the line's
level changes, time passes, and an interrupt that is pending and enabled can run. -/
structure StillFrame (s t : State) : Prop where
  rest : t = { s with
    cap := { s.cap with elapsed := t.cap.elapsed }
    irq := { t.irq with enabled := s.irq.enabled }
    completion := t.completion
    line := t.line }
  time : s.cap.elapsed ≤ t.cap.elapsed
  pending : t.irq.pending = true → s.irq.pending = true
  signal : s.completion = true → t.completion = true
  finished : s.irq.isrRunning = true → t.irq.isrRunning = true ∨ t.completion = true
  cause : t.completion = true ∨ t.irq.isrRunning = true →
    s.completion = true ∨ s.irq.isrRunning = true ∨ s.irq.pending = true ∧ s.irq.enabled = true

theorem StillFrame.refl (s : State) : StillFrame s s :=
  ⟨rfl, le_refl _, id, id, .inl, fun h => h.elim .inl (.inr ∘ .inl)⟩

theorem StillFrame.trans {s t u : State} (h : StillFrame s t) (k : StillFrame t u) :
    StillFrame s u := by
  have he : t.irq.enabled = s.irq.enabled := by rw [h.rest]
  refine ⟨?_, h.time.trans k.time, h.pending ∘ k.pending, k.signal ∘ h.signal, fun a => ?_,
    fun a => ?_⟩
  · have h1 := h.rest
    have k1 := k.rest
    rw [h1] at k1
    exact k1
  · rcases h.finished a with b | b
    · exact k.finished b
    · exact .inr (k.signal b)
  · rcases k.cause a with b | b | b
    · exact h.cause (.inl b)
    · exact h.cause (.inr b)
    · exact .inr (.inr ⟨h.pending b.1, he ▸ b.2⟩)

theorem serveDue_of_not_enabled (s : State) (h : transferEnabled s = false) : serveDue s = s := by
  simp [serveDue, serviceDue, h]

theorem isrEntry_still (s : State) : StillFrame s (isrEntry s) := by
  unfold isrEntry
  split
  · rename_i h
    simp only [isrEnabled, Bool.and_eq_true, Bool.not_eq_true'] at h
    exact ⟨rfl, le_refl _, by simp, id, fun _ => .inl rfl, fun _ => .inr (.inr h.1)⟩
  · exact .refl s

theorem isrReturn_still (s : State) : StillFrame s (isrReturn s) := by
  unfold isrReturn atomicStoreRelease
  split
  · rename_i h
    exact ⟨rfl, le_refl _, id, fun _ => rfl, fun _ => .inr rfl, fun _ => .inr (.inl h)⟩
  · exact .refl s

theorem isrStep_still (s : State) : StillFrame s (isrStep s) := by
  unfold isrStep
  split
  · exact (isrEntry_still s).trans (isrReturn_still _)
  · exact .refl s

theorem hwStep_still (h : HwStep) (s : State) (ha : s.cap.armed = false)
    (ht : transferEnabled s = false) : StillFrame s (hwStep h s) := by
  cases h with
  | edge late overrun =>
    simp only [hwStep, edgeStep]
    rw [serveDue_of_not_enabled _ (by exact ht), if_neg (by simp [capEdgeEnabled, ha])]
    exact ⟨rfl, le_refl _, id, id, .inl, fun h => h.elim .inl (.inr ∘ .inl)⟩
  | transfer => simp only [hwStep]; rw [xferStep_of_not_enabled s ht]; exact .refl s
  | isr => exact isrStep_still s
  | isrEntry => exact isrEntry_still s
  | isrReturn => exact isrReturn_still s
  | elapse units =>
    simp only [hwStep, elapseStep]
    split
    · rw [serveDue_of_not_enabled _ (by exact ht)]
      exact ⟨rfl, Nat.le_add_right _ _, id, id, .inl, fun h => h.elim .inl (.inr ∘ .inl)⟩
    · exact .refl s

theorem interleave_still (s : State) (ha : s.cap.armed = false) (ht : transferEnabled s = false) :
    StillFrame { s with env := { s.env with during := s.env.during.tail } } (interleave s) := by
  refine (interleave_induct (P := fun t => StillFrame _ t ∧ t.cap.armed = false
    ∧ transferEnabled t = false) (fun k t h => ?_) s ⟨.refl _, ha, ht⟩).1
  have := hwStep_still k t h.2.1 h.2.2
  refine ⟨h.1.trans this, ?_, ?_⟩
  · rw [this.rest]; exact h.2.1
  · rw [this.rest]; exact h.2.2

/-! ### `DISARM` -/

/-- What `DISARM` leaves as it was: all but `CAP.armed` and what the hardware agents write, the enables
of the engine and the interrupt, and the lists the environment has used up. -/
structure DisarmFrame (s t : State) : Prop where
  rest : t = { s with
    cap := { s.cap with
      elapsed := t.cap.elapsed
      captureReg := t.cap.captureReg
      armed := t.cap.armed
      lastK := t.cap.lastK
      latchAt := t.cap.latchAt }
    mem := t.mem
    vis := t.vis
    xfer := { t.xfer with length := s.xfer.length, attached := s.xfer.attached }
    irq := t.irq
    completion := t.completion
    line := t.line
    env := { s.env with during := t.env.during } }

theorem DisarmFrame.trans {s t u : State} (h : DisarmFrame s t) (k : DisarmFrame t u) :
    DisarmFrame s u := by
  refine ⟨?_⟩
  have h := h.rest
  have k := k.rest
  rw [h] at k
  exact k

theorem HardwareFrame.disarm {s t : State} (h : HardwareFrame s t) : DisarmFrame s t := by
  refine ⟨?_⟩
  have h := h.rest
  rw [h]

theorem interleave_disarmFrame (s : State) : DisarmFrame s (interleave s) :=
  DisarmFrame.trans (t := { s with env := { s.env with during := s.env.during.tail } }) ⟨rfl⟩
    (interleave_frame s).disarm

theorem disarmLines_frame (s : State) : DisarmFrame s (disarmLines s) := by
  unfold disarmLines
  have h1 : DisarmFrame s (drain { s with cap := { s.cap with armed := false } }) :=
    DisarmFrame.trans (t := { s with cap := { s.cap with armed := false } }) ⟨rfl⟩
      (drain_frame _).hardware.disarm
  have h2 := h1.trans (interleave_disarmFrame _)
  exact (h2.trans ⟨rfl⟩).trans (isrReturn_frame _).hardware.disarm

theorem disarm_frame (s : State) : DisarmFrame s (disarm s) := by
  unfold disarm
  split
  · exact ⟨rfl⟩
  · exact (interleave_disarmFrame s).trans (disarmLines_frame _)

/-- `DISARM` leaves the backend quiet if every pending sample has an engine to move it (R121). -/
theorem disarm_fields (s : State) (hb : s.plat.backend = .hardware) :
    (disarm s).cap.armed = false ∧ (disarm s).xfer.enabled = false
      ∧ (disarm s).irq.enabled = false ∧ (disarm s).irq.pending = false
      ∧ (disarm s).irq.isrRunning = false := by
  have key : ∀ b : State, b.cap.armed = false →
      let c := isrReturn { b with
        xfer := { b.xfer with enabled := false }
        irq := { b.irq with enabled := false, pending := false } }
      c.cap.armed = false ∧ c.xfer.enabled = false
      ∧ c.irq.enabled = false ∧ c.irq.pending = false ∧ c.irq.isrRunning = false := by
    intro b h1
    cases h : b.irq.isrRunning <;> simp [isrReturn, atomicStoreRelease, h, h1]
  unfold disarm
  rw [hb]
  apply key
  rw [(interleave_frame _).rest, (drain_frame _).rest]

/-! ### `SYNC_READS` and `COMPLETE_CAPTURE` -/

/-- `SYNC_READS` in range changes visibility alone, makes the range Fresh and keeps the other slots
(R123). -/
theorem syncReads_ok (first count : Nat) (s : State) (h : first + count ≤ s.ch.capacity)
    (hv : s.vis.length = s.ch.capacity) :
    ∃ w, syncReads first count s = .ok { s with vis := w } ∧ w.length = s.vis.length
      ∧ ∀ i, slotVisibility { s with vis := w } i =
          if first ≤ i ∧ i < first + count then .fresh else slotVisibility s i := by
  unfold syncReads
  by_cases h0 : count = 0
  · refine ⟨s.vis, by simp [h0], rfl, fun i => ?_⟩
    rw [if_neg (by omega)]
  · rw [if_neg h0, if_neg (by omega)]
    cases hc : s.plat.cacheCoherent with
    | true =>
      refine ⟨s.vis, by simp, rfl, fun i => ?_⟩
      simp [slotVisibility, hc]
    | false =>
      refine ⟨freshen first count s.vis, by simp, length_freshen _ _ _, fun i => ?_⟩
      simp only [slotVisibility, hc, Bool.false_eq_true, if_false, List.getD_eq_getElem?_getD,
        getElem?_freshen]
      by_cases hi : first ≤ i ∧ i < first + count
      · rw [if_pos hi, if_pos ⟨hi.1, hi.2, by omega⟩]; rfl
      · rw [if_neg hi, if_neg (by omega)]

/-! ### The clock -/

/-- The clock does not run back and does not wrap (R46). -/
theorem clockAfter_le (now : U64) (us : Nat) : now.toNat ≤ (clockAfter now us).toNat := by
  simp only [clockAfter, BitVec.toNat_ofNat]
  have := now.isLt
  omega

theorem nowUs_frame (s : State) : (nowUs s).2 = { s with clk := (nowUs s).2.clk } := by
  unfold nowUs; split <;> rfl

/-- Successive readings never decrease (R46). -/
theorem nowUs_le (s : State) : s.clk.now.toNat ≤ (nowUs s).1.toNat := by
  unfold nowUs
  split
  · exact le_refl _
  · exact clockAfter_le _ _

theorem nowUs_now (s : State) : (nowUs s).2.clk.now = (nowUs s).1 := by
  unfold nowUs; split <;> rfl

/-! ### The slot reads and the Edge Builder -/

/-- A foreground read outside `Capturing` of a Fresh slot of `BUF` returns its contents and changes
nothing (R63). -/
theorem bufReadFg_fresh (i : Nat) (s : State) (hb : s.ch.bufAllocated = true)
    (hi : i < s.ch.capacity) (hs : s.ch.state ≠ .capturing) (hv : slotVisibility s i = .fresh) :
    bufReadFg i s = .ok (slotValue s i, s) := by
  have : ¬ s.ch.capacity ≤ i := by omega
  simp [bufReadFg, hb, this, hs, hv]

/-- The reads of Fresh slots of `BUF` return their contents and change nothing. -/
theorem readSlots_fresh (n first : Nat) (s : State) (hb : s.ch.bufAllocated = true)
    (hi : first + n ≤ s.ch.capacity) (hs : s.ch.state ≠ .capturing)
    (hv : ∀ i, first ≤ i → i < first + n → slotVisibility s i = .fresh) :
    readSlots n first s = .ok ((List.range' first n).map (slotValue s), s) := by
  induction n generalizing first with
  | zero => rfl
  | succ n ih =>
    have hr := ih (first + 1) (by omega) fun i h1 h2 => hv i (by omega) (by omega)
    rw [readSlots, bufReadFg_fresh first s hb (by omega) hs (hv first (le_refl _) (by omega))]
    simp [hr, List.range'_succ]

/-- `BUILD_EDGES` on a completed capture whose slots are Fresh (R143, R124). -/
theorem buildEdges_fresh (s : State) (hb : s.ch.bufAllocated = true)
    (hn : s.ch.nSamples ≤ s.ch.capacity) (hs : s.ch.state ≠ .capturing)
    (hv : ∀ i < s.ch.nSamples, slotVisibility s i = .fresh) :
    buildEdges s = .ok { s with ch := { s.ch with
      edges := edgesOf s.plat ((List.range' 0 s.ch.nSamples).map (slotValue s))
      edgesValid := true } } := by
  unfold buildEdges
  split
  · rename_i h
    interval_cases hk : s.ch.nSamples <;> simp [edgesOf, edgesFrom, List.range']
  · rw [readSlots_fresh _ _ s hb (by omega) hs fun i _ h => hv i (by omega)]

/-- A gap is dropped and the polarity starts again at HIGH (R148). -/
theorem edgesFrom_gap (p : Platform) (a b : Sample) (h : Bool) (l : List Sample)
    (hg : toNs p.clockHz (modularDelta p.counterBits a b) > 5000) :
    edgesFrom p a h (b :: l) = edgesFrom p b true l := if_pos hg

/-- An interval that is no gap gives one edge sample, and the polarity alternates (R147). -/
theorem edgesFrom_edge (p : Platform) (a b : Sample) (h : Bool) (l : List Sample)
    (hg : ¬ toNs p.clockHz (modularDelta p.counterBits a b) > 5000) :
    edgesFrom p a h (b :: l) =
      { high := h
        durationNs := BitVec.ofNat 32 (toNs p.clockHz (modularDelta p.counterBits a b)) }
        :: edgesFrom p b (!h) l := if_neg hg

theorem length_edgesFrom (p : Platform) (prev : Sample) (h : Bool) (l : List Sample) :
    (edgesFrom p prev h l).length ≤ l.length := by
  induction l generalizing prev h with
  | nil => simp [edgesFrom]
  | cons cur rest ih =>
    simp only [edgesFrom]
    split
    · exact (ih _ _).trans (by simp)
    · simp [ih]

/-- At most one edge sample for each sample but the first (R143, R149). -/
theorem length_edgesOf (p : Platform) (l : List Sample) :
    (edgesOf p l).length ≤ l.length - 1 := by
  cases l with
  | nil => simp [edgesOf]
  | cons a l => simpa [edgesOf] using length_edgesFrom p a true l

/-! ### The Decode Engine -/

/-- The loop keeps the length of `out` (R54). -/
theorem decodeLoop_length (p : TimingProfile) (es : List EdgeSample) (r : EngineRegs)
    (out : List Byte) : (decodeLoop p es r out).out.length = out.length := by
  induction es, r, out using decodeLoop.induct p with
  | case1 a b rest r out h ih => rw [decodeLoop, if_pos h]; exact ih
  | case2 a b rest r out h q h8 hw => rw [decodeLoop, if_neg h]; simp_all [q]
  | case3 a b rest r out h q h8 hw ih =>
    rw [decodeLoop, if_neg h]; dsimp only; rw [if_pos h8, if_neg hw, ih]; simp
  | case4 a b rest r out h q h8 ih => rw [decodeLoop, if_neg h]; dsimp only; rw [if_neg h8, ih]
  | case5 es r out h => cases es with
    | nil => rfl
    | cons a es => cases es with
      | nil => rfl
      | cons b es => exact absurd rfl (h a b es)

theorem flushPartial_length (e : EngineEnd) : (flushPartial e).out.length = e.out.length := by
  unfold flushPartial; split
  · rfl
  · split <;> simp

/-- `DECODE_EDGES` keeps the capacity of `out` (R54). -/
theorem decodeEdges_length (p : TimingProfile) (es : List EdgeSample) (out : List Byte) :
    (decodeEdges p es out).out.length = out.length := by
  rw [decodeEdges, flushPartial_length, decodeLoop_length]

end Sys2Proof.Machine
end

