-- ==== Sys2Proof/Laws/Invariant.lean ====
section
/-! SUPPORT. The shared operations keep the invariant of Sys2Proof.Safety: the transfer step, the
drain, every hardware step, the points inside an operation, `DISARM`, `COMPLETE_CAPTURE`, the poll,
`ENSURE_COMPLETE` and `ENSURE_EDGES`. -/

namespace Sys2Proof.Machine

/-- In the foreground's turn a step is the foreground's step (R7). -/
theorem step_of_turn {start s : State} (h : ForegroundTurn start s) :
    step start = foregroundStep s := by
  rcases h with ⟨h, rfl⟩ | ⟨moves, h, rfl⟩ <;> simp only [step, nextStep, h, moveStep]

/-- The transfer step keeps the invariant (R126, R128). -/
theorem inv_xferStep (s : State) (I : Inv s) : Inv (xferStep s) := by
  cases he : s.xfer.enabled with
  | false => rw [xferStep_of_not_enabled s (by simp [transferEnabled, he])]; exact I
  | true =>
    cases hp : s.xfer.pending with
    | nil => rw [xferStep_of_not_enabled s (by simp [transferEnabled, hp])]; exact I
    | cons v rest =>
      have hcap : s.ch.state = .capturing := by
        by_contra h
        have := (I.quiet h).notEnabled; simp_all
      have hhw : s.plat.backend = .hardware := by
        cases hb : s.plat.backend with
        | hardware => rfl
        | mock => have := (I.mock hb).1.notEnabled; simp_all
      have hlen := I.lengthEq hcap hhw
      have hlt := I.transferring he
      obtain ⟨hbuf, hcfg, hle⟩ := I.capturing hcap
      have hfit : v.toNat < 256 ^ sampleBytes s.plat :=
        sample_fits _ _ (I.pendingFit v (by simp [hp]))
      rw [xferStep_enabled s v rest he hp]
      set t : State := { bufWriteDma s.xfer.progress v s with
        xfer := { s.xfer with pending := rest, progress := s.xfer.progress + 1 } } with ht
      have hslot : ∀ j, slotValue t j = if j = s.xfer.progress then v else slotValue s j :=
        fun j => slotValue_bufWriteDma s.xfer.progress j v s I.memWf hfit
      have hmem : ∀ c ∈ t.mem, t.byteExists c.1 = true := by
        intro c hc
        have hc : c ∈ Memory.writeBytes s.mem (slotAddr s.plat s.xfer.progress) (sampleToBytes
            s.plat v) := hc
        rcases Memory.mem_writeBytes hc with h | h
        · rw [length_sampleToBytes] at h
          have h2 : (s.xfer.progress + 1) * sampleBytes s.plat ≤ s.ch.capacity * sampleBytes
              s.plat :=
            Nat.mul_le_mul_right _ (by omega)
          rw [Nat.add_mul] at h2
          unfold slotAddr at h
          simp only [State.byteExists, ht, bufWriteDma, hbuf, Bool.true_and, Bool.and_eq_true,
              decide_eq_true_eq]
          omega
        · exact I.memInBuf c h
      have hnf : s.irq.pending = false ∧ s.irq.isrRunning = false ∧ s.completion = false := by
        have := I.fullSignal hcap
        refine ⟨?_, ?_, ?_⟩ <;> (by_contra h; simp at h; have := this (by simp [h]); omega)
      have hvis : t.vis.length = s.ch.capacity := by
        simp only [ht, bufWriteDma]; split <;> simp [I.visLength]
      dsimp only
      split
      · rename_i hfull
        constructor
        case memWf => exact bufWriteDma_mem_wf _ _ _ I.memWf
        case memInBuf => exact hmem
        case capacityLe => exact I.capacityLe
        case visLength => exact hvis
        case noBuf => exact I.noBuf
        case noChannel => exact I.noChannel
        case notConfigured => exact I.notConfigured
        case capturing =>
          intro _
          exact ⟨hbuf, hcfg, by show s.xfer.progress + 1 ≤ s.ch.capacity; omega⟩
        case quiet => intro h; exact absurd hcap h
        case mock => intro h; exact absurd (hhw.symm.trans h) (by decide)
        case transferring => intro h; simp [bufferFull] at h
        case pendingServed => intro _; simp [bufferFull]
        case pendingLe => simp [bufferFull]
        case pendingFit => simp [bufferFull]
        case startFit => exact I.startFit
        case captureFit => exact I.captureFit
        case tickBound => exact I.tickBound
        case latched => exact I.latched
        case tailClear =>
          intro h i h1 h2
          have h1 : s.xfer.progress + 1 ≤ i := h1
          have := hslot i
          rw [if_neg (by omega)] at this
          exact this.trans (I.tailClear hbuf i (by omega) h2)
        case lengthEq => intro _ _; exact hlen
        case fullSignal => intro _ _; show s.xfer.progress + 1 = s.ch.capacity; omega
        case reason => intro h; exact absurd (hcap.symm.trans h) (by decide)
        case cacheComplete => exact I.cacheComplete
        case cacheLength => exact I.cacheLength
        case readable => intro h; exact absurd (hcap.symm.trans h) (by decide)
        case waiting => exact I.waiting
      · rename_i hfull
        constructor
        case memWf => exact bufWriteDma_mem_wf _ _ _ I.memWf
        case memInBuf => exact hmem
        case capacityLe => exact I.capacityLe
        case visLength => exact hvis
        case noBuf => exact I.noBuf
        case noChannel => exact I.noChannel
        case notConfigured => exact I.notConfigured
        case capturing =>
          intro _
          exact ⟨hbuf, hcfg, by show s.xfer.progress + 1 ≤ s.ch.capacity; omega⟩
        case quiet => intro h; exact absurd hcap h
        case mock => intro h; exact absurd (hhw.symm.trans h) (by decide)
        case transferring => intro h; simp [ht]; omega
        case pendingServed => intro h; simp [ht, he] at h
        case pendingLe => have := I.pendingLe; rw [hp] at this; simp at this; simp [ht]; omega
        case pendingFit =>
          intro x hx
          exact I.pendingFit x (by rw [hp]; exact List.mem_cons_of_mem _ hx)
        case startFit => exact I.startFit
        case captureFit => exact I.captureFit
        case tickBound => exact I.tickBound
        case latched => exact I.latched
        case tailClear =>
          intro h i h1 h2
          have h1 : s.xfer.progress + 1 ≤ i := h1
          have := hslot i
          rw [if_neg (by omega)] at this
          exact this.trans (I.tailClear hbuf i (by omega) h2)
        case lengthEq => intro _ _; exact hlen
        case fullSignal => intro _ h; simp [ht, bufWriteDma, hnf] at h
        case reason => intro h; exact absurd (hcap.symm.trans h) (by decide)
        case cacheComplete => exact I.cacheComplete
        case cacheLength => exact I.cacheLength
        case readable => intro h; exact absurd (hcap.symm.trans h) (by decide)
        case waiting => exact I.waiting

/-- The drain keeps the invariant. -/
theorem inv_drain (s : State) (I : Inv s) : Inv (drain s) :=
  xferSteps_induct inv_xferStep _ s I

/-- The transfer the schedule law forces keeps the invariant. -/
theorem inv_serveDue (s : State) (I : Inv s) : Inv (serveDue s) := by
  unfold serveDue; split
  · exact inv_drain s I
  · exact I

/-- An armed capture unit is a hardware backend in a capture. -/
theorem hw_of_armed {s : State} (I : Inv s) (h : s.cap.armed = true) : s.ch.state = .capturing ∧
    s.plat.backend = .hardware := by
  constructor
  · by_contra h'
    have := (I.quiet h').notArmed; simp_all
  · cases hb : s.plat.backend with
    | hardware => rfl
    | mock => have := (I.mock hb).1.notArmed; simp_all

/-- An enabled interrupt line is a hardware backend in a capture. -/
theorem hw_of_irqe {s : State} (I : Inv s) (h : s.irq.enabled = true ∨ s.irq.isrRunning = true) :
    s.ch.state = .capturing ∧ s.plat.backend = .hardware := by
  constructor
  · by_contra h'
    have := (I.quiet h').irqMasked; have := (I.quiet h').isrIdle; simp_all
  · cases hb : s.plat.backend with
    | hardware => rfl
    | mock => have := (I.mock hb).1.irqMasked; have := (I.mock hb).1.isrIdle; simp_all

/-- The fields the invariant does not read may differ. -/
theorem inv_congr {s t : State} (I : Inv s)
    (h : t = { s with line := t.line, env := t.env, issuer := t.issuer, ops := t.ops, sched := t.sched, draws := t.draws, result := t.result, refused := t.refused, faulted := t.faulted, eng := t.eng, held := t.held })
        : Inv t := by
  rw [h]
  cases I
  constructor <;> try assumption
  · intro h
    rename_i h1 _ _ _ _ _ _ _ _ _ _ _ _ _
    first | exact ⟨(‹∀ (h : s.ch.state ≠ _), Quiet s› h).1, (‹∀ (h : s.ch.state ≠ _), Quiet s› h).2, (‹∀ (h : s.ch.state ≠ _), Quiet s› h).3, (‹∀ (h : s.ch.state ≠ _), Quiet s› h).4, (‹∀ (h : s.ch.state ≠ _), Quiet s› h).5, (‹∀ (h : s.ch.state ≠ _), Quiet s› h).6⟩
  · intro h
    have k := (‹s.plat.backend = .mock → _› h)
    exact ⟨⟨k.1.1, k.1.2, k.1.3, k.1.4, k.1.5, k.1.6⟩, k.2⟩

/-- A level change keeps the invariant (R125). -/
theorem inv_edge (l o) (s : State) (I : Inv s) : Inv (edgeStep l o s) := by
  unfold edgeStep
  have I1 : Inv (serveDue { s with line := !s.line }) := inv_serveDue _ (inv_congr I rfl)
  generalize serveDue { s with line := !s.line } = t at *
  dsimp only
  split
  · rename_i h
    simp only [capEdgeEnabled, Bool.and_eq_true] at h
    obtain ⟨hcap, hhw⟩ := hw_of_armed I1 h.1.1
    have he := h.1.2
    have hm : ∀ x ∈ latchPending o (sampleValue l t) t.xfer.pending, x.toNat < 2 ^
        t.plat.counterBits := by
      intro x hx
      rw [mem_latchPending hx]; exact truncW_lt _ _
    cases I1
    constructor <;> try assumption
    case quiet => intro h; exact absurd hcap h
    case mock => intro h; exact absurd (hhw.symm.trans h) (by decide)
    case pendingServed => intro h; simp [capEdge, he] at h
    case pendingLe => exact latchPending_length _ _ _
    case captureFit => exact truncW_lt _ _
    case tickBound => rename_i hh; show edgeK t.cap.lastK t.cap.elapsed l ≤ t.cap.elapsed /
        1000000000 + 1; simp only [edgeK, ticksOf]; split <;> omega
    case latched => exact le_refl _
  · exact I1

/-- The passing of time keeps the invariant. -/
theorem inv_elapsed (n : Nat) (s : State) (I : Inv s) (hn : s.cap.elapsed ≤ n) : Inv { s with cap := { s.cap with elapsed := n } }
    := by
  have T := I.tickBound
  have L := I.latched
  cases I
  constructor <;> try assumption
  case quiet =>
    intro h
    have k := (‹∀ (h : s.ch.state ≠ _), Quiet s› h)
    exact ⟨k.1, k.2, k.3, k.4, k.5, k.6⟩
  case mock =>
    intro h
    have k := (‹s.plat.backend = .mock → _› h)
    exact ⟨⟨k.1.1, k.1.2, k.1.3, k.1.4, k.1.5, k.1.6⟩, k.2⟩
  case tickBound => show s.cap.lastK ≤ n / 1000000000 + 1; omega
  case latched => exact L.trans hn

/-- The move of real time keeps the invariant. -/
theorem inv_elapse (n : Nat) (s : State) (I : Inv s) : Inv (elapseStep n s) := by
  unfold elapseStep
  split
  · exact inv_serveDue _ (inv_elapsed _ _ I (by simp))
  · exact I

/-- A later clock keeps the invariant. -/
theorem inv_clk (c : Clock) (s : State) (I : Inv s) (h : s.clk.now.toNat ≤ c.now.toNat) : Inv { s with clk := c }
    := by
  have W := I.waiting
  cases I
  constructor <;> try assumption
  case quiet =>
    intro h
    have k := (‹∀ (h : s.ch.state ≠ _), Quiet s› h)
    exact ⟨k.1, k.2, k.3, k.4, k.5, k.6⟩
  case mock =>
    intro h
    have k := (‹s.plat.backend = .mock → _› h)
    exact ⟨⟨k.1.1, k.1.2, k.1.3, k.1.4, k.1.5, k.1.6⟩, k.2⟩
  case waiting =>
    intro r hr
    obtain ⟨a, b⟩ := W r hr
    exact ⟨a, ⟨b.1.trans h, b.2.trans h, b.3⟩⟩

/-- Interrupt entry keeps the invariant (R181). -/
theorem inv_isrEntry (s : State) (I : Inv s) : Inv (isrEntry s) := by
  unfold isrEntry
  split
  · rename_i h
    simp only [isrEnabled, Bool.and_eq_true, Bool.not_eq_true'] at h
    obtain ⟨hcap, hhw⟩ := hw_of_irqe I (.inl h.1.2)
    have hf := I.fullSignal hcap (.inl h.1.1)
    cases I
    constructor <;> try assumption
    case quiet => intro h; exact absurd hcap h
    case mock => intro h; exact absurd (hhw.symm.trans h) (by decide)
    case fullSignal => intro _ _; exact hf
  · exact I

/-- Interrupt return keeps the invariant (R181). -/
theorem inv_isrReturn (s : State) (I : Inv s) : Inv (isrReturn s) := by
  unfold isrReturn
  split
  · rename_i h
    obtain ⟨hcap, hhw⟩ := hw_of_irqe I (.inr h)
    have hf := I.fullSignal hcap (.inr (.inl h))
    cases I
    constructor <;> try assumption
    case quiet => intro h; exact absurd hcap h
    case mock => intro h; exact absurd (hhw.symm.trans h) (by decide)
    case fullSignal => intro _ _; exact hf
  · exact I

/-- The ISR step keeps the invariant (R181). -/
theorem inv_isrStep (s : State) (I : Inv s) : Inv (isrStep s) := by
  unfold isrStep; split
  · exact inv_isrReturn _ (inv_isrEntry _ I)
  · exact I

/-- Every step of a hardware agent keeps the invariant (R125 to R128, R181). -/
theorem inv_hwStep (h : HwStep) (s : State) (I : Inv s) : Inv (hwStep h s) := by
  cases h with
  | edge late overrun => exact inv_edge _ _ _ I
  | transfer => exact inv_xferStep _ I
  | isr => exact inv_isrStep _ I
  | isrEntry => exact inv_isrEntry _ I
  | isrReturn => exact inv_isrReturn _ I
  | elapse units => exact inv_elapse _ _ I

/-- A point inside an operation keeps the invariant (R7). -/
theorem inv_interleave (s : State) (I : Inv s) : Inv (interleave s) :=
  interleave_induct inv_hwStep s (inv_congr I rfl)

/-- The first line of `DISARM` keeps the invariant (R121). -/
theorem inv_unarm (s : State) (I : Inv s) : Inv { s with cap := { s.cap with armed := false } } := by
  cases I
  constructor <;> try assumption
  case quiet =>
    intro h
    have k := (‹∀ (h : s.ch.state ≠ _), Quiet s› h)
    exact ⟨rfl, k.2, k.3, k.4, k.5, k.6⟩
  case mock =>
    intro h
    have k := (‹s.plat.backend = .mock → _› h)
    exact ⟨⟨rfl, k.1.2, k.1.3, k.1.4, k.1.5, k.1.6⟩, k.2⟩

/-- Disabling a drained engine keeps the invariant. -/
theorem inv_disable (s : State) (I : Inv s) (h : s.xfer.enabled = false ∨ s.xfer.pending = []) :
    Inv { s with xfer := { s.xfer with enabled := false } } := by
  have hp : s.xfer.pending = [] := by
    rcases h with h | h
    · exact I.pendingServed h
    · exact h
  cases I
  constructor <;> try assumption
  case quiet =>
    intro h
    have k := (‹∀ (h : s.ch.state ≠ _), Quiet s› h)
    exact ⟨k.1, rfl, k.3, k.4, k.5, k.6⟩
  case mock =>
    intro h
    have k := (‹s.plat.backend = .mock → _› h)
    exact ⟨⟨k.1.1, rfl, k.1.3, k.1.4, k.1.5, k.1.6⟩, k.2⟩
  case transferring => intro h; simp at h
  case pendingServed => intro _; exact hp

/-- Masking the interrupt keeps the invariant. -/
theorem inv_mask (s : State) (I : Inv s) : Inv { s with irq := { s.irq with enabled := false, pending := false } }
    := by
  have F := I.fullSignal
  cases I
  constructor <;> try assumption
  case quiet =>
    intro h
    have k := (‹∀ (h : s.ch.state ≠ _), Quiet s› h)
    exact ⟨k.1, k.2, k.3, rfl, rfl, k.6⟩
  case mock =>
    intro h
    have k := (‹s.plat.backend = .mock → _› h)
    exact ⟨⟨k.1.1, k.1.2, k.1.3, rfl, rfl, k.1.6⟩, k.2⟩
  case fullSignal =>
    intro h k
    apply F h
    rcases k with k | k | k
    · simp at k
    · exact .inr (.inl k)
    · exact .inr (.inr k)

/-- `DISARM` keeps the invariant and leaves the backend quiet (R121). -/
theorem inv_disarm (s : State) (I : Inv s) : Inv (disarm s) ∧ Quiet (disarm s) := by
  cases hb : s.plat.backend with
  | mock => simp only [disarm, hb]; exact ⟨I, (I.mock hb).1⟩
  | hardware =>
    have A : Inv (disarm s) := by
      unfold disarm; rw [hb]
      set x : State := { interleave s with cap := { (interleave s).cap with armed := false } }
      have hx := drain_done x
      have S := (interleave_still (drain x) (by rw [(drain_frame x).rest]) (by
        unfold transferEnabled; rcases hx with h | h <;> simp [h])).rest
      exact inv_isrReturn _ (inv_mask _ (inv_disable _
        (inv_interleave _ (inv_drain _ (inv_unarm _ (inv_interleave s I)))) (by rw [S]; exact hx)))
    obtain ⟨f1, f2, f3, f4, f5⟩ := disarm_fields s hb
    exact ⟨A, ⟨f1, f2, A.pendingServed f2, f3, f4, f5⟩⟩

/-- What `DISARM` leaves as it was. -/
theorem disarm_ch (s : State) : (disarm s).ch = s.ch ∧ (disarm s).wait = s.wait ∧ (disarm s).clk =
    s.clk ∧ (disarm s).plat = s.plat ∧ (disarm s).created = s.created ∧ (disarm s).faulted =
    s.faulted := by
  rw [(disarm_frame s).rest]; simp

/-- `COMPLETE_CAPTURE` in a capture succeeds and keeps the invariant (R103). -/
theorem inv_complete (r : CompletionReason) (hr : r ≠ .none) (s : State) (I : Inv s) (hc :
    s.ch.state = .capturing) :
    ∃ t, completeCapture r s = .ok t ∧ Inv {t with wait := none} ∧ t.ch.state = .complete ∧
        t.ch.completionReason = r ∧ t.ch.edgesValid = s.ch.edgesValid ∧ t.faulted = s.faulted ∧
        t.ch.edges = s.ch.edges ∧ t.clk = s.clk ∧ t.created = s.created := by
  obtain ⟨J, Q⟩ := inv_disarm s I
  obtain ⟨e1, e2, e3, e4, e5, e6⟩ := disarm_ch s
  unfold completeCapture
  dsimp only
  generalize disarm s = d at *
  have hdc : d.ch.state = .capturing := by rw [e1]; exact hc
  obtain ⟨hb, hcf, hle⟩ := J.capturing hdc
  have hv : s.ch.edgesValid = false := by
    by_contra h
    simp at h
    have := I.cacheComplete h; simp_all
  obtain ⟨u, hu, hl, hvis⟩ := syncReads_ok 0 (readProgress d) d (by simpa [readProgress] using
      hle) J.visLength
  rw [hu]
  refine ⟨_, rfl, ?_, rfl, rfl, congrArg (·.edgesValid) e1, e6, congrArg (·.edges) e1, e3, e5⟩
  have V := J.visLength
  have NC := J.noChannel
  cases J
  constructor <;> try assumption
  case visLength => exact hl.trans V
  case noChannel => intro h; have := NC h; rw [hdc] at this; cases this
  case notConfigured => simp
  case capturing => intro h; simp at h
  case quiet => intro _; exact ⟨Q.1, Q.2, Q.3, Q.4, Q.5, Q.6⟩
  case mock =>
    intro h
    have k := (‹d.plat.backend = .mock → _› h)
    exact ⟨⟨k.1.1, k.1.2, k.1.3, k.1.4, k.1.5, k.1.6⟩, k.2⟩
  case lengthEq => intro h; simp at h
  case fullSignal => intro h; simp at h
  case reason => intro _; exact hr
  case cacheComplete => intro _; rfl
  case readable =>
    intro _ _
    refine ⟨hb, hle, ?_⟩
    intro i hi
    have hi : i < readProgress d := hi
    have := hvis i
    rw [if_pos ⟨Nat.zero_le _, by omega⟩] at this
    exact this
  case waiting => intro r h; simp at h

/-- A reading changes the clock alone, and forward (R46). -/
theorem nowUs_clk (s : State) : ∃ c, (nowUs s).2 = { s with clk := c } ∧ c.now = (nowUs s).1 ∧
    s.clk.now.toNat ≤ c.now.toNat :=
  ⟨_, nowUs_frame s, nowUs_now s, (nowUs_now s) ▸ nowUs_le s⟩

/-- A poll of a capture succeeds and keeps the invariant, and ends the wait by its deadline (R95,
R100). -/
theorem inv_poll (r : WaitRegs) (s : State) (I : Inv s) (hc : s.ch.state = .capturing)
   (W : WaitBounded r s.clk.now) :
    ∃ t q, waitPoll r s = .ok (t, q) ∧ Inv t ∧ t.faulted = s.faulted
      ∧ t.created = s.created ∧ t.ch.edgesValid = s.ch.edgesValid
      ∧ (q.isSome → t.ch.state = .complete ∧ t.wait = none)
      ∧ (r.tStart.toNat + r.deadlineUs ≤ s.clk.now.toNat → q.isSome) := by
  have hex : ∀ (u : State), Inv u → u.ch.state = .capturing → u.faulted = s.faulted → u.created =
      s.created → u.ch.edgesValid = s.ch.edgesValid → ∀ rs st q, rs ≠ .none → ∃ t,
      waitExit rs st q u = .ok (t, some { q with result := st }) ∧ Inv t ∧ t.faulted = s.faulted
      ∧ t.created = s.created ∧ t.ch.edgesValid = s.ch.edgesValid ∧ t.ch.state = .complete
      ∧ t.wait = none := by
    intro u Iu hu hf hcr hev rs st q hrs
    obtain ⟨t, h1, h2, h3, h4, h5, h6, h7, h8, h9⟩ := inv_complete rs hrs u Iu hu
    exact ⟨{ t with wait := none }, by simp [waitExit, h1], h2, h6.trans hf, h9.trans hcr,
      h5.trans hev, h3, rfl⟩
  obtain ⟨c, hn, hnow, hle⟩ := nowUs_clk s
  have Ic := inv_interleave _ (inv_clk c s I hle)
  have F := (interleave_frame { s with clk := c }).rest
  have hdl : ∀ (q : WaitRegs), q.tStart = r.tStart → q.deadlineUs = r.deadlineUs →
      q.tLast.toNat ≤ c.now.toNat →
      ∃ t w, waitDeadline q (nowUs s).1 (interleave { s with clk := c }) = .ok (t, w) ∧ Inv t
      ∧ t.faulted = s.faulted ∧ t.created = s.created ∧ t.ch.edgesValid = s.ch.edgesValid
      ∧ (w.isSome → t.ch.state = .complete ∧ t.wait = none)
      ∧ (r.tStart.toNat + r.deadlineUs ≤ s.clk.now.toNat → w.isSome) := by
    intro q h1 h2 h3
    unfold waitDeadline
    split
    · obtain ⟨t, a1, a2, a3, a4, a5, a6, a7⟩ := hex _ Ic (by rw [F]; exact hc) (by rw [F])
        (by rw [F]) (by rw [F]) .timeout .timeout q (by decide)
      exact ⟨t, _, a1, a2, a3, a4, a5, fun _ => ⟨a6, a7⟩, fun _ => rfl⟩
    · rename_i hge
      have hs : ¬ (nowUs s).1.toNat - q.tStart.toNat ≥ q.deadlineUs := hge
      refine ⟨_, none, rfl, ?_, by rw [F], by rw [F], by rw [F], by simp, ?_⟩
      · have hclk : (interleave { s with clk := c }).clk = c := by rw [F]
        have hst : (interleave { s with clk := c }).ch.state = .capturing := by rw [F]; exact hc
        generalize interleave { s with clk := c } = u at *
        cases Ic
        constructor <;> try assumption
        case quiet => intro h; exact absurd hst h
        case mock =>
          intro h
          have k := (‹u.plat.backend = .mock → _› h)
          exact ⟨⟨k.1.1, k.1.2, k.1.3, k.1.4, k.1.5, k.1.6⟩, k.2⟩
        case waiting =>
          intro r' hr'
          simp at hr'
          subst hr'
          refine ⟨hst, ⟨?_, ?_, ?_⟩⟩
          · show q.tStart.toNat ≤ u.clk.now.toNat
            rw [hclk]; have := W.1; rw [h1]; omega
          · show q.tLast.toNat ≤ u.clk.now.toNat
            rw [hclk]; exact h3
          · show (nowUs s).1.toNat + min _ _ ≤ q.tStart.toNat + q.deadlineUs
            rw [← hnow] at hs ⊢
            have := W.1; rw [h1] at hs ⊢; omega
      · intro h
        rw [h1, h2, ← hnow] at hs
        omega
  have hst : (interleave { s with clk := c }).ch.state = .capturing := by rw [F]; exact hc
  have hcfg : readCfg (interleave { s with clk := c }) = .ok s.ch.cfg := by
    have := (I.capturing hc).2.1
    unfold readCfg
    rw [F]
    simp [this]
  unfold waitPoll
  split
  · obtain ⟨t, a1, a2, a3, a4, a5, a6, a7⟩ := hex _ I hc rfl rfl rfl .bufferFull .success r
      (by decide)
    exact ⟨t, _, a1, a2, a3, a4, a5, fun _ => ⟨a6, a7⟩, fun _ => rfl⟩
  · dsimp only
    rw [hn]
    split
    · exact hdl _ rfl rfl (by rw [hnow])
    · rw [hcfg]
      dsimp only
      split
      · obtain ⟨t, a1, a2, a3, a4, a5, a6, a7⟩ := hex _ Ic hst (by rw [F]) (by rw [F]) (by rw [F])
          .inactivity .success r (by decide)
        exact ⟨t, _, a1, a2, a3, a4, a5, fun _ => ⟨a6, a7⟩, fun _ => rfl⟩
      · exact hdl _ rfl rfl (W.2.trans hle)

/-- `ENSURE_COMPLETE` succeeds and keeps the invariant (R104). -/
theorem inv_ensureComplete (s : State) (I : Inv s) :
   ∃ t, ensureComplete s = .ok t ∧ Inv t ∧ t.faulted = s.faulted ∧ t.created = s.created
    ∧ t.ch.state = (if s.ch.state = .capturing then .complete else s.ch.state)
    ∧ (s.ch.state ≠ .capturing → t = s) := by
  unfold ensureComplete
  split
  · rename_i hc
    obtain ⟨c, hn, hnow, hle⟩ := nowUs_clk s
    simp only [waitEnter]
    rw [hn]
    have Ic := inv_clk c s I hle
    have hw : (nowUs s).1.toNat ≤ c.now.toNat := by rw [hnow]
    obtain ⟨t, q, a1, a2, a3, a4, a5, a6, a7⟩ := inv_poll
      { tStart := (nowUs s).1, deadlineUs := 0, lastProgress := readProgress { s with clk := c },
        tLast := (nowUs s).1, result := .timeout, wakeAt := (nowUs s).1.toNat }
      _ Ic hc ⟨hw, hw, le_refl _⟩
    rw [a1]
    exact ⟨t, rfl, a2, a3, a4, (a6 (a7 hw)).1, fun h => absurd hc h⟩
  · exact ⟨s, rfl, I, rfl, rfl, rfl, fun _ => rfl⟩

/-- Writes of the error, the counts and the cache keep the invariant. -/
theorem inv_ch (s : State) (I : Inv s) (c : Channel) (h : c = { s.ch with lastError := c.lastError, lastStats := c.lastStats, edges := c.edges, edgesValid := c.edgesValid })
   (hv : c.edgesValid = true → s.ch.state = .complete) (hl : c.edges.length ≤ max (Config.maxSlots
       - 1) s.plat.maxEdges)
   (hr : c.edgesValid = false → s.ch.edgesValid = false) : Inv { s with ch := c } := by
  rw [h]
  have R := I.readable
  cases I
  constructor <;> try assumption
  case quiet =>
    intro h
    have k := (‹∀ (h : s.ch.state ≠ _), Quiet s› h)
    exact ⟨k.1, k.2, k.3, k.4, k.5, k.6⟩
  case mock =>
    intro h
    have k := (‹s.plat.backend = .mock → _› h)
    exact ⟨⟨k.1.1, k.1.2, k.1.3, k.1.4, k.1.5, k.1.6⟩, k.2⟩
  case readable =>
    intro h1 h2
    exact R h1 (hr h2)

/-- `ENSURE_EDGES` succeeds and keeps the invariant (R150). -/
theorem inv_ensureEdges (s : State) (I : Inv s) :
   ∃ t, ensureEdges s = .ok t ∧ Inv t ∧ t.faulted = s.faulted ∧ t.created = s.created
    ∧ t.ch.state = (if s.ch.state = .capturing then .complete else s.ch.state) := by
  obtain ⟨t, h1, h2, h3, h4, h5, h6⟩ := inv_ensureComplete s I
  unfold ensureEdges
  rw [h1]
  dsimp only
  split
  · rename_i h
    simp only [Bool.and_eq_true, Bool.not_eq_true', decide_eq_true_eq] at h
    obtain ⟨hb, hn, hf⟩ := h2.readable h.1 h.2
    rw [buildEdges_fresh t hb hn (by rw [h.1]; decide) hf]
    refine ⟨_, rfl, ?_, h3, h4, h5⟩
    apply inv_ch t h2 _ rfl
    · intro _; exact h.1
    · have := length_edgesOf t.plat ((List.range' 0 t.ch.nSamples).map (slotValue t))
      have := h2.capacityLe
      simp at *; omega
    · simp
  · exact ⟨t, rfl, h2, h3, h4, h5⟩

end Sys2Proof.Machine
end

