-- ==== Sys2Proof/Laws/Drain.lean ====
section
/-! SUPPORT. What the drain of `DISARM` does (spec/41_capture_backend.md R121): every pending sample
lands in its slot as far as the transfer length goes, and nothing else of memory changes. -/

namespace Sys2Proof.Machine

/-! ### A quiet backend, field by field -/

theorem Quiet.xfer_eq {s : State} (Q : Quiet s) : s.xfer =
    { length := s.xfer.length, progress := s.xfer.progress, enabled := false, pending := [],
      attached := s.xfer.attached } := by
  rw [← Q.notEnabled, ← Q.nonePending]

theorem Quiet.irq_eq {s : State} (Q : Quiet s) :
    s.irq = { enabled := false, pending := false, isrRunning := false } := by
  obtain ⟨-, -, -, h1, h2, h3⟩ := Q
  cases h : s.irq
  simp_all

theorem Quiet.cap_eq {s : State} (Q : Quiet s) : s.cap = { s.cap with armed := false } := by
  rw [← Q.notArmed]

/-- What the hardware agents' steps do on a quiet backend: the line's level and the time change, and the
environment may have settled fewer points. -/
structure QuietFrame (s t : State) : Prop where
  rest : t = { s with
    cap := { s.cap with elapsed := t.cap.elapsed }
    line := t.line
    env := { s.env with during := t.env.during } }

theorem QuietFrame.trans {s t u : State} (h : QuietFrame s t) (k : QuietFrame t u) :
    QuietFrame s u := by
  refine ⟨?_⟩
  have h := h.rest
  have k := k.rest
  rw [h] at k
  exact k

theorem QuietFrame.quiet {s t : State} (h : QuietFrame s t) (Q : Quiet s) : Quiet t := by
  rw [h.rest]
  exact ⟨Q.1, Q.2, Q.3, Q.4, Q.5, Q.6⟩

/-- A step of a hardware agent on a quiet backend moves the line and the time alone (R64, R129). -/
theorem hwStep_quiet (k : HwStep) {s : State} (Q : Quiet s) : QuietFrame s (hwStep k s) := by
  have ht : transferEnabled s = false := by simp [transferEnabled, Q.notEnabled]
  have hi : isrEnabled s = false := by simp [isrEnabled, Q.irqClear]
  cases k with
  | edge late overrun =>
    simp only [hwStep, edgeStep]
    rw [serveDue_of_not_enabled _ (by exact ht), if_neg (by simp [capEdgeEnabled, Q.notArmed])]
    exact ⟨rfl⟩
  | transfer => simp only [hwStep, xferStep_of_not_enabled s ht]; exact ⟨rfl⟩
  | isr => simp only [hwStep, isrStep_not_enabled s hi]; exact ⟨rfl⟩
  | isrEntry => simp only [hwStep, isrEntry, hi]; exact ⟨rfl⟩
  | isrReturn => simp only [hwStep, isrReturn, Q.isrIdle]; exact ⟨rfl⟩
  | elapse units =>
    simp only [hwStep, elapseStep]
    split
    · rw [serveDue_of_not_enabled _ (by exact ht)]; exact ⟨rfl⟩
    · exact ⟨rfl⟩

/-- A point inside an operation on a quiet backend: the line and the time alone. -/
theorem interleave_quiet {s : State} (Q : Quiet s) : QuietFrame s (interleave s) :=
  (interleave_induct (P := fun t => QuietFrame s t ∧ Quiet t)
    (fun k _ h => ⟨h.1.trans (hwStep_quiet k h.2), (hwStep_quiet k h.2).quiet h.2⟩) s
    ⟨⟨rfl⟩, Q.1, Q.2, Q.3, Q.4, Q.5, Q.6⟩).1

/-- The lines of `DISARM` on a quiet backend are the point inside them. -/
theorem disarmLines_quiet {s : State} (Q : Quiet s) : disarmLines s = interleave s := by
  have e1 : ({ s with cap := { s.cap with armed := false } } : State) = s := by rw [← Q.cap_eq]
  have e2 : drain s = s := by simp [drain, Q.nonePending, xferSteps]
  have Qi := (interleave_quiet Q).quiet Q
  simp only [disarmLines, e1, e2]
  generalize interleave s = y at Qi
  have e3 : ({ y with
      xfer := { y.xfer with enabled := false }
      irq := { y.irq with enabled := false, pending := false } } : State) = y := by
    apply State.eq_of_fields <;> try rfl
    case h_xfer => dsimp only; rw [← Qi.notEnabled]
    case h_irq =>
      show (⟨false, false, y.irq.isrRunning⟩ : Interrupt) = y.irq
      rw [Qi.isrIdle, ← Qi.irq_eq]
  rw [e3]
  simp [isrReturn, Qi.isrIdle]

/-- `DISARM` of a quiet backend changes nothing but what the other agents do meanwhile (R121 "It is
idempotent"). -/
theorem disarm_quiet {s : State} (Q : Quiet s) : QuietFrame s (disarm s) := by
  unfold disarm
  split
  · exact ⟨rfl⟩
  · have h := interleave_quiet Q
    rw [disarmLines_quiet (h.quiet Q)]
    exact h.trans (interleave_quiet (h.quiet Q))

/-- Nothing at all where they take no step. -/
theorem disarm_quiet_still {s : State} (Q : Quiet s) (h : s.env.during = []) : disarm s = s := by
  unfold disarm
  split
  · rfl
  · rw [interleave_nil s h, disarmLines_quiet Q, interleave_nil s h]

/-! ### The drain -/

/-- What `n` transfer steps do while at least `n` samples are pending (R126, R128). -/
theorem xferSteps_spec (n : Nat) : ∀ (s : State), Inv s → s.xfer.enabled = true →
    n ≤ s.xfer.pending.length →
    let t := xferSteps n s
    t.xfer.progress = s.xfer.progress + min n (s.xfer.length - s.xfer.progress)
    ∧ (∀ j v, j < n → s.xfer.pending[j]? = some v → s.xfer.progress + j < s.xfer.length →
        slotValue t (s.xfer.progress + j) = v)
    ∧ (∀ a, a < slotAddr s.plat s.xfer.progress ∨ slotAddr s.plat t.xfer.progress ≤ a →
        Memory.read t.mem a = Memory.read s.mem a)
    ∧ (∀ i, i < s.xfer.progress ∨ t.xfer.progress ≤ i → slotVisibility t i = slotVisibility s i)
    ∧ (∀ i, i < s.xfer.progress ∨ t.xfer.progress ≤ i → slotValue t i = slotValue s i)
    ∧ (∀ i, s.xfer.progress ≤ i → i < t.xfer.progress →
        slotVisibility t i = if s.plat.cacheCoherent then .fresh else .stale)
    ∧ (t.xfer.progress = s.xfer.length ∨
        (t.xfer.enabled = true ∧ t.xfer.pending = s.xfer.pending.drop n ∧ t.irq = s.irq)) := by
  induction n with
  | zero => intro s I he hn; simp [xferSteps, he]; omega
  | succ n ih =>
    intro s I he hn
    match hp : s.xfer.pending with
    | [] => rw [hp] at hn; simp at hn
    | v :: rest =>
    have hlt := I.transferring he
    have hfit : v.toNat < 256 ^ sampleBytes s.plat := sample_fits _ _ (I.pendingFit v (by simp
        [hp]))
    have hx := xferStep_enabled s v rest he hp
    have hI := inv_xferStep s I
    have hfr := (xferStep_frame s).rest
    set u : State := { bufWriteDma s.xfer.progress v s with
        xfer := { s.xfer with pending := rest, progress := s.xfer.progress + 1 } } with hu
    have hslot : ∀ j, slotValue u j = if j = s.xfer.progress then v else slotValue s j :=
        fun j => slotValue_bufWriteDma s.xfer.progress j v s I.memWf hfit
    have hsa : slotAddr s.plat (s.xfer.progress + 1) = slotAddr s.plat s.xfer.progress +
        sampleBytes s.plat := by
      simp only [slotAddr, Nat.add_mul]; omega
    have hrd : ∀ a, a < slotAddr s.plat s.xfer.progress ∨ slotAddr s.plat (s.xfer.progress + 1) ≤
        a → Memory.read u.mem a = Memory.read s.mem a := by
      intro a ha
      refine Memory.read_writeBytes_outside _ _ _ I.memWf ?_
      rw [length_sampleToBytes]; omega
    have hvs : ∀ i, i ≠ s.xfer.progress → slotVisibility u i = slotVisibility s i := by
      intro i hi
      simp only [slotVisibility, hu, bufWriteDma]
      split
      · rfl
      · simp only [List.getD_eq_getElem?_getD]; rw [List.getElem?_set_ne (by omega)]
    have hcap : s.ch.state = .capturing := by
      by_contra h
      rw [(I.quiet h).notEnabled] at he
      cases he
    have hhw : s.plat.backend = .hardware := by
      cases hb : s.plat.backend with
      | hardware => rfl
      | mock => rw [(I.mock hb).1.notEnabled] at he; cases he
    have hnew : slotVisibility u s.xfer.progress
        = if s.plat.cacheCoherent then .fresh else .stale := by
      have hl : s.xfer.progress < s.vis.length := by
        rw [I.visLength, ← I.lengthEq hcap hhw]; exact hlt
      simp only [slotVisibility, hu, bufWriteDma]
      split
      · rfl
      · simp [hl]
    have mono : ∀ i, slotAddr s.plat i ≤ slotAddr s.plat (i+1) := by
      intro i; simp only [slotAddr, Nat.add_mul]; omega
    have mono2 : ∀ i j, i ≤ j → slotAddr s.plat i ≤ slotAddr s.plat j := by
      intro i j h; simp only [slotAddr]; have := Nat.mul_le_mul_right (sampleBytes s.plat) h; omega
    dsimp only [xferSteps]
    dsimp only at hx
    by_cases hfull : s.xfer.progress + 1 = s.xfer.length
    · rw [if_pos hfull] at hx
      rw [hx]
      rw [xferSteps_of_not_enabled n _ rfl]
      refine ⟨?_, ?_, ?_, ?_, ?_, ?_, ?_⟩
      · show s.xfer.progress + 1 = _; omega
      · intro j w h1 h2 h3
        have : j = 0 := by omega
        subst this
        simp at h2
        subst h2
        have := hslot s.xfer.progress; rw [if_pos rfl] at this; exact this
      · exact hrd
      · intro i hi
        exact hvs i (by rcases hi with h | h; omega; have : s.xfer.progress + 1 ≤ i := h; omega)
      · intro i hi
        have := hslot i
        rw [if_neg (by rcases hi with h | h; omega; have : s.xfer.progress + 1 ≤ i := h; omega)]
            at this
        exact this
      · intro i hi hi'
        have hi' : i < s.xfer.progress + 1 := hi'
        obtain rfl : i = s.xfer.progress := by omega
        exact hnew
      · left; exact hfull
    · rw [if_neg hfull] at hx
      rw [hx] at hI ⊢
      have H := ih u hI he (by rw [hp] at hn; simpa [hu] using hn)
      dsimp only at H
      have up : u.xfer.progress = s.xfer.progress + 1 := rfl
      have ul : u.xfer.length = s.xfer.length := rfl
      have upl : u.plat = s.plat := rfl
      have ui : u.irq = s.irq := rfl
      have upe : u.xfer.pending = rest := rfl
      rw [up, ul, upl, ui, upe] at H
      generalize xferSteps n u = t at *
      obtain ⟨q1, q2, q3, q4, q6, q7, q5⟩ := H
      refine ⟨?_, ?_, ?_, ?_, ?_, ?_, ?_⟩
      · omega
      · intro j w h1 h2 h3
        cases j with
        | zero =>
          simp at h2; subst h2
          have := q6 s.xfer.progress (.inl (by omega))
          rw [Nat.add_zero, this, hslot]; simp
        | succ j =>
          simp at h2
          have := q2 j w (by omega) h2 (by omega)
          rw [← this]; congr 1; omega
      · intro a ha
        rw [q3 a, hrd a]
        · rcases ha with h | h
          · exact .inl h
          · right; exact (mono2 _ _ (by omega)).trans h
        · rcases ha with h | h
          · left; have := mono s.xfer.progress; omega
          · exact .inr h
      · intro i hi
        rw [q4 i (by omega), hvs i (by omega)]
      · intro i hi
        rw [q6 i (by omega), hslot, if_neg (by omega)]
      · intro i hi hi'
        by_cases h : i = s.xfer.progress
        · rw [h, q4 _ (.inl (by omega)), hnew]
        · exact q7 i (by omega) hi'
      · rcases q5 with h | h
        · exact .inl h
        · right; refine ⟨h.1, by rw [h.2.1]; simp, h.2.2⟩

/-- Transfer steps from an enabled engine: it is disabled, and the interrupt raised if it is enabled,
exactly at buffer full (R128). -/
theorem xferSteps_full (n : Nat) : ∀ (s : State), Inv s → s.xfer.enabled = true →
    n ≤ s.xfer.pending.length →
    (xferSteps n s).xfer.enabled = decide ((xferSteps n s).xfer.progress ≠ s.xfer.length)
    ∧ (xferSteps n s).irq = { s.irq with pending :=
        if (xferSteps n s).xfer.progress = s.xfer.length then s.irq.enabled || s.irq.pending
        else s.irq.pending } := by
  induction n with
  | zero =>
    intro s I he _
    have := I.transferring he
    simp [xferSteps, he, show ¬ s.xfer.progress = s.xfer.length by omega]
  | succ n ih =>
    intro s I he hn
    match hp : s.xfer.pending with
    | [] => rw [hp] at hn; simp at hn
    | v :: rest =>
    have hx := xferStep_enabled s v rest he hp
    have hu : xferSteps (n + 1) s = xferSteps n (xferStep s) := rfl
    simp only [hu]
    by_cases hf : s.xfer.progress + 1 = s.xfer.length
    · rw [if_pos hf] at hx
      have hne : (xferStep s).xfer.enabled = false := by rw [hx]; rfl
      have hn : xferSteps n (xferStep s) = xferStep s := xferSteps_of_not_enabled _ _ hne
      simp only [hn]
      rw [hx]
      simp [bufferFull, bufWriteDma, hf, Bool.or_comm]
    · rw [if_neg hf] at hx
      have he' : (xferStep s).xfer.enabled = true := by rw [hx]; exact he
      have hl : (xferStep s).xfer.length = s.xfer.length := by rw [hx]
      have hq : (xferStep s).irq = s.irq := by rw [hx]; rfl
      have hpp : (xferStep s).xfer.pending = rest := by rw [hx]
      have := ih (xferStep s) (inv_xferStep s I) he' (by rw [hpp]; rw [hp] at hn; simpa using hn)
      rw [hl, hq] at this
      exact this

/-- The drain of `DISARM` from a state with the invariant, whatever is pending (R121). -/
theorem drain_spec {s : State} (I : Inv s) : let t := drain s
    t.xfer.progress = s.xfer.progress + min s.xfer.pending.length (s.xfer.length - s.xfer.progress)
    ∧ (∀ j v, s.xfer.pending[j]? = some v → s.xfer.progress + j < s.xfer.length →
        slotValue t (s.xfer.progress + j) = v)
    ∧ (∀ a, a < slotAddr s.plat s.xfer.progress ∨ slotAddr s.plat t.xfer.progress ≤ a →
        Memory.read t.mem a = Memory.read s.mem a)
    ∧ (∀ i, i < s.xfer.progress ∨ t.xfer.progress ≤ i → slotVisibility t i = slotVisibility s i)
    ∧ (∀ i, s.xfer.progress ≤ i → i < t.xfer.progress →
        slotVisibility t i = if s.plat.cacheCoherent then .fresh else .stale)
    ∧ t.xfer.pending = []
    ∧ (t.irq.pending = true → t.irq.enabled = true → t.xfer.progress = s.xfer.length) := by
  have J := inv_drain s I
  have hp : (drain s).xfer.pending = [] := (drain_done s).elim J.pendingServed id
  have hirq : (drain s).irq.pending = true → (drain s).irq.enabled = true →
      (drain s).xfer.progress = s.xfer.length := by
    intro h1 h2
    obtain ⟨hc, hb⟩ := hw_of_irqe J (.inl h2)
    rw [J.fullSignal hc (.inl h1), ← J.lengthEq hc hb, (drain_frame s).rest]
  cases he : s.xfer.enabled with
  | false =>
    have hn := I.pendingServed he
    have hd : drain s = s := xferSteps_of_not_enabled _ s he
    rw [hd] at hirq ⊢
    exact ⟨by simp [hn], by simp [hn], fun _ _ => rfl, fun _ _ => rfl, by intros; omega, hn, hirq⟩
  | true =>
    obtain ⟨q1, q2, q3, q4, -, q7, -⟩ := xferSteps_spec s.xfer.pending.length s I he (le_refl _)
    exact ⟨q1, fun j v h => q2 j v (List.getElem?_eq_some_iff.1 h).1 h, q3, q4, q7, hp, hirq⟩

/-- The end of `DISARM` as one update: the engine and the interrupt off, and an ISR already entered has
set the signal. -/
theorem disarmLines_eq (s : State) : let b := interleave (drain { s with cap := { s.cap with
      armed := false } })
    disarmLines s = { b with
      xfer := { b.xfer with enabled := false }
      irq := { enabled := false, pending := false, isrRunning := false }
      completion := b.completion || b.irq.isrRunning } := by
  dsimp only [disarmLines, isrReturn, atomicStoreRelease]
  generalize interleave _ = b
  cases b.irq.isrRunning <;> simp

/-- The lines of `DISARM` stop and drain the capture (R121). -/
theorem drained_disarmLines {s : State} (I : Inv s) : Drained s (disarmLines s) := by
  set x : State := { s with cap := { s.cap with armed := false } } with hx
  have Ix : Inv x := inv_unarm s I
  obtain ⟨q1, q2, q3, q4, q5, q6, q7⟩ := drain_spec Ix
  have h1 := (drain_frame x).rest
  have hS := interleave_still (drain x) (by rw [h1]) (by simp [transferEnabled, q6])
  have he := disarmLines_eq s
  dsimp only at he
  rw [← hx] at he
  set a := drain x with ha
  have hrest := hS.rest
  have hnil : a.env.during.head?.getD [] = [] → interleave a =
      { a with env := { a.env with during := a.env.during.tail } } := by
    intro h; rw [interleave_eq, h]; rfl
  set b := interleave a with hb
  set t := disarmLines s with ht
  have env : a.env = s.env := by rw [h1]
  have bcap : b.cap = { s.cap with armed := false, elapsed := b.cap.elapsed } := by rw [hrest, h1]
  have bx : b.xfer = a.xfer := by rw [hrest]
  have bm : b.mem = a.mem := by rw [hrest]
  have bv : b.vis = a.vis := by rw [hrest]
  have tp : t.xfer.progress = a.xfer.progress := by rw [he, bx]
  have tv : ∀ i, slotVisibility t i = slotVisibility a i := by
    intro i; rw [he]; simp only [slotVisibility]; rw [bv, hrest]
  have ts : ∀ i, slotValue t i = slotValue a i := by
    intro i; rw [he]; simp only [slotValue]; rw [bm, hrest]
  refine ⟨?_, by rw [tp]; exact q1, fun j v h k => (ts _).trans (q2 j v h k), ?_, ?_, ?_, ?_, ?_, ?_,
    ?_, ?_⟩
  · have e2 : t.xfer = ⟨s.xfer.length, t.xfer.progress, false, [], s.xfer.attached⟩ := by
      rw [he]
      dsimp only
      rw [bx, ← q6, h1]
    apply State.eq_of_fields
    case h_cap => rw [show t.cap = b.cap by rw [he]]; exact bcap
    case h_xfer => exact e2
    case h_irq => rw [he]
    case h_env => rw [he, hrest, env]
    all_goals first | rfl | (rw [he, hrest, h1])
  · intro i h k; rw [tv]; exact q5 i h (tp ▸ k)
  · intro y hy; rw [show t.mem = a.mem by rw [he, ← bm]]; exact q3 y (tp ▸ hy)
  · intro i hi; rw [tv]; exact q4 i (tp ▸ hi)
  · intro h
    have : b.completion = true := hS.signal (by show a.completion = true; rw [h1]; exact h)
    rw [he]; simp [this]
  · intro h
    have := hS.finished (by show a.irq.isrRunning = true; rw [h1]; exact h)
    rw [he]; simp; tauto
  · intro h
    have h : b.completion = true ∨ b.irq.isrRunning = true := by rw [he] at h; simpa using h
    by_cases hd : a.env.during.head?.getD [] = []
    · rw [hnil hd] at h
      have e1 : a.completion = s.completion := by rw [h1]
      have e2 : a.irq.isrRunning = s.irq.isrRunning := by rw [h1]
      dsimp only at h
      rw [e1, e2] at h
      tauto
    · rcases hS.cause h with k | k | k
      · left; have k : a.completion = true := k; rw [h1] at k; exact k
      · right; left; have k : a.irq.isrRunning = true := k; rw [h1] at k; exact k
      · right; right
        refine ⟨env ▸ hd, ?_⟩
        rw [tp]; exact q7 k.1 k.2
  · have := hS.time
    rw [show t.cap = b.cap by rw [he]]
    refine le_trans ?_ this
    show s.cap.elapsed ≤ a.cap.elapsed
    rw [h1]
  · intro h
    have hb' := hnil (env ▸ h)
    rw [he, hb']
    exact ⟨by show a.cap.elapsed = s.cap.elapsed; rw [h1], by show a.line = s.line; rw [h1]⟩

/-- What `DISARM` does (R121, R129, R117). -/
theorem disarmed_disarm {s : State} (I : Inv s) : Disarmed s (disarm s) :=
  ⟨fun h => by simp [disarm, h], fun h => by
    simp only [disarm, h]; exact drained_disarmLines (inv_interleave s I)⟩

end Sys2Proof.Machine
end

