-- ==== Sys2Proof/Laws/PerInstr.lean ====
section
/-! SUPPORT. The statements made per instruction: the code byte of every operation is assigned
(spec/30_encoding.md R78 to R80, R82), so no operand record makes the decoder call it reserved. -/

namespace Sys2Proof

/-- Whatever follows the code byte of `i`, the decoder does not refuse it as reserved (R82). -/
def Laws.Assigned.Statement (i : Instr) : Prop :=
  ∀ operands : List Byte, Sys2Proof.decode (i.opcode :: operands) ≠ .error .reservedOpcode

/-- A code the operand reader knows is not reserved. -/
theorem Laws.not_reserved (op : Byte) (operands : List Byte)
    (h : (getOperands op.toNat operands).isSome = true) :
    Sys2Proof.decode (op :: operands) ≠ .error .reservedOpcode := by
  simp only [Sys2Proof.decode]
  split
  · simp_all
  · simp
  · simp

theorem Laws.Assigned.create (pin : U16) :
    Laws.Assigned.Statement (.create pin) := fun _ => Laws.not_reserved _ _ rfl

theorem Laws.Assigned.beginCapture (config : RxConfig) :
    Laws.Assigned.Statement (.beginCapture config) := fun _ => Laws.not_reserved _ _ rfl

theorem Laws.Assigned.finished :
    Laws.Assigned.Statement .finished := fun _ => Laws.not_reserved _ _ rfl

theorem Laws.Assigned.wait (timeoutMs : U32) :
    Laws.Assigned.Statement (.wait timeoutMs) := fun _ => Laws.not_reserved _ _ rfl

theorem Laws.Assigned.decode (profile : TimingProfile) (out : List Byte) :
    Laws.Assigned.Statement (.decode profile out) := fun _ => Laws.not_reserved _ _ rfl

theorem Laws.Assigned.getRawEdgeTimes (dst : List EdgeSample) (offset : U32) :
    Laws.Assigned.Statement (.getRawEdgeTimes dst offset) := fun _ => Laws.not_reserved _ _ rfl

theorem Laws.Assigned.injectEdges (edges : List EdgeSample) :
    Laws.Assigned.Statement (.injectEdges edges) := fun _ => Laws.not_reserved _ _ rfl

theorem Laws.Assigned.destroy :
    Laws.Assigned.Statement .destroy := fun _ => Laws.not_reserved _ _ rfl

theorem Laws.Assigned.arm :
    Laws.Assigned.Statement .arm := fun _ => Laws.not_reserved _ _ rfl

theorem Laws.Assigned.disarm :
    Laws.Assigned.Statement .disarm := fun _ => Laws.not_reserved _ _ rfl

theorem Laws.Assigned.readProgress :
    Laws.Assigned.Statement .readProgress := fun _ => Laws.not_reserved _ _ rfl

theorem Laws.Assigned.syncReads (first : U32) (count : U32) :
    Laws.Assigned.Statement (.syncReads first count) := fun _ => Laws.not_reserved _ _ rfl

theorem Laws.Assigned.completeCapture (reason : EndReason) (status : WaitStatus) :
    Laws.Assigned.Statement (.completeCapture reason status) := fun _ => Laws.not_reserved _ _ rfl

theorem Laws.Assigned.buildEdges :
    Laws.Assigned.Statement .buildEdges := fun _ => Laws.not_reserved _ _ rfl

theorem Laws.Assigned.decodeBit (highNs : U32) (lowNs : U32) (profile : TimingProfile) :
    Laws.Assigned.Statement (.decodeBit highNs lowNs profile) := fun _ => Laws.not_reserved _ _ rfl

theorem Laws.Assigned.decodeEdges (profile : TimingProfile) (edges : List EdgeSample) (out : List Byte) :
    Laws.Assigned.Statement (.decodeEdges profile edges out) := fun _ => Laws.not_reserved _ _ rfl

end Sys2Proof
end

