-- ==== Sys2Proof/Tests/Slice0.lean ====
section
/-! SUPPORT. The model's own tests: the refusals of WellFormed, records written out from
spec/30_encoding.md, one-step checks against spec/95_test_vectors.md, and for each obligation with
hypotheses states and operands that meet them together. -/

namespace Sys2Proof.Tests

open Sys2Proof.Machine Sys2Proof.Spec

/-! ### Helpers -/

/-- The next state of an answer (the state after reset where there is none). -/
def after : Answer → State
  | .next t => t
  | _ => State.reset

/-- `PROF` of spec/95_test_vectors.md section 0. -/
def prof : TimingProfile := ⟨250, 550, 700, 1000, 650, 950, 300, 600, 50, 0⟩

/-- A HIGH edge of `n` ns. -/
def hi (n : U32) : EdgeSample := ⟨true, n⟩

/-- A LOW edge of `n` ns. -/
def lo (n : U32) : EdgeSample := ⟨false, n⟩

/-- `bits(s)` of section 0, for bits. -/
def bits (s : List Bool) : List EdgeSample := pairs 400 850 800 450 s

/-- The invalid pair `X` of section 0. -/
def pairX : List EdgeSample := [hi 400, lo 450]

/-- The bits of a byte, the most significant first. -/
def byteBits (n : Nat) : List Bool := (List.range 8).map fun i => n.testBit (7 - i)

/-- After `CREATE 5`. -/
def idle : State := after (exec (.create 5) State.reset)

/-- A capture of capacity 4: one sample moved, `c0` at 100. -/
def capturing : State :=
  { idle with
    ch := { idle.ch with
      state := .capturing, cfg := ⟨2, 50000, true⟩, cfgWritten := true, capacity := 4,
      bufAllocated := true }
    cap := {
      c0 := 100, elapsed := 144000000000, configured := true, route := pinRecord idle.plat 5,
      captureReg := 180, armed := true, lastK := 80, latchAt := 80000000000 }
    xfer := { length := 4, progress := 1, enabled := true, pending := [], attached := true }
    irq := { enabled := true, pending := false, isrRunning := false }
    mem := [(0, 180)]
    vis := [.fresh, .fresh, .fresh, .fresh]
    held := true
    clk := { now := 1000, draws := [] } }

/-- The same on a platform whose caches are not coherent. -/
def stalePlat : Platform := { Platform.fixture with cacheCoherent := false }

def capturingStale : State :=
  { capturing with plat := stalePlat, vis := [.stale, .fresh, .fresh, .fresh] }

/-- A sample latched 16 ticks ago at tick 144, and pending. -/
def pendingOne : State :=
  { capturing with
    cap := { capturing.cap with
      captureReg := 244, lastK := 144, elapsed := 145000000000, latchAt := 144000000000 }
    xfer := { capturing.xfer with pending := [244] } }

/-- One sample short of buffer full, that sample pending. -/
def almostFull : State :=
  { pendingOne with
    xfer := { pendingOne.xfer with progress := 3 }
    mem := [(0, 180), (2, 212), (4, 240)] }

/-- Buffer full, the ISR not yet run. -/
def full : State := after (.next (xferStep almostFull))

/-- Buffer full, the ISR run. -/
def signalled : State := after (.next (isrStep full))

/-- A `WAIT` of 1 ms entered at 1000 us, no poll yet. -/
def waiting (s : State) (now : U64) : State :=
  { s with
    wait := some {
      tStart := 1000, deadlineUs := 1000, lastProgress := 1, tLast := 1000, result := .timeout,
      wakeAt := 1000 }
    clk := { now := now, draws := [] } }

/-- A completed capture of three samples at 0x20 and 0x60 ticks apart, the cache not built. -/
def complete : State :=
  { idle with
    ch := { idle.ch with
      state := .complete, cfg := ⟨2, 50000, true⟩, cfgWritten := true, capacity := 4, nSamples := 3,
      completionReason := .inactivity, bufAllocated := true }
    xfer := { length := 4, progress := 3, enabled := false, pending := [], attached := true }
    mem := [(2, 0x20), (4, 0x60)]
    vis := [.fresh, .fresh, .fresh, .fresh] }

/-- The same with the cache built. -/
def cached : State :=
  { complete with ch := { complete.ch with edges := [hi 400, lo 800], edgesValid := true } }

/-- After `INJECT_EDGES` of one pair. -/
def injected : State := after (exec (.injectEdges [hi 400, lo 850]) idle)

/-- After `DESTROY`. -/
def destroyed : State := after (exec .destroy idle)

/-- The block issues the next operation. -/
def block (s : State) : State := { s with issuer := .block }

/-- A mock backend after `CREATE 5`. -/
def mock : State := { idle with plat := { Platform.fixture with backend := .mock } }

/-! ### A check of the invariant on small states -/

/-- `Inv` as a Boolean check. -/
def invCheck (s : State) : Bool :=
  let quiet := !s.cap.armed && !s.xfer.enabled && s.xfer.pending.isEmpty && !s.irq.enabled
    && !s.irq.pending && !s.irq.isrRunning
  Memory.wf s.mem
  && s.mem.all (fun c => s.byteExists c.1)
  && decide (s.ch.capacity ≤ Config.maxSlots)
  && decide (s.vis.length = s.ch.capacity)
  && (s.ch.bufAllocated || decide (s.ch.capacity = 0))
  && (s.created || decide (s.ch.state = .idle))
  && decide (s.ch.state ≠ .configured)
  && (decide (s.ch.state ≠ .capturing)
    || (s.ch.bufAllocated && s.ch.cfgWritten && decide (s.xfer.progress ≤ s.ch.capacity)))
  && (decide (s.ch.state = .capturing) || quiet)
  && (decide (s.plat.backend ≠ .mock)
    || (quiet && decide (s.xfer.progress = 0) && !s.completion))
  && (!s.xfer.enabled || decide (s.xfer.progress < s.xfer.length))
  && (s.xfer.enabled || s.xfer.pending.isEmpty)
  && decide (s.xfer.pending.length ≤ 2)
  && s.xfer.pending.all (fun v => decide (v.toNat < 2 ^ s.plat.counterBits))
  && decide (s.cap.c0.toNat < 2 ^ s.plat.counterBits)
  && decide (s.cap.captureReg.toNat < 2 ^ s.plat.counterBits)
  && decide (s.cap.lastK ≤ s.cap.elapsed / 1000000000 + 1)
  && decide (s.cap.latchAt ≤ s.cap.elapsed)
  && (!s.ch.bufAllocated || (List.range s.ch.capacity).all fun i =>
    decide (i < s.xfer.progress) || decide (slotValue s i = 0#32))
  && (decide (s.ch.state ≠ .capturing) || decide (s.plat.backend ≠ .hardware)
    || decide (s.xfer.length = s.ch.capacity))
  && (decide (s.ch.state ≠ .capturing) || !(s.irq.pending || s.irq.isrRunning || s.completion)
    || decide (s.xfer.progress = s.ch.capacity))
  && (decide (s.ch.state ≠ .complete) || decide (s.ch.completionReason ≠ .none))
  && (!s.ch.edgesValid || decide (s.ch.state = .complete))
  && decide (s.ch.edges.length ≤ max (Config.maxSlots - 1) s.plat.maxEdges)
  && (decide (s.ch.state ≠ .complete) || s.ch.edgesValid
    || (s.ch.bufAllocated && decide (s.ch.nSamples ≤ s.ch.capacity)
      && (List.range s.ch.nSamples).all fun i => decide (slotVisibility s i = .fresh)))
  && match s.wait with
    | none => true
    | some r => decide (s.ch.state = .capturing) && decide (r.tStart.toNat ≤ s.clk.now.toNat)
      && decide (r.tLast.toNat ≤ s.clk.now.toNat)
      && decide (r.wakeAt ≤ r.tStart.toNat + r.deadlineUs)

/-- A state that passes the check has the invariant. -/
theorem inv_of_check (s : State) (h : invCheck s = true) : Inv s := by
  simp only [invCheck, Bool.and_eq_true, Bool.or_eq_true, decide_eq_true_eq, Bool.not_eq_true',
    List.all_eq_true, List.isEmpty_iff, List.mem_range] at h
  obtain ⟨⟨⟨⟨⟨⟨⟨⟨⟨⟨⟨⟨⟨⟨⟨⟨⟨⟨⟨⟨⟨⟨⟨⟨⟨h1, h2⟩, h3⟩, h4⟩, h5⟩, h6⟩, h7⟩, h8⟩, h9⟩, h10⟩, h11⟩, h12⟩, h13⟩,
    h14⟩, h15⟩, h16⟩, h17⟩, h18⟩, h19⟩, h20⟩, h21⟩, h22⟩, h23⟩, h24⟩, h25⟩, h26⟩ := h
  have quiet : (((((s.cap.armed = false ∧ s.xfer.enabled = false) ∧ s.xfer.pending = [])
      ∧ s.irq.enabled = false) ∧ s.irq.pending = false) ∧ s.irq.isrRunning = false) → Quiet s :=
    fun q => ⟨q.1.1.1.1.1, q.1.1.1.1.2, q.1.1.1.2, q.1.1.2, q.1.2, q.2⟩
  constructor
  case memWf => exact h1
  case memInBuf => exact h2
  case capacityLe => exact h3
  case visLength => exact h4
  case noBuf => intro h; exact h5.resolve_left (by simp [h])
  case noChannel => intro h; exact h6.resolve_left (by simp [h])
  case notConfigured => exact h7
  case capturing =>
    intro h
    have := h8.resolve_left (by simp [h])
    exact ⟨this.1.1, this.1.2, this.2⟩
  case quiet => intro h; exact quiet (h9.resolve_left h)
  case mock =>
    intro h
    have := h10.resolve_left (by simp [h])
    exact ⟨quiet this.1.1, this.1.2, this.2⟩
  case transferring => intro h; exact h11.resolve_left (by simp [h])
  case pendingServed => intro h; exact h12.resolve_left (by simp [h])
  case pendingLe => exact h13
  case pendingFit => exact h14
  case startFit => exact h15
  case captureFit => exact h16
  case tickBound => exact h17
  case latched => exact h18
  case tailClear =>
    intro h i h' h''
    exact ((h19.resolve_left (by simp [h])) i h'').resolve_left (by omega)
  case lengthEq =>
    intro h h'
    exact h20.resolve_left (by simp [h, h'])
  case fullSignal =>
    intro h h'
    refine h21.resolve_left ?_
    simp only [h, ne_eq, not_true_eq_false, false_or, Bool.or_eq_false_iff, not_and]
    rcases h' with h' | h' | h' <;> simp [h']
  case reason => intro h; exact h22.resolve_left (by simp [h])
  case cacheComplete => intro h; exact h23.resolve_left (by simp [h])
  case cacheLength => exact h24
  case readable =>
    intro h h'
    have := h25.resolve_left (by simp [h, h'])
    exact ⟨this.1.1, this.1.2, this.2⟩
  case waiting =>
    intro r hr
    rw [hr] at h26
    simp only [Bool.and_eq_true, decide_eq_true_eq] at h26
    exact ⟨h26.1.1.1, ⟨h26.1.1.2, h26.1.2, h26.2⟩⟩

theorem inv_idle : Inv idle := inv_of_check _ (by decide)
theorem inv_capturing : Inv capturing := inv_of_check _ (by decide)
theorem inv_capturingStale : Inv capturingStale := inv_of_check _ (by decide)
theorem inv_pendingOne : Inv pendingOne := inv_of_check _ (by decide)
theorem inv_almostFull : Inv almostFull := inv_of_check _ (by decide)
theorem inv_full : Inv full := inv_of_check _ (by decide)
theorem inv_signalled : Inv signalled := inv_of_check _ (by decide)
theorem inv_complete_ : Inv complete := inv_of_check _ (by decide)
theorem inv_cached : Inv cached := inv_of_check _ (by decide)
theorem inv_injected : Inv injected := inv_of_check _ (by decide)
theorem inv_destroyed : Inv destroyed := inv_of_check _ (by decide)
theorem inv_mock : Inv mock := inv_of_check _ (by decide)
theorem inv_reset : Inv State.reset := inv_of_check _ (by decide)

/-! ### WellFormed: each check refuses an ill-formed term -/

theorem test_wellFormed_decode_out :
    (Instr.decode prof (List.replicate (2 ^ 32) 0)).wellFormed = false := by
  simp only [Instr.wellFormed, fitsU32, List.length_replicate]; decide

theorem test_wellFormed_getRaw_dst :
    (Instr.getRawEdgeTimes (List.replicate (2 ^ 32) (lo 0)) 0).wellFormed = false := by
  simp only [Instr.wellFormed, fitsU32, List.length_replicate]; decide

theorem test_wellFormed_inject_edges :
    (Instr.injectEdges (List.replicate (2 ^ 32) (lo 0))).wellFormed = false := by
  simp only [Instr.wellFormed, fitsU32, List.length_replicate]; decide

theorem test_wellFormed_decodeEdges_edges :
    (Instr.decodeEdges prof (List.replicate (2 ^ 32) (lo 0)) []).wellFormed = false := by
  simp only [Instr.wellFormed, fitsU32, List.length_replicate]; decide

theorem test_wellFormed_decodeEdges_out :
    (Instr.decodeEdges prof [] (List.replicate (2 ^ 32) 0)).wellFormed = false := by
  simp only [Instr.wellFormed, fitsU32, List.length_replicate]; decide

/-- The greatest length that fits is accepted. -/
theorem test_wellFormed_greatest :
    (Instr.injectEdges (List.replicate (2 ^ 32 - 1) (lo 0))).wellFormed = true := by
  simp only [Instr.wellFormed, fitsU32, List.length_replicate]; decide

/-! ### Records written out from R76 and R78 to R80 -/

/-- CREATE 5: code 0x01, F_PIN, u16. -/
theorem test_decode_create : Sys2Proof.decode
    [0x01, 0x05, 0x00]
    = .ok (.create 5) := by decide

/-- The high byte of the pin counts. -/
theorem test_decode_create_high : Sys2Proof.decode
    [0x01, 0x34, 0x12]
    = .ok (.create 0x1234) := by decide

/-- BEGIN: code 0x02, F_CFG, buffer_size, signal_range_max_ns, start_low. -/
theorem test_decode_begin : Sys2Proof.decode
    [0x02, 0x18, 0x00, 0x00, 0x00, 0x50, 0xC3, 0x00, 0x00, 0x01]
    = .ok (.beginCapture ⟨24, 50000, true⟩) := by decide

/-- FINISHED: code 0x03, F_NONE. -/
theorem test_decode_finished : Sys2Proof.decode
    [0x03]
    = .ok (.finished) := by decide

/-- WAIT: code 0x04, F_TMO, u32. -/
theorem test_decode_wait : Sys2Proof.decode
    [0x04, 0x78, 0x56, 0x34, 0x12]
    = .ok (.wait 0x12345678) := by decide

/-- DECODE: code 0x05, F_DEC, profile and out[2]. -/
theorem test_decode_decode : Sys2Proof.decode
    [0x05, 0xFA, 0x00, 0x00, 0x00, 0x26, 0x02, 0x00, 0x00, 0xBC, 0x02, 0x00, 0x00, 0xE8, 0x03,
      0x00, 0x00, 0x8A, 0x02, 0x00, 0x00, 0xB6, 0x03, 0x00, 0x00, 0x2C, 0x01, 0x00, 0x00, 0x58,
      0x02, 0x00, 0x00, 0x32, 0x00, 0x00, 0x00, 0x00, 0x00, 0x00, 0x00, 0x02, 0x00, 0x00, 0x00,
      0x07, 0x09]
    = .ok (.decode prof [7, 9]) := by decide

/-- GET_RAW_EDGE_TIMES: code 0x06, F_RAW, dst[1] and offset. -/
theorem test_decode_get_raw_edge_times : Sys2Proof.decode
    [0x06, 0x01, 0x00, 0x00, 0x00, 0x00, 0x01, 0x00, 0x00, 0x00, 0x0F, 0x00, 0x00, 0x00]
    = .ok (.getRawEdgeTimes [lo 1] 15) := by decide

/-- INJECT_EDGES: code 0x07, F_EDG. -/
theorem test_decode_inject_edges : Sys2Proof.decode
    [0x07, 0x02, 0x00, 0x00, 0x00, 0x01, 0x90, 0x01, 0x00, 0x00, 0x00, 0x52, 0x03, 0x00, 0x00]
    = .ok (.injectEdges [hi 400, lo 850]) := by decide

/-- DESTROY: code 0x08, F_NONE. -/
theorem test_decode_destroy : Sys2Proof.decode
    [0x08]
    = .ok (.destroy) := by decide

/-- ARM: code 0x10, F_NONE. -/
theorem test_decode_arm : Sys2Proof.decode
    [0x10]
    = .ok (.arm) := by decide

/-- DISARM: code 0x11, F_NONE. -/
theorem test_decode_disarm : Sys2Proof.decode
    [0x11]
    = .ok (.disarm) := by decide

/-- READ_PROGRESS: code 0x12, F_NONE. -/
theorem test_decode_read_progress : Sys2Proof.decode
    [0x12]
    = .ok (.readProgress) := by decide

/-- SYNC_READS: code 0x13, F_RNG, first and count. -/
theorem test_decode_sync_reads : Sys2Proof.decode
    [0x13, 0x03, 0x00, 0x00, 0x00, 0x0A, 0x00, 0x00, 0x00]
    = .ok (.syncReads 3 10) := by decide

/-- COMPLETE_CAPTURE: code 0x14, F_RSN, reason and status by their codes of R177. -/
theorem test_decode_complete_capture : Sys2Proof.decode
    [0x14, 0x02, 0x00]
    = .ok (.completeCapture .inactivity .success)
    ∧ Sys2Proof.decode [0x14, 0x03, 0x01] = .ok (.completeCapture .timeout .timeout) := by decide

/-- BUILD_EDGES: code 0x20, F_NONE. -/
theorem test_decode_build_edges : Sys2Proof.decode
    [0x20]
    = .ok (.buildEdges) := by decide

/-- DECODE_BIT: code 0x30, F_BIT, high_ns, low_ns, profile. -/
theorem test_decode_decode_bit : Sys2Proof.decode
    [0x30, 0x90, 0x01, 0x00, 0x00, 0x52, 0x03, 0x00, 0x00, 0xFA, 0x00, 0x00, 0x00, 0x26, 0x02,
      0x00, 0x00, 0xBC, 0x02, 0x00, 0x00, 0xE8, 0x03, 0x00, 0x00, 0x8A, 0x02, 0x00, 0x00, 0xB6,
      0x03, 0x00, 0x00, 0x2C, 0x01, 0x00, 0x00, 0x58, 0x02, 0x00, 0x00, 0x32, 0x00, 0x00, 0x00,
      0x00, 0x00, 0x00, 0x00]
    = .ok (.decodeBit 400 850 prof) := by decide

/-- DECODE_EDGES: code 0x31, F_DE, profile, edges, out[1]. -/
theorem test_decode_decode_edges : Sys2Proof.decode
    [0x31, 0xFA, 0x00, 0x00, 0x00, 0x26, 0x02, 0x00, 0x00, 0xBC, 0x02, 0x00, 0x00, 0xE8, 0x03,
      0x00, 0x00, 0x8A, 0x02, 0x00, 0x00, 0xB6, 0x03, 0x00, 0x00, 0x2C, 0x01, 0x00, 0x00, 0x58,
      0x02, 0x00, 0x00, 0x32, 0x00, 0x00, 0x00, 0x00, 0x00, 0x00, 0x00, 0x01, 0x00, 0x00, 0x00,
      0x01, 0x90, 0x01, 0x00, 0x00, 0x01, 0x00, 0x00, 0x00, 0x03]
    = .ok (.decodeEdges prof [hi 400] [3]) := by decide

/-- The table's word of each row, operands of zeros, decodes to the row's operation. The zero record of
0x14 is none: its reason is None (R177), which no `F_RSN` record holds (R76). -/
theorem test_table_words :
    decodeTableWord 8 0x01 = some (.create 0)
    ∧ decodeTableWord 8 0x02 = some (.beginCapture ⟨0, 0, false⟩)
    ∧ decodeTableWord 8 0x03 = some .finished
    ∧ decodeTableWord 8 0x04 = some (.wait 0)
    ∧ decodeTableWord 8 0x05 = some (.decode ⟨0, 0, 0, 0, 0, 0, 0, 0, 0, 0⟩ [])
    ∧ decodeTableWord 8 0x06 = some (.getRawEdgeTimes [] 0)
    ∧ decodeTableWord 8 0x07 = some (.injectEdges [])
    ∧ decodeTableWord 8 0x08 = some .destroy := by decide

theorem test_table_words_internal :
    decodeTableWord 8 0x10 = some .arm
    ∧ decodeTableWord 8 0x11 = some .disarm
    ∧ decodeTableWord 8 0x12 = some .readProgress
    ∧ decodeTableWord 8 0x13 = some (.syncReads 0 0)
    ∧ decodeTableWord 8 0x14 = none
    ∧ decodeTableWord 24 0x000114 = some (.completeCapture .bufferFull .success)
    ∧ decodeTableWord 8 0x20 = some .buildEdges
    ∧ decodeTableWord 8 0x30 = some (.decodeBit 0 0 ⟨0, 0, 0, 0, 0, 0, 0, 0, 0, 0⟩)
    ∧ decodeTableWord 8 0x31 = some (.decodeEdges ⟨0, 0, 0, 0, 0, 0, 0, 0, 0, 0⟩ [] []) := by
  decide

/-- R82: the codes spec/95_test_vectors.md section 2.1 lists are reserved. -/
theorem test_reserved_codes :
    [0x00, 0x09, 0x0F, 0x15, 0x1F, 0x21, 0x2F, 0x32, 0xFF].all (fun op =>
      decide (Sys2Proof.decode [op] = .error .reservedOpcode)) = true := by decide

/-- R83: a missing operand, a truth value of 2, a byte left over, a list shorter than its length. -/
theorem test_malformed_records :
    Sys2Proof.decode [0x04] = .error .malformedOperands
    ∧ Sys2Proof.decode [0x02, 0, 0, 0, 0, 0, 0, 0, 0, 2] = .error .malformedOperands
    ∧ Sys2Proof.decode [0x03, 0] = .error .malformedOperands
    ∧ Sys2Proof.decode [0x07, 2, 0, 0, 0, 1, 0x90, 1, 0, 0] = .error .malformedOperands
    ∧ Sys2Proof.decode [0x14, 0, 0] = .error .malformedOperands
    ∧ Sys2Proof.decode [0x14, 4, 0] = .error .malformedOperands
    ∧ Sys2Proof.decode [] = .error .malformedOperands := by decide

/-- The very next step of a state with a placed word runs it: `DECODE_BIT` of zeros needs no channel. -/
theorem test_withFetchWord :
    (after (step (State.reset.withFetchWord 8 0x30))).result = .bit .zero
    ∧ (after (step (State.reset.withFetchWord 8 0x03))).result = .refused .noChannel := by decide

/-! ### One step of each operation, expected values from spec/95_test_vectors.md -/

/-- Section 2.6: every element as in R50, the pin 5. -/
theorem test_create : idle.ch.pin = 5 ∧ idle.ch.state = .idle ∧ idle.created = true
    ∧ idle.cap.armed = false ∧ idle.refused = false := by decide

/-- Section 2.6: `CREATE 5` twice. -/
theorem test_create_twice : (after (exec (.create 5) idle)).result = .refused .alreadyCreated := by
  decide

/-- Section 2.2: `BEGIN {24, 50000, true}`. -/
theorem test_begin :
    let t := after (exec (.beginCapture ⟨24, 50000, true⟩) idle)
    t.result = .bool true ∧ t.ch.state = .capturing ∧ t.ch.capacity = 48 ∧ t.xfer.length = 48
      ∧ t.xfer.progress = 0 ∧ t.completion = false ∧ slotValue t 47 = 0 := by decide

/-- Section 2.2: on `CREATE 9`, `BEGIN {0, 50000, true}`: the pin is checked first. -/
theorem test_begin_pin_first :
    let t := after (exec (.beginCapture ⟨0, 50000, true⟩) { idle with ch := { idle.ch with pin := 9 } })
    t.result = .bool false ∧ t.ch.lastError = .unsupportedPin ∧ t.ch.state = .idle := by decide

/-- S10: the capacities, the greatest buffer size among them. -/
theorem test_capacity : capacityFor 1 = 2 ∧ capacityFor 24 = 48 ∧ capacityFor 4095 = 8190
    ∧ capacityFor 4096 = 8192 ∧ capacityFor 5000 = 8192 ∧ capacityFor 4294967295 = 8192 := by decide

/-- Section 2.2: capacity 4, 4 edges recorded, ISR run: `FINISHED` is true, the state still Capturing. -/
theorem test_finished :
    let t := after (exec .finished signalled)
    t.result = .bool true ∧ t.ch.state = .capturing ∧ t.xfer.progress = 4 := by decide

/-- Section 2.2: the same before the ISR: false. -/
theorem test_finished_before_isr : (after (exec .finished full)).result = .bool false := by decide

/-- Section 2.2: `WAIT 100` in Idle: Timeout at once. -/
theorem test_wait_idle :
    let t := after (exec (.wait 100) idle)
    t.result = .waitStatus .timeout ∧ t.wait = none := by decide

/-- Section 2.2: buffer full and ISR run before the first poll, `WAIT 0`: Success, BufferFull. -/
theorem test_wait_full :
    let t := after (step (after (exec (.wait 0) signalled)))
    t.result = .waitStatus .success ∧ t.ch.completionReason = .bufferFull ∧ t.ch.nSamples = 4 := by
  decide

/-- Section 2.2: buffer full, the ISR not run, signal range 0, the clock 1 us past the entry: Success,
Inactivity, the interrupt cleared, the signal still false. -/
theorem test_poll_full_no_isr :
    let s := { full with ch := { full.ch with cfg := ⟨2, 0, true⟩ } }
    let w := after (exec (.wait 10) s)
    let t := after (step { w with clk := { w.clk with now := 1001 } })
    t.result = .waitStatus .success ∧ t.ch.completionReason = .inactivity
      ∧ t.irq.pending = false ∧ t.completion = false ∧ t.ch.nSamples = 4 := by decide

/-- S4: 19 valid pairs and one invalid one. -/
theorem test_decode :
    let edges := bits (byteBits 0xA5 |>.take 7) ++ pairX ++ bits (byteBits 0xAA ++ [false, true, false, true])
    let s := after (exec (.injectEdges edges) idle)
    let t := after (exec (.decode prof [0, 0, 0, 0]) s)
    t.result = .decoded (.ok 3) [0xA5, 0x54, 0xA0, 0] ∧ t.ch.lastStats = ⟨20, 1⟩ := by decide

/-- Section 2.4, S11: the samples 0, 0x20, 0x60 give H400, L800; decoding a completed capture builds
the cache and leaves the capture as it was. -/
theorem test_decode_builds :
    let t := after (exec (.decode prof []) complete)
    t.ch.edges = [hi 400, lo 800] ∧ t.ch.edgesValid = true ∧ t.ch.nSamples = 3 := by decide +kernel

/-- Section 2.4: `GET_RAW_EDGE_TIMES dst[2], 1` on the cache `[H400, L800, H800]`. -/
theorem test_getRawEdgeTimes :
    (after (exec (.getRawEdgeTimes [lo 1, lo 2] 1)
      (after (exec (.injectEdges [hi 400, lo 800, hi 800]) idle)))).result
      = .copied 2 [lo 800, hi 800] := by decide

/-- Section 2.4: `GET_RAW_EDGE_TIMES dst[0], 0` in Capturing: 0, the channel Complete, the cache
built. -/
theorem test_getRawEdgeTimes_capturing :
    let t := after (exec (.getRawEdgeTimes [] 0) capturing)
    t.result = .copied 0 [] ∧ t.ch.state = .complete ∧ t.ch.edgesValid = true := by decide

/-- Section 2.2: `INJECT_EDGES [H400, L850]` in Capturing: disarmed, Complete, no samples. -/
theorem test_injectEdges :
    let t := after (exec (.injectEdges [hi 400, lo 850]) pendingOne)
    t.result = .bool true ∧ t.ch.state = .complete ∧ t.ch.nSamples = 0 ∧ t.cap.armed = false
      ∧ t.xfer.progress = 2 ∧ t.ch.completionReason = .injected := by decide

/-- Section 2.2: `DESTROY` in Capturing. -/
theorem test_destroy :
    let t := after (exec .destroy capturing)
    t.ch.bufAllocated = false ∧ t.ch.capacity = 0 ∧ t.ch.state = .destroyed ∧ t.cap.armed = false
      ∧ t.xfer.enabled = false := by decide

/-- Section 2.2: after `DESTROY`, `FINISHED`, `DESTROY` and `CREATE 5` are refused. -/
theorem test_after_destroy :
    (after (exec .finished destroyed)).result = .refused .useAfterDestroy
    ∧ (after (exec .destroy destroyed)).result = .refused .useAfterDestroy
    ∧ (after (exec (.create 5) destroyed)).result = .refused .useAfterDestroy := by decide

/-- Section 2.3: `ARM` after capacity 48. -/
theorem test_arm :
    let t := after (exec .arm (block { idle with ch := { idle.ch with capacity := 48 }
                                                 completion := true }))
    t.xfer.length = 48 ∧ t.xfer.progress = 0 ∧ t.xfer.pending = [] ∧ t.irq.enabled = true
      ∧ t.irq.pending = false ∧ t.completion = false ∧ t.cap.armed = true := by decide

/-- Section 2.1: `ARM` and `BUILD_EDGES` issued by the caller. -/
theorem test_internal_refused :
    (after (exec .arm capturing)).result = .refused .internalOperation
    ∧ (after (exec .buildEdges complete)).result = .refused .internalOperation := by decide

/-- Section 2.3: `DISARM` with one sample pending writes its slot. -/
theorem test_disarm :
    let t := after (exec .disarm (block pendingOne))
    slotValue t 1 = 244 ∧ t.xfer.progress = 2 ∧ t.cap.armed = false ∧ t.xfer.enabled = false
      ∧ t.irq.enabled = false := by decide

/-- Section 2.3: `READ_PROGRESS` after one transfer step. -/
theorem test_readProgress : (after (exec .readProgress (block capturing))).result = .progress 1 := by
  decide

/-- Section 2.3: a Stale slot reads as the sample after `SYNC_READS`. -/
theorem test_syncReads :
    slotVisibility capturingStale 0 = .stale
    ∧ slotVisibility (after (exec (.syncReads 0 1) (block capturingStale))) 0 = .fresh := by decide

/-- R103: the count is latched after the drain. -/
theorem test_completeCapture :
    let t := after (exec (.completeCapture .timeout .timeout) (block pendingOne))
    t.result = .waitStatus .timeout ∧ t.ch.nSamples = 2 ∧ t.ch.completionReason = .timeout
      ∧ t.ch.state = .complete := by decide

/-- Section 2.4: the rows of the edge builder's table, the gaps and the wrap among them. -/
theorem test_buildEdges :
    edgesOf Platform.fixture [0x0000, 0x0020, 0x0060, 0x00A0] = [hi 400, lo 800, hi 800]
    ∧ edgesOf Platform.fixture [0x0000, 0x0020, 0x1000, 0x2000, 0x2020, 0x2064]
      = [hi 400, hi 400, lo 850]
    ∧ edgesOf Platform.fixture [0xFFF0, 0x0010] = [hi 400]
    ∧ edgesOf Platform.fixture [0x0000, 0x0190] = [hi 5000]
    ∧ edgesOf Platform.fixture [0x0000, 0x0191] = [] := by decide +kernel

theorem test_buildEdges_exec :
    (after (exec .buildEdges (block complete))).ch.edges = [hi 400, lo 800] := by decide +kernel

/-- Section 2.5: the bounds of the windows and the overlap. -/
theorem test_decodeBit :
    classify 550 1000 prof = .zero ∧ classify 250 700 prof = .zero ∧ classify 650 300 prof = .one
    ∧ classify 950 600 prof = .one ∧ classify 551 850 prof = .invalid
    ∧ classify 249 850 prof = .invalid ∧ classify 400 1001 prof = .invalid
    ∧ classify 800 299 prof = .invalid ∧ classify 649 450 prof = .invalid
    ∧ classify 500 500 ⟨300, 900, 300, 900, 300, 900, 300, 900, 50, 0⟩ = .zero := by decide

/-- S6: two bytes written, then the overflow at the last pair. -/
theorem test_decodeEdges_overflow :
    (after (exec (.decodeEdges prof (bits (byteBits 0x12 ++ byteBits 0x34 ++ byteBits 0x56)) [0, 0])
      State.reset)).result = .decodedEdges (.err .bufferOverflow) 24 0 [0x12, 0x34] := by decide

/-- Section 2.5: HIGH followed by HIGH discards one edge; a partial byte is flushed left-aligned. -/
theorem test_decodeEdges :
    (after (exec (.decodeEdges prof ([hi 400, hi 800, lo 450] ++ bits ((byteBits 0xA5).drop 1))
      [9, 9]) State.reset)).result = .decodedEdges (.ok 1) 8 0 [0xA5, 9]
    ∧ (after (exec (.decodeEdges prof (bits (byteBits 0xA5 ++ [true, false, true])) [0, 0, 0, 0])
      State.reset)).result = .decodedEdges (.ok 2) 11 0 [0xA5, 0xA0, 0, 0] := by decide

/-! ### The other agents, expected values from section 2.3 and 2.6 -/

/-- An edge 1000 ns after arm with `c0 = 0`: 0x50 or 0x51. -/
theorem test_edge :
    let s := { capturing with cap := { capturing.cap with
      c0 := 0, elapsed := 80000000000, lastK := 0, latchAt := 0 } }
    (edgeStep false .replace s).xfer.pending = [0x50]
    ∧ (edgeStep true .replace s).xfer.pending = [0x51] := by decide

/-- Edges at ticks 144 and 146 while the first is pending: Replace or Duplicate. -/
theorem test_overrun :
    let s := { pendingOne with cap := { pendingOne.cap with
      c0 := 0, elapsed := 146000000000 }, xfer := { pendingOne.xfer with pending := [0x90] } }
    (edgeStep false .replace s).xfer.pending = [0x92]
    ∧ (edgeStep false .duplicate s).xfer.pending = [0x92, 0x92] := by decide

/-- The transfer that fills the buffer, then the ISR step. -/
theorem test_bufferFull :
    full.xfer.progress = 4 ∧ full.xfer.enabled = false ∧ full.irq.pending = true
    ∧ full.completion = false ∧ signalled.irq.pending = false ∧ signalled.completion = true
    ∧ signalled.irq.isrRunning = false := by decide

/-- R7, R97, R121: two edges between a poll's reading of the progress and its `DISARM`, one transferred
and one still pending there: the wait ends with Inactivity and both samples are counted. -/
theorem test_edges_inside_a_poll :
    let s := { waiting capturing 1051 with env := { otherHeld := [], during := [[],
      [.edge false .replace, .transfer, .elapse 9000000000, .edge false .replace], []] } }
    let t := after (step s)
    t.result = .waitStatus .success ∧ t.ch.completionReason = .inactivity ∧ t.ch.nSamples = 3
      ∧ slotValue t 1 = 244 ∧ slotValue t 2 = 253 ∧ t.env.during = [] := by decide

/-- R7, R95: an edge transferred between a poll's reading of the signal and that of the progress is
progress, so the poll sleeps. -/
theorem test_edge_before_the_progress :
    let s := { waiting capturing 1051 with env := { otherHeld := [], during := [
      [.edge false .replace, .transfer]] } }
    let t := after (step s)
    t.ch.state = .capturing ∧ (t.wait.map (·.lastProgress)) = some 2
      ∧ (t.wait.map (·.tLast)) = some 1051 := by decide

/-- R121, R181: an interrupt the drain raises is lost at the mask line, or is entered before it. -/
theorem test_isr_at_the_mask :
    (after (exec .disarm (block almostFull))).completion = false
    ∧ (after (exec .disarm (block { almostFull with
        env := { otherHeld := [], during := [[], [.isr]] } }))).completion = true
    ∧ (after (exec .disarm (block { almostFull with
        env := { otherHeld := [], during := [[], [.isrEntry]] } }))).completion = true := by decide

/-- R46: the clock reads a `u64` and does not wrap. -/
theorem test_clock : clockAfter 5 7 = 12 ∧ clockAfter 0xFFFFFFFFFFFFFFFF 1 = 0xFFFFFFFFFFFFFFFF := by
  decide

/-! ### Witnesses: for each obligation with hypotheses, states and operands that meet them -/

theorem can_issue (s : State) (h : s.issuer = .caller ∧ s.created = true ∧ s.ch.state ≠ .destroyed) :
    CanIssue s := ⟨by rw [h.1]; decide, h.2.1, h.2.2⟩

theorem block_issues (s : State)
    (h : s.issuer = .block ∧ s.created = true ∧ s.ch.state ≠ .destroyed) : BlockIssues s :=
  ⟨h.1, h.2.1, h.2.2⟩

/-- `ReservedCodesAreRefused`, at the codes beside an assigned one. -/
theorem test_witness_ReservedCodesAreRefused :
    [0x00, 0x09, 0x0F, 0x15, 0x1F, 0x21, 0x2F, 0x32, 0xFF].all (fun op =>
      decide (op ∉ codes)) = true
    ∧ ForegroundTurn { State.reset with ops := [[0x09]] } { State.reset with ops := [[0x09]] }
    ∧ State.reset.wait = none :=
  ⟨by decide, .inl ⟨rfl, rfl⟩, by decide⟩

/-- `DecodeOfEncodeIsTheOperation` and `DecodedRecordsAreEncodings`. -/
theorem test_witness_encoding :
    (Instr.decodeEdges prof [hi 400, lo 0xFFFFFFFF] [0xFF]).wellFormed = true
    ∧ Sys2Proof.decode [0x04, 0xFF, 0xFF, 0xFF, 0xFF] = .ok (.wait 0xFFFFFFFF) := by decide

/-- `StepRunsTheDecodedOperation`: a record that decodes, one that does not, none placed; the moves. -/
theorem test_witness_StepRunsTheDecodedOperation :
    (let s := { idle with ops := [[0x03], [0x04]] };
      ForegroundTurn s s ∧ s.wait = none ∧ s.ops = [0x03] :: [[0x04]]
      ∧ Sys2Proof.decode [0x03] = .ok .finished)
    ∧ (let s := { idle with ops := [[0x04]], sched := [.clock 1] };
      ForegroundTurn { s with sched := [.foreground, .clock 1] } s ∧ s.wait = none
      ∧ s.ops = [0x04] :: [] ∧ Sys2Proof.decode [0x04] = .error .malformedOperands)
    ∧ (ForegroundTurn idle idle ∧ idle.wait = none ∧ idle.ops = [])
    ∧ ({ capturing with sched := [.hardware .isr] } : State).sched = .hardware .isr :: []
    ∧ ({ capturing with sched := [.during [.isr]] } : State).sched = .during [.isr] :: []
    ∧ capturing.env.during = []
    ∧ ({ capturing with env := { otherHeld := [], during := [[.transfer], []] } } : State).env.during
      = [.transfer] :: [[]]
    ∧ ({ idle with sched := [.clock 1] } : State).sched = .clock 1 :: []
    ∧ ({ idle with sched := [.otherHolds 0 true] } : State).sched = .otherHolds 0 true :: [] :=
  ⟨⟨.inl ⟨rfl, rfl⟩, by decide⟩, ⟨.inr ⟨[.clock 1], rfl, rfl⟩, by decide⟩,
   ⟨.inl ⟨rfl, rfl⟩, by decide⟩, by decide⟩

/-- `StepRunsTheDecodedOperation`, the hardware steps: nothing to transfer, the engine off, no counter
running, time with nothing pending and one unit before the bound. -/
theorem test_witness_hardware_steps :
    capturing.xfer.pending = [] ∧ complete.xfer.enabled = false ∧ idle.cap.configured = false
    ∧ (capturing.cap.configured = true ∧ capturing.xfer.pending = [])
    ∧ (pendingOne.cap.configured = true ∧ pendingOne.xfer.pending ≠ []
      ∧ pendingOne.cap.elapsed + 6999999999 - pendingOne.cap.latchAt
        < pendingOne.plat.captureServiceNs * pendingOne.plat.clockHz)
    ∧ (full.irq.pending = true ∧ full.irq.enabled = true ∧ full.irq.isrRunning = false) := by decide

/-- The clock's move and another channel's (R46, R119). -/
theorem test_moves :
    (after (step { idle with sched := [.clock 3] })).clk.now = idle.clk.now + 3
    ∧ (after (step { idle with sched := [.otherHolds 7 true] })).env.otherHeld = [7]
    ∧ (after (step { idle with
        sched := [.otherHolds 7 false], env := { otherHeld := [7, 8], during := [] } })).env.otherHeld
      = [8] := by decide

/-- `CreateConstructsAnIdleChannel`. -/
theorem test_witness_CreateConstructsAnIdleChannel :
    State.reset.issuer ≠ .interrupt ∧ State.reset.created = false := by decide

/-- `OperationsNeedALiveChannel`: no channel, a destroyed one, a live one; the caller and the block. -/
theorem test_witness_OperationsNeedALiveChannel :
    State.reset.issuer ≠ .interrupt ∧ isPublic .finished = true ∧ State.reset.created = false
    ∧ isInternal .arm = true ∧ (block State.reset).issuer = .block
    ∧ (block State.reset).created = false ∧ destroyed.created = true
    ∧ destroyed.ch.state = .destroyed ∧ (block destroyed).issuer = .block
    ∧ idle.created = true ∧ idle.ch.state ≠ .destroyed := by decide

/-- `CallerMayNotIssueInternalOperations`. -/
theorem test_witness_CallerMayNotIssueInternalOperations :
    isInternal (.syncReads 0 1) = true ∧ capturing.issuer = .caller := by decide

/-- `InterruptContextMayNotIssue`, all three clauses. -/
theorem test_witness_InterruptContextMayNotIssue :
    let s := { capturing with issuer := .interrupt }
    let t := { capturing with sched := [.handlerOp [0x08], .hardware .isr] }
    s.issuer = .interrupt ∧ Sys2Proof.decode [0x08] = .ok .destroy
    ∧ t.sched = .handlerOp [0x08] :: [.hardware .isr]
    ∧ Sys2Proof.decode [0x09] = .error .reservedOpcode
    ∧ ({ t with sched := [.handlerOp [0x09]] } : State).sched = .handlerOp [0x09] :: [] := by decide

/-- The configurations `BEGIN` accepts, the least and the greatest buffer size among them. -/
theorem begin_accepts (s : State) (h : s.plat = Platform.fixture ∧ s.ch.pin = 5)
    (hb : resourceBusy s = false) (c : RxConfig) (hc : c.startLow = true ∧ c.bufferSize ≠ 0) :
    c.startLow = true ∧ c.bufferSize ≠ 0 ∧ bufferPlaced s.plat = true
    ∧ pinSupported s.plat s.ch.pin = true ∧ resourceBusy s = false := by
  refine ⟨hc.1, hc.2, ?_, ?_, hb⟩
  · rw [h.1]; decide
  · rw [h.1, h.2]; decide

/-- `BeginConfiguresAndArms`: from Idle with the least buffer, from a capture with the greatest. -/
theorem test_witness_BeginConfiguresAndArms :
    (Inv idle ∧ CanIssue idle ∧ idle.plat.backend = .hardware ∧ (⟨1, 0, true⟩ : RxConfig).startLow = true
      ∧ (⟨1, 0, true⟩ : RxConfig).bufferSize ≠ 0 ∧ bufferPlaced idle.plat = true
      ∧ pinSupported idle.plat idle.ch.pin = true ∧ resourceBusy idle = false)
    ∧ (Inv pendingOne ∧ CanIssue pendingOne ∧ pendingOne.plat.backend = .hardware
      ∧ (⟨0xFFFFFFFF, 0, true⟩ : RxConfig).startLow = true
      ∧ (⟨0xFFFFFFFF, 0, true⟩ : RxConfig).bufferSize ≠ 0 ∧ bufferPlaced pendingOne.plat = true
      ∧ pinSupported pendingOne.plat pendingOne.ch.pin = true ∧ resourceBusy pendingOne = false) :=
  ⟨⟨inv_idle, can_issue _ (by decide), by decide, begin_accepts _ (by decide) (by decide) _ (by decide)⟩,
   ⟨inv_pendingOne, can_issue _ (by decide), by decide,
    begin_accepts _ (by decide) (by decide) _ (by decide)⟩⟩

/-- `BeginRefusesOrFailsInOrder`: a state for each refusal and each failure. -/
theorem test_witness_BeginRefusesOrFailsInOrder :
    CanIssue idle
    ∧ (⟨24, 50000, false⟩ : RxConfig).startLow = false
    ∧ bufferPlaced { Platform.fixture with bufBase := 1 } = false
    ∧ bufferPlaced { stalePlat with bufBase := 2 } = false
    ∧ bufferPlaced idle.plat = true
    ∧ pinSupported idle.plat 9 = false ∧ pinSupported idle.plat 5 = true
    ∧ (⟨0, 50000, true⟩ : RxConfig).bufferSize = 0
    ∧ resourceBusy { idle with env := { otherHeld := [0], during := [] } } = true :=
  ⟨can_issue _ (by decide), by decide⟩

/-- `FinishedReturnsTheSignal`, both clauses. -/
theorem test_witness_FinishedReturnsTheSignal :
    (signalled.issuer ≠ .interrupt ∧ signalled.created = true ∧ signalled.ch.state ≠ .destroyed)
    ∧ destroyed.issuer ≠ .interrupt ∧ destroyed.created = true
      ∧ destroyed.ch.state = .destroyed := by decide

/-- `WaitReturnsAtOnceOutsideACapture`: Idle, and Complete for a Success and for a Timeout reason, and
with no reason. -/
theorem test_witness_WaitReturnsAtOnceOutsideACapture :
    (CanIssue idle ∧ idle.ch.state = .idle)
    ∧ (CanIssue complete ∧ complete.ch.state = .complete
      ∧ complete.ch.completionReason ≠ .none ∧ complete.ch.completionReason ≠ .timeout)
    ∧ (∃ s : State, CanIssue s ∧ s.ch.state = .complete ∧ s.ch.completionReason = .timeout)
    ∧ ∃ s : State, CanIssue s ∧ s.ch.state = .complete ∧ s.ch.completionReason = .none :=
  ⟨⟨can_issue _ (by decide), by decide⟩, ⟨can_issue _ (by decide), by decide⟩,
   ⟨{ complete with ch := { complete.ch with completionReason := .timeout } },
    can_issue _ (by decide), by decide⟩,
   { complete with ch := { complete.ch with completionReason := .none } },
   can_issue _ (by decide), by decide⟩

/-- `WaitEntersItsLoop`, with and without an advance of the clock at the reading. -/
theorem test_witness_WaitEntersItsLoop :
    CanIssue capturing ∧ capturing.ch.state = .capturing ∧ capturing.clk.draws = []
    ∧ CanIssue { capturing with clk := { now := 5, draws := [1] } } :=
  ⟨can_issue _ (by decide), by decide, by decide, can_issue _ (by decide)⟩

/-- `PollEndsAtBufferFull`, with nothing scheduled and with the foreground scheduled before another
move. -/
theorem test_witness_PollEndsAtBufferFull :
    ForegroundTurn { waiting signalled 1000 with sched := [.foreground, .hardware .isr] }
      { waiting signalled 1000 with sched := [.hardware .isr] }
    ∧ Inv { waiting signalled 1000 with sched := [.hardware .isr] }
    ∧ ∃ r, Inv (waiting signalled 1000) ∧ ForegroundTurn (waiting signalled 1000) (waiting signalled 1000)
      ∧ (waiting signalled 1000).wait = some r ∧ r.wakeAt ≤ (waiting signalled 1000).clk.now.toNat
      ∧ (waiting signalled 1000).completion = true :=
  ⟨.inr ⟨[.hardware .isr], rfl, rfl⟩, inv_of_check _ (by decide), ⟨1000, 1000, 1, 1000, .timeout, 1000⟩, inv_of_check _ (by decide), .inl ⟨rfl, rfl⟩, by decide⟩

/-- `PollEndsAtInactivity`: the first reading above 50000 ns after the last progress, and one at which
the timeout has elapsed too. -/
theorem test_witness_PollEndsAtInactivity :
    (∃ r, Inv (waiting pendingOne 1051) ∧ ForegroundTurn (waiting pendingOne 1051) (waiting pendingOne 1051)
      ∧ (waiting pendingOne 1051).wait = some r ∧ r.wakeAt ≤ (waiting pendingOne 1051).clk.now.toNat
      ∧ (waiting pendingOne 1051).completion = false
      ∧ (interleave (nowUs (waiting pendingOne 1051)).2).xfer.progress = r.lastProgress
      ∧ ((nowUs (waiting pendingOne 1051)).1.toNat - r.tLast.toNat) * 1000
        > (waiting pendingOne 1051).ch.cfg.signalRangeMaxNs.toNat)
    ∧ ∃ r, Inv (waiting capturing 2000) ∧ ForegroundTurn (waiting capturing 2000) (waiting capturing 2000)
      ∧ (waiting capturing 2000).wait = some r ∧ r.wakeAt ≤ (waiting capturing 2000).clk.now.toNat
      ∧ (waiting capturing 2000).completion = false
      ∧ (interleave (nowUs (waiting capturing 2000)).2).xfer.progress = r.lastProgress
      ∧ ((nowUs (waiting capturing 2000)).1.toNat - r.tLast.toNat) * 1000
        > (waiting capturing 2000).ch.cfg.signalRangeMaxNs.toNat :=
  ⟨⟨⟨1000, 1000, 1, 1000, .timeout, 1000⟩, inv_of_check _ (by decide), .inl ⟨rfl, rfl⟩, by decide⟩,
   ⟨⟨1000, 1000, 1, 1000, .timeout, 1000⟩, inv_of_check _ (by decide), .inl ⟨rfl, rfl⟩, by decide⟩⟩

/-- A capture whose signal range never ends it. -/
def patient : State :=
  { capturing with ch := { capturing.ch with cfg := ⟨2, 4000000000, true⟩ } }

/-- A capture whose progress has changed since the last poll. -/
def moved : State := after (.next (xferStep pendingOne))

/-- `PollEndsAtTimeout` exactly at the deadline: progress unchanged inside the signal range, and
progress changed. -/
theorem test_witness_PollEndsAtTimeout :
    (∃ r, Inv (waiting patient 2000) ∧ ForegroundTurn (waiting patient 2000) (waiting patient 2000)
      ∧ (waiting patient 2000).wait = some r ∧ r.wakeAt ≤ (waiting patient 2000).clk.now.toNat
      ∧ (waiting patient 2000).completion = false
      ∧ ((nowUs (waiting patient 2000)).1.toNat - r.tLast.toNat) * 1000
        ≤ (waiting patient 2000).ch.cfg.signalRangeMaxNs.toNat
      ∧ (nowUs (waiting patient 2000)).1.toNat - r.tStart.toNat ≥ r.deadlineUs)
    ∧ ∃ r, Inv (waiting moved 2000) ∧ ForegroundTurn (waiting moved 2000) (waiting moved 2000)
      ∧ (waiting moved 2000).wait = some r ∧ r.wakeAt ≤ (waiting moved 2000).clk.now.toNat
      ∧ (waiting moved 2000).completion = false
      ∧ (interleave (nowUs (waiting moved 2000)).2).xfer.progress ≠ r.lastProgress
      ∧ (nowUs (waiting moved 2000)).1.toNat - r.tStart.toNat ≥ r.deadlineUs :=
  ⟨⟨⟨1000, 1000, 1, 1000, .timeout, 1000⟩, inv_of_check _ (by decide), .inl ⟨rfl, rfl⟩, by decide⟩,
   ⟨⟨1000, 1000, 1, 1000, .timeout, 1000⟩, inv_of_check _ (by decide), .inl ⟨rfl, rfl⟩, by decide⟩⟩

/-- `PollSleepsOtherwise`: asleep, exactly at the signal range, one microsecond before the deadline,
and with progress changed. -/
theorem test_witness_PollSleepsOtherwise :
    (∃ r, Inv { waiting capturing 1000 with wait := some r }
      ∧ ForegroundTurn { waiting capturing 1000 with wait := some r }
        { waiting capturing 1000 with wait := some r }
      ∧ (waiting capturing 1000).clk.now.toNat < r.wakeAt)
    ∧ (∃ r, Inv (waiting capturing 1050) ∧ ForegroundTurn (waiting capturing 1050) (waiting capturing 1050)
      ∧ (waiting capturing 1050).wait = some r ∧ r.wakeAt ≤ (waiting capturing 1050).clk.now.toNat
      ∧ (waiting capturing 1050).completion = false
      ∧ ((nowUs (waiting capturing 1050)).1.toNat - r.tLast.toNat) * 1000
        ≤ (waiting capturing 1050).ch.cfg.signalRangeMaxNs.toNat
      ∧ (nowUs (waiting capturing 1050)).1.toNat - r.tStart.toNat < r.deadlineUs)
    ∧ ∃ r, Inv (waiting moved 1999) ∧ ForegroundTurn (waiting moved 1999) (waiting moved 1999)
      ∧ (waiting moved 1999).wait = some r ∧ r.wakeAt ≤ (waiting moved 1999).clk.now.toNat
      ∧ (waiting moved 1999).completion = false
      ∧ (interleave (nowUs (waiting moved 1999)).2).xfer.progress ≠ r.lastProgress
      ∧ (nowUs (waiting moved 1999)).1.toNat - r.tStart.toNat < r.deadlineUs :=
  ⟨⟨⟨1000, 1000, 1, 1000, .timeout, 1010⟩, inv_of_check _ (by decide), .inl ⟨rfl, rfl⟩, by decide⟩,
   ⟨⟨1000, 1000, 1, 1000, .timeout, 1000⟩, inv_of_check _ (by decide), .inl ⟨rfl, rfl⟩, by decide⟩,
   ⟨⟨1000, 1000, 1, 1000, .timeout, 1000⟩, inv_of_check _ (by decide), .inl ⟨rfl, rfl⟩, by decide⟩⟩

/-- `WaitEndsByItsDeadline`, at the deadline. -/
theorem test_witness_WaitEndsByItsDeadline :
    ∃ r, Inv (waiting moved 2000) ∧ ForegroundTurn (waiting moved 2000) (waiting moved 2000)
      ∧ (waiting moved 2000).wait = some r
      ∧ r.tStart.toNat + r.deadlineUs ≤ (waiting moved 2000).clk.now.toNat :=
  ⟨⟨1000, 1000, 1, 1000, .timeout, 1000⟩, inv_of_check _ (by decide), .inl ⟨rfl, rfl⟩, by decide⟩

/-- `CompleteCaptureLatchesTheCapture` and `DisarmStopsAndDrains`: a sample pending, the last one among
them. -/
theorem test_witness_CompleteCapture :
    (Inv (block pendingOne) ∧ BlockIssues (block pendingOne)
      ∧ (block pendingOne).ch.state = .capturing)
    ∧ Inv (block almostFull) ∧ BlockIssues (block almostFull)
      ∧ (block almostFull).ch.state = .capturing :=
  ⟨⟨inv_of_check _ (by decide), block_issues _ (by decide), by decide⟩,
   inv_of_check _ (by decide), block_issues _ (by decide), by decide⟩

/-- `InjectEdgesReplacesTheCache`: the greatest length accepted and the next one. -/
theorem test_witness_InjectEdgesReplacesTheCache :
    Inv pendingOne ∧ CanIssue pendingOne
    ∧ (List.replicate 1024 (hi 400)).length ≤ pendingOne.plat.maxEdges
    ∧ pendingOne.plat.maxEdges < (List.replicate 1025 (hi 400)).length :=
  ⟨inv_pendingOne, can_issue _ (by decide), by rw [List.length_replicate]; decide,
   by rw [List.length_replicate]; decide⟩

/-- `DestroyReleasesTheHardware`, in a capture and outside one. -/
theorem test_witness_DestroyReleasesTheHardware :
    (Inv pendingOne ∧ CanIssue pendingOne) ∧ Inv cached ∧ CanIssue cached :=
  ⟨⟨inv_pendingOne, can_issue _ (by decide)⟩, inv_cached, can_issue _ (by decide)⟩

/-- `ChannelStateMachine`, for each channel state. -/
theorem test_witness_ChannelStateMachine :
    (Inv idle ∧ idle.wait = none ∧ idle.issuer = .caller ∧ idle.created = true)
    ∧ (Inv capturing ∧ capturing.wait = none ∧ capturing.issuer = .caller
      ∧ capturing.created = true ∧ capturing.ch.state = .capturing)
    ∧ (Inv complete ∧ complete.wait = none ∧ complete.issuer = .caller ∧ complete.created = true
      ∧ complete.ch.state = .complete)
    ∧ Inv destroyed ∧ destroyed.wait = none ∧ destroyed.issuer = .caller
      ∧ destroyed.created = true ∧ destroyed.ch.state = .destroyed :=
  ⟨⟨inv_idle, by decide⟩, ⟨inv_capturing, by decide⟩, ⟨inv_complete_, by decide⟩, inv_destroyed,
   by decide⟩

/-- `ArmProgramsTheBackend` and `ReadProgressReturnsTheCounter`. -/
theorem test_witness_ArmProgramsTheBackend :
    BlockIssues (block signalled) ∧ (block signalled).plat.backend = .hardware :=
  ⟨block_issues _ (by decide), by decide⟩

/-- `MockBackendTouchesNoHardware`, both clauses. -/
theorem test_witness_MockBackendTouchesNoHardware :
    (Inv (block mock) ∧ (block mock).plat.backend = .mock ∧ BlockIssues (block mock))
    ∧ Inv mock ∧ mock.plat.backend = .mock ∧ CanIssue mock
      ∧ (⟨1, 0, true⟩ : RxConfig).startLow = true ∧ (⟨1, 0, true⟩ : RxConfig).bufferSize ≠ 0
      ∧ bufferPlaced mock.plat = true ∧ pinSupported mock.plat mock.ch.pin = true
      ∧ resourceBusy mock = false :=
  ⟨⟨inv_of_check _ (by decide), by decide, block_issues _ (by decide)⟩, inv_mock, by decide,
   can_issue _ (by decide), by decide⟩

/-- `SyncReadsMakesTheRangeFresh`: no slot, the whole buffer, one slot beyond it, the greatest
operands, and a coherent platform. -/
theorem test_witness_SyncReadsMakesTheRangeFresh :
    BlockIssues (block capturingStale)
    ∧ (block capturingStale).vis.length = (block capturingStale).ch.capacity
    ∧ (0 : U32).toNat + (4 : U32).toNat ≤ (block capturingStale).ch.capacity
    ∧ (1 : U32) ≠ 0 ∧ (block capturingStale).ch.capacity < (4 : U32).toNat + (1 : U32).toNat
    ∧ (block capturingStale).ch.capacity < (0xFFFFFFFF : U32).toNat + (0xFFFFFFFF : U32).toNat
    ∧ BlockIssues (block capturing) ∧ (block capturing).plat.cacheCoherent = true :=
  ⟨block_issues _ (by decide), by decide, by decide, by decide, by decide, by decide,
   block_issues _ (by decide), by decide⟩

/-- `EdgeIsLatched`: nothing pending, and a sample pending one unit of time inside its service. -/
theorem test_witness_EdgeIsLatched :
    (let s := { capturing with sched := [.hardware (.edge true .replace)] };
      s.sched = .hardware (.edge true .replace) :: [] ∧ s.plat.backend = .hardware ∧ s.cap.armed = true
      ∧ s.xfer.enabled = true ∧ s.cap.lastK ≤ s.cap.elapsed / 1000000000 + 1
      ∧ s.xfer.pending = [])
    ∧ let s := { pendingOne with
        sched := [.hardware (.edge false .duplicate)]
        cap := { pendingOne.cap with elapsed := 144000000000 + 7999999999 } }
      s.sched = .hardware (.edge false .duplicate) :: [] ∧ s.plat.backend = .hardware ∧ s.cap.armed = true
      ∧ s.xfer.enabled = true ∧ s.cap.lastK ≤ s.cap.elapsed / 1000000000 + 1
      ∧ s.xfer.pending ≠ []
      ∧ s.cap.elapsed - s.cap.latchAt < s.plat.captureServiceNs * s.plat.clockHz := by decide

/-- `EdgeIsNotRecorded`: not armed, after buffer full, a mock backend. -/
theorem test_witness_EdgeIsNotRecorded :
    (Inv { idle with sched := [.hardware (.edge false .replace)] }
      ∧ idle.cap.armed = false ∧ idle.ch.state ≠ .capturing)
    ∧ (Inv { full with sched := [.hardware (.edge false .replace)] } ∧ full.xfer.enabled = false)
    ∧ Inv { mock with sched := [.hardware (.edge false .replace)] } ∧ mock.plat.backend = .mock :=
  ⟨⟨inv_of_check _ (by decide), by decide⟩, ⟨inv_of_check _ (by decide), by decide⟩,
   inv_of_check _ (by decide), by decide⟩

/-- A platform whose service time is 0. -/
def instant : Platform := { Platform.fixture with captureServiceNs := 0 }

/-- `PendingSampleIsServedInTime`: time to the least age, with room and with the last slot; an edge at
the least age, with two samples pending and with a service time of 0. -/
theorem test_witness_PendingSampleIsServedInTime :
    (let s := { pendingOne with sched := [.hardware (.elapse 7000000000)] };
      Inv s ∧ s.sched = .hardware (.elapse 7000000000) :: [] ∧ s.cap.configured = true
      ∧ s.xfer.enabled = true ∧ s.xfer.pending ≠ [] ∧ s.plat.captureServiceNs * s.plat.clockHz
        ≤ s.cap.elapsed + 7000000000 - s.cap.latchAt ∧ s.xfer.progress + 1 < s.xfer.length)
    ∧ (let s := { almostFull with sched := [.hardware (.elapse 7000000000)] };
      Inv s ∧ s.sched = .hardware (.elapse 7000000000) :: [] ∧ s.cap.configured = true
      ∧ s.xfer.enabled = true ∧ s.xfer.pending ≠ [] ∧ s.plat.captureServiceNs * s.plat.clockHz
        ≤ s.cap.elapsed + 7000000000 - s.cap.latchAt ∧ s.xfer.progress + 1 = s.xfer.length)
    ∧ (let s := { pendingOne with
        sched := [.hardware (.edge true .replace)]
        cap := { pendingOne.cap with elapsed := 152000000000 }
        xfer := { pendingOne.xfer with pending := [244, 244] } };
      Inv s ∧ s.sched = .hardware (.edge true .replace) :: [] ∧ s.cap.armed = true
      ∧ s.plat.backend = .hardware ∧ s.xfer.enabled = true ∧ s.xfer.pending ≠ []
      ∧ s.plat.captureServiceNs * s.plat.clockHz ≤ s.cap.elapsed - s.cap.latchAt)
    ∧ let s := { pendingOne with
        plat := instant
        sched := [.hardware (.edge false .duplicate)]
        cap := { pendingOne.cap with elapsed := 144000000000 } }
      Inv s ∧ s.sched = .hardware (.edge false .duplicate) :: [] ∧ s.cap.armed = true
      ∧ s.plat.backend = .hardware ∧ s.xfer.enabled = true ∧ s.xfer.pending ≠ []
      ∧ s.plat.captureServiceNs * s.plat.clockHz ≤ s.cap.elapsed - s.cap.latchAt :=
  ⟨⟨inv_of_check _ (by decide), by decide⟩, ⟨inv_of_check _ (by decide), by decide⟩,
   ⟨inv_of_check _ (by decide), by decide⟩, inv_of_check _ (by decide), by decide⟩

/-- `TransferWritesTheNextSlot`: a slot before the last, and the last. -/
theorem test_witness_TransferWritesTheNextSlot :
    (let s := { pendingOne with sched := [.hardware .transfer] };
      Inv s ∧ s.sched = .hardware .transfer :: [] ∧ s.xfer.enabled = true ∧ s.xfer.pending = 244 :: [])
    ∧ let s := { almostFull with sched := [.hardware .transfer] }
      Inv s ∧ s.sched = .hardware .transfer :: [] ∧ s.xfer.enabled = true ∧ s.xfer.pending = 244 :: []
      ∧ s.xfer.progress + 1 = s.xfer.length :=
  ⟨⟨inv_of_check _ (by decide), by decide⟩, inv_of_check _ (by decide), by decide⟩

/-- `SampleDifferenceIsBounded`: equal instants, and the greatest distance of a 16-bit counter. -/
theorem test_witness_SampleDifferenceIsBounded :
    (16 ≤ 32 ∧ 5 ≤ 5 ∧ 1 ≤ 5 / 1000000000 + 1 ∧ 5 - 5 < (2 ^ 16 - 2) * 1000000000)
    ∧ (32 ≤ 32 ∧ 0 ≤ 65533999999999 ∧ 0 ≤ 0 / 1000000000 + 1
      ∧ 65533999999999 - 0 < (2 ^ 16 - 2) * 1000000000) := by decide

/-- `IsrSetsTheSignal`: enabled, not pending, masked, running already. -/
theorem test_witness_IsrSetsTheSignal :
    (let s := { full with sched := [.hardware .isr] };
      s.sched = .hardware .isr :: [] ∧ s.irq.pending = true ∧ s.irq.enabled = true
      ∧ s.irq.isrRunning = false)
    ∧ (let s := { capturing with sched := [.hardware .isr] };
      s.sched = .hardware .isr :: [] ∧ s.irq.pending = false)
    ∧ (let s := { complete with sched := [.hardware .isr] };
      s.sched = .hardware .isr :: [] ∧ s.irq.enabled = false)
    ∧ let s := { full with irq := { full.irq with isrRunning := true }, sched := [.hardware .isr] }
      s.sched = .hardware .isr :: [] ∧ s.irq.isrRunning = true := by decide

/-- `ProgressNeverDecreases`: the transfer that fills the buffer, as a move and inside an operation. -/
theorem test_witness_ProgressNeverDecreases :
    (let s := { almostFull with sched := [.hardware .transfer] };
      Inv s ∧ s.sched = .hardware .transfer :: [] ∧ Move.hardware .transfer ≠ .foreground
      ∧ step s = .next (after (step s)) ∧ s.ch.state = .capturing ∧ s.plat.backend = .hardware)
    ∧ Inv { almostFull with env := { otherHeld := [], during := [[.transfer]] } } :=
  ⟨⟨inv_of_check _ (by decide), rfl, by decide, rfl, by decide, by decide⟩,
   inv_of_check _ (by decide)⟩

/-- `SignalStaysUntilRearmed`: a move, a poll and an operation. -/
theorem test_witness_SignalStaysUntilRearmed :
    signalled.completion = true
    ∧ (let s := { signalled with sched := [.hardware .isr] };
      s.completion = true ∧ s.sched = .hardware .isr :: [] ∧ Move.hardware .isr ≠ .foreground)
    ∧ (∃ r, (waiting signalled 1000).completion = true
      ∧ ForegroundTurn (waiting signalled 1000) (waiting signalled 1000)
      ∧ (waiting signalled 1000).wait = some r)
    ∧ clearsSignal .destroy = false :=
  ⟨by decide, by decide,
   ⟨⟨1000, 1000, 1, 1000, .timeout, 1000⟩, by decide, .inl ⟨rfl, rfl⟩, by decide⟩, by decide⟩

/-- `HardwareIsStillOutsideACapture`: after a capture, after `DESTROY`, and inside an operation. -/
theorem test_witness_HardwareIsStillOutsideACapture :
    (Inv { complete with sched := [.hardware (.edge true .replace)] } ∧ complete.ch.state ≠ .capturing)
    ∧ (Inv { destroyed with sched := [.hardware .transfer] } ∧ destroyed.ch.state ≠ .capturing
      ∧ Move.hardware .transfer ≠ .foreground)
    ∧ Inv { complete with env := { otherHeld := [], during := [[.transfer, .edge true .replace]] } } :=
  ⟨⟨inv_of_check _ (by decide), by decide⟩, ⟨inv_of_check _ (by decide), by decide⟩,
   inv_of_check _ (by decide)⟩

/-- `DeltaIsModular`, `ScalingTruncatesAndSaturates` and `StartValueCancels`: the greatest width; a
duration below the greatest and a saturated one. -/
theorem test_witness_intervals :
    32 ≤ 32 ∧ 0 < 80000000 ∧ toNs 80000000 400 < 2 ^ 32 - 1
    ∧ toNs 1 (2 ^ 32 - 1) = 2 ^ 32 - 1 ∧ Platform.fixture.counterBits ≤ 32 := by decide

/-- `GapSplitsTheCapture`, just above the threshold; `PolarityAlternatesFromHigh`, at the threshold. -/
theorem test_witness_gaps :
    isGap Platform.fixture 0x0000 0x0191 = true
    ∧ gapCount Platform.fixture [0x0000, 0x0190, 0x01B0] = 0 := by decide

/-- `BuildEdgesFillsTheCache`. -/
theorem test_witness_BuildEdgesFillsTheCache :
    Inv (block complete) ∧ BlockIssues (block complete) ∧ (block complete).ch.state = .complete
    ∧ (block complete).ch.edgesValid = false :=
  ⟨inv_of_check _ (by decide), block_issues _ (by decide), by decide⟩

/-- `GetRawEdgeTimesCopiesTheCache` and `DecodeDecodesTheCache`: Idle, the cache built, not built. -/
theorem test_witness_outside_a_capture :
    (Inv idle ∧ CanIssue idle ∧ idle.ch.state ≠ .capturing ∧ idle.ch.state = .idle)
    ∧ (Inv complete ∧ CanIssue complete ∧ complete.ch.state ≠ .capturing
      ∧ complete.ch.edgesValid = false)
    ∧ Inv cached ∧ CanIssue cached ∧ cached.ch.state ≠ .capturing
      ∧ (edgesSeen cached).length ≤ (2 : U32).toNat
      ∧ ¬(edgesSeen cached).length ≤ (1 : U32).toNat :=
  ⟨⟨inv_idle, can_issue _ (by decide), by decide⟩,
   ⟨inv_complete_, can_issue _ (by decide), by decide⟩,
   inv_cached, can_issue _ (by decide), by decide⟩

/-- `GetRawEdgeTimesCompletesACapture`, `DecodeCompletesACapture` and `DecodeIsIdempotent`: a sample
pending, the signal set. -/
theorem test_witness_in_a_capture :
    (Inv pendingOne ∧ CanIssue pendingOne ∧ pendingOne.ch.state = .capturing
      ∧ pendingOne.completion = false)
    ∧ Inv signalled ∧ CanIssue signalled ∧ signalled.ch.state = .capturing
      ∧ signalled.completion = true :=
  ⟨⟨inv_pendingOne, can_issue _ (by decide), by decide⟩, inv_signalled, can_issue _ (by decide),
   by decide⟩

/-- `DecodeBitClassifiesThePair` and `DecodeEdgesAccountsForEveryPair`: no channel is needed. -/
theorem test_witness_engine : State.reset.issuer ≠ .interrupt := by decide

/-- `DecodeEdgesReturnsTheBytes`, exactly full, with an edge left over; `DecodeEdgesStopsAtOverflow`,
one slot short. -/
theorem test_witness_DecodeEdges_bits :
    State.reset.issuer ≠ .interrupt ∧ classify 400 850 prof = .zero ∧ classify 800 450 prof = .one
    ∧ [hi 800].length ≤ 1
    ∧ (packMsb (byteBits 0xA5 ++ [true])).length ≤ ([0, 0] : List Byte).length
    ∧ ([0] : List Byte).length < (packMsb (byteBits 0xA5 ++ [true])).length
    ∧ packMsb (byteBits 0xA5 ++ [true]) = [0xA5, 0x80] := by decide

/-- `DecodeEdgesAccountsForEveryPair`: an invalid pair, a violation and a valid pair in the middle, and
pairs seen up to the bit that finds no slot. -/
theorem test_classified :
    classified prof (pairX ++ [lo 9, hi 800, hi 400, lo 850, hi 1]) = [.invalid, .zero]
    ∧ upToBit [.one, .invalid, .zero, .one] 2 = [.one, .invalid, .zero]
    ∧ validBits [.one, .invalid, .zero] = [true, false] := by decide

/-- `PolarityViolationDiscardsOneEdge`: a LOW edge, and a HIGH edge before a HIGH one. -/
theorem test_witness_PolarityViolation :
    (lo 850).high = false
    ∧ (∃ b more, hi 800 :: [lo 450] = b :: more ∧ b.high = true) :=
  ⟨rfl, hi 800, [lo 450], rfl, rfl⟩

/-- `StepKeepsTheInvariant`, `NoStepFaults` and `MarksAndParametersPersist`: a poll that ends. -/
theorem test_witness_step :
    Inv (waiting signalled 1000)
    ∧ step (waiting signalled 1000) = .next (after (step (waiting signalled 1000))) :=
  ⟨inv_of_check _ (by decide), rfl⟩

end Sys2Proof.Tests
end

section
/-! SUPPORT. The poll of a live `WAIT` with each of its ends (spec/40_channel_control.md R95 to
R104), the moves of the other agents (spec/00_scope.md R6, R7), and what a step of the foreground issues
(R70, R86). -/

namespace Sys2Proof.Machine

open Sys2Proof.Spec

/-! ### The completion of a capture (R103) -/

/-- A `WAIT` that exits in a capture leaves the completed capture and the status (R99, R103). -/
theorem waitExit_completed (reason : CompletionReason) (status : WaitStatus) (r : WaitRegs)
    {s : State} (I : Inv s) (hc : s.ch.state = .capturing) :
    ∃ t, waitExit reason status r s = .ok (t, some { r with result := status })
      ∧ Completed reason s (disarm s) t := by
  obtain ⟨J, -⟩ := inv_disarm s I
  obtain ⟨hch, -⟩ := disarm_ch s
  obtain ⟨-, -, hle⟩ := J.capturing (by rw [hch, hc])
  obtain ⟨w, hsync, hlen, hfresh⟩ :=
    syncReads_ok 0 (readProgress (disarm s)) (disarm s) (by simpa [readProgress] using hle)
      J.visLength
  refine ⟨{ disarm s with
      vis := w
      ch := { s.ch with
        nSamples := (disarm s).xfer.progress, completionReason := reason, state := .complete }
      wait := none }, ?_, disarmed_disarm I, rfl, ?_, fun i => ?_⟩
  · simp only [waitExit, completeCapture, hsync, hch]; rfl
  · show w.length = s.vis.length
    rw [hlen, J.visLength, hch, I.visLength]
  · simpa [readProgress, slotVisibility] using hfresh i

/-! ### One poll (R95, R99) -/

/-- The state a poll reads the progress in: after the reading of the clock and the steps the
hardware agents take meanwhile (R7). -/
def pollPoint (s : State) : State := interleave (nowUs s).2

theorem pollPoint_inv {s : State} (I : Inv s) : Inv (pollPoint s) := by
  obtain ⟨c, hn, -, hle⟩ := nowUs_clk s
  rw [pollPoint, hn]
  exact inv_interleave _ (inv_clk c s I hle)

/-- The channel registers and the parameters are not the hardware agents' (R7). -/
theorem pollPoint_ch_plat (s : State) :
    (pollPoint s).ch = s.ch ∧ (pollPoint s).plat = s.plat := by
  rw [pollPoint, (interleave_frame _).rest, nowUs_frame]
  exact ⟨rfl, rfl⟩

theorem pollPoint_capturing {s : State} (hc : s.ch.state = .capturing) :
    (pollPoint s).ch.state = .capturing := by
  rw [(pollPoint_ch_plat s).1, hc]

theorem readCfg_pollPoint {s : State} (hw : s.ch.cfgWritten = true) :
    readCfg (pollPoint s) = .ok s.ch.cfg := by
  simp [readCfg, (pollPoint_ch_plat s).1, hw]

/-- The test of exit (c) at a poll: no progress since the last value seen, which is more than the
signal range old (R97). -/
def Inactive (r : WaitRegs) (s : State) : Prop :=
  (pollPoint s).xfer.progress = r.lastProgress
    ∧ ((nowUs s).1.toNat - r.tLast.toNat) * 1000 > s.ch.cfg.signalRangeMaxNs.toNat

theorem not_inactive {r : WaitRegs} {s : State}
    (h : (pollPoint s).xfer.progress ≠ r.lastProgress ∨
      ((nowUs s).1.toNat - r.tLast.toNat) * 1000 ≤ s.ch.cfg.signalRangeMaxNs.toNat) :
    ¬Inactive r s := fun k => h.elim (· k.1) (Nat.not_le_of_gt k.2)

/-- The working registers with the progress a poll sees recorded (R95, R97). -/
def recorded (r : WaitRegs) (s : State) : WaitRegs :=
  { r with
    lastProgress := (pollPoint s).xfer.progress
    tLast := if (pollPoint s).xfer.progress = r.lastProgress then r.tLast else (nowUs s).1 }

/-- A poll that finds the signal takes exit (a) before it reads the clock (R96). -/
theorem waitPoll_signalled (r : WaitRegs) {s : State} (h : s.completion = true) :
    waitPoll r s = waitExit .bufferFull .success r s := by
  simp [waitPoll, atomicLoadAcquire, h]

/-- A poll of an inactive capture without the signal takes exit (c) (R97). -/
theorem waitPoll_inactive {r : WaitRegs} {s : State} (hs : s.completion = false)
    (hw : s.ch.cfgWritten = true) (h : Inactive r s) :
    waitPoll r s = waitExit .inactivity .success r (pollPoint s) := by
  obtain ⟨hp, ht⟩ := h
  have hcfg := readCfg_pollPoint hw
  simp only [pollPoint] at hp hcfg ⊢
  simp [waitPoll, atomicLoadAcquire, hs, readProgress, hp, hcfg, ht]

/-- A poll of an active capture without the signal records the progress and goes on to the test of
exit (b) (R95, R97). -/
theorem waitPoll_active {r : WaitRegs} {s : State} (hs : s.completion = false)
    (hw : s.ch.cfgWritten = true) (h : ¬Inactive r s) :
    waitPoll r s = waitDeadline (recorded r s) (nowUs s).1 (pollPoint s) := by
  have hcfg := readCfg_pollPoint hw
  simp only [Inactive, recorded, pollPoint] at h hcfg ⊢
  by_cases hp : (interleave (nowUs s).2).xfer.progress = r.lastProgress
  · have ht := fun k => h ⟨hp, k⟩
    simp only [waitPoll, atomicLoadAcquire, hs, readProgress, hp, hcfg, if_neg ht, ne_eq,
      not_true_eq_false, Bool.false_eq_true, if_false, if_true]
  · simp [waitPoll, atomicLoadAcquire, hs, readProgress, hp]

/-- At the deadline the poll takes exit (b) (R98). -/
theorem waitDeadline_expired {r : WaitRegs} {t : U64} (s : State)
    (h : t.toNat - r.tStart.toNat ≥ r.deadlineUs) :
    waitDeadline r t s = waitExit .timeout .timeout r s := if_pos h

/-- Before the deadline the poll sleeps, not beyond it (R100). -/
theorem waitDeadline_early {r : WaitRegs} {t : U64} (s : State)
    (h : t.toNat - r.tStart.toNat < r.deadlineUs) :
    waitDeadline r t s = .ok ({ s with wait := some { r with
      wakeAt := t.toNat + min s.plat.pollUs (r.tStart.toNat + r.deadlineUs - t.toNat) } }, none) :=
  if_neg (Nat.not_le_of_gt h)

/-! ### The foreground's step while a `WAIT` is live (R95, R100) -/

section Polling

variable {r q : WaitRegs} {start s t : State}

/-- Before its wake time the foreground does nothing (R100). -/
theorem step_of_sleeping (turn : ForegroundTurn start s) (live : s.wait = some r)
    (h : s.clk.now.toNat < r.wakeAt) : step start = .next s := by
  have : ¬r.wakeAt ≤ s.clk.now.toNat := by omega
  simp [step_of_turn turn, foregroundStep, live, pollStep, pollReady, this]

/-- A poll that ends the wait returns its status (R99). -/
theorem step_of_poll_ended (turn : ForegroundTurn start s) (live : s.wait = some r)
    (due : r.wakeAt ≤ s.clk.now.toNat) (h : waitPoll r s = .ok (t, some q)) :
    step start = .next { t with result := .waitStatus q.result } := by
  simp [step_of_turn turn, foregroundStep, live, pollStep, pollReady, due, h, State.ret]

/-- A poll that does not end the wait returns nothing (R95). -/
theorem step_of_poll_asleep (turn : ForegroundTurn start s) (live : s.wait = some r)
    (due : r.wakeAt ≤ s.clk.now.toNat) (h : waitPoll r s = .ok (t, none)) :
    step start = .next t := by
  simp [step_of_turn turn, foregroundStep, live, pollStep, pollReady, due, h]

/-- A poll that comes to an exit at a state `u` of a capture ends the wait with the completed
capture (R99, R103). -/
theorem step_of_poll_exit {u : State} {reason : CompletionReason} {status : WaitStatus}
    (turn : ForegroundTurn start s) (live : s.wait = some r) (due : r.wakeAt ≤ s.clk.now.toNat)
    (I : Inv u) (hc : u.ch.state = .capturing)
    (h : waitPoll r s = waitExit reason status q u) :
    ∃ d t, Completed reason u d t ∧ step start = .next { t with result := .waitStatus status } := by
  obtain ⟨t, ht, C⟩ := waitExit_completed reason status q I hc
  exact ⟨_, t, C, step_of_poll_ended turn live due (h.trans ht)⟩

end Polling

/-- Settles O16: the poll takes exit (a), whatever the clock says. -/
theorem pollEndsAtBufferFull : Obligations.PollEndsAtBufferFull := by
  intro r start s I turn live due hs
  obtain ⟨hc, -⟩ := I.waiting r live
  exact step_of_poll_exit turn live due I hc (waitPoll_signalled r hs)

/-- Settles O17: the poll takes exit (c) before it tests the timeout. -/
theorem pollEndsAtInactivity : Obligations.PollEndsAtInactivity := by
  intro r start s I turn live due hs t u hp ht
  obtain ⟨hc, -⟩ := I.waiting r live
  obtain ⟨-, hw, -⟩ := I.capturing hc
  exact step_of_poll_exit turn live due (pollPoint_inv I) (pollPoint_capturing hc)
    (waitPoll_inactive hs hw ⟨hp, ht⟩)

/-- Settles O18: neither (a) nor (c), so the poll comes to the test of exit (b), which holds. -/
theorem pollEndsAtTimeout : Obligations.PollEndsAtTimeout := by
  intro r start s I turn live due hs t u hactive hdeadline
  obtain ⟨hc, -⟩ := I.waiting r live
  obtain ⟨-, hw, -⟩ := I.capturing hc
  exact step_of_poll_exit turn live due (pollPoint_inv I) (pollPoint_capturing hc)
    ((waitPoll_active hs hw (not_inactive hactive)).trans (waitDeadline_expired _ hdeadline))

/-- Settles O19: neither (a) nor (c) nor (b), so the poll records the progress and sleeps. -/
theorem pollSleepsOtherwise : Obligations.PollSleepsOtherwise := by
  intro r start s I turn live
  refine ⟨step_of_sleeping turn live, ?_⟩
  intro due hs t u hactive hearly
  obtain ⟨hc, -⟩ := I.waiting r live
  obtain ⟨-, hw, -⟩ := I.capturing hc
  rw [← (pollPoint_ch_plat s).2]
  exact step_of_poll_asleep turn live due
    ((waitPoll_active hs hw (not_inactive hactive)).trans (waitDeadline_early _ hearly))

/-! ### `WAIT(0)` inside an operation (R104, R150) -/

/-- The working registers of `WAIT(0)` at its first poll (R95, R104). -/
def zeroRegs (s : State) : WaitRegs := (waitEnter 0 s).1

/-- The channel's and the engine's registers and the signal are not the clock's (R46). -/
theorem nowUs_block (s : State) : (nowUs s).2.ch = s.ch ∧ (nowUs s).2.xfer = s.xfer
    ∧ (nowUs s).2.completion = s.completion := by
  rw [nowUs_frame]; exact ⟨rfl, rfl, rfl⟩

/-- `WAIT(0)` measures inactivity from its own start (R95). -/
theorem inactive_zeroRegs (s : State) : Inactive (zeroRegs s) (nowUs s).2 ↔
    (interleave (nowUs (nowUs s).2).2).xfer.progress = s.xfer.progress
      ∧ ((nowUs (nowUs s).2).1.toNat - (nowUs s).1.toNat) * 1000
        > s.ch.cfg.signalRangeMaxNs.toNat := by
  obtain ⟨hch, hxfer, -⟩ := nowUs_block s
  rw [Inactive, hch, ← hxfer]
  rfl

theorem zeroWait_signalled {s : State} (h : s.completion = true) :
    zeroWait s = (.bufferFull, (nowUs s).2) := by simp [zeroWait, h]

theorem zeroWait_inactive {s : State} (hs : s.completion = false)
    (h : Inactive (zeroRegs s) (nowUs s).2) :
    zeroWait s = (.inactivity, pollPoint (nowUs s).2) := by
  rw [inactive_zeroRegs] at h
  simp [zeroWait, hs, pollPoint, if_pos h]

theorem zeroWait_active {s : State} (hs : s.completion = false)
    (h : ¬Inactive (zeroRegs s) (nowUs s).2) :
    zeroWait s = (.timeout, pollPoint (nowUs s).2) := by
  rw [inactive_zeroRegs] at h
  simp [zeroWait, hs, pollPoint, if_neg h]

/-- The first poll of `WAIT(0)` ends by (a) or (c), else by (b), since no time is left (R104). -/
theorem waitPoll_zeroRegs {s : State} (hw : s.ch.cfgWritten = true) :
    ∃ status q, waitPoll (zeroRegs s) (nowUs s).2
      = waitExit (zeroWait s).1 status q (zeroWait s).2 := by
  obtain ⟨hch, -, hsig⟩ := nowUs_block s
  rw [← hch] at hw
  cases hs : s.completion with
  | true =>
    rw [hs] at hsig
    rw [zeroWait_signalled hs]
    exact ⟨_, _, waitPoll_signalled _ hsig⟩
  | false =>
    rw [hs] at hsig
    by_cases h : Inactive (zeroRegs s) (nowUs s).2
    · rw [zeroWait_inactive hs h]
      exact ⟨_, _, waitPoll_inactive hsig hw h⟩
    · rw [zeroWait_active hs h, waitPoll_active hsig hw h]
      exact ⟨_, _, waitDeadline_expired _ (Nat.zero_le _)⟩

/-- `WAIT(0)` changes no channel register and no parameter before it calls `COMPLETE_CAPTURE`. -/
theorem zeroWait_ch_plat (s : State) :
    (zeroWait s).2.ch = s.ch ∧ (zeroWait s).2.plat = s.plat := by
  have hn : (nowUs s).2.ch = s.ch ∧ (nowUs s).2.plat = s.plat := by
    rw [nowUs_frame]; exact ⟨rfl, rfl⟩
  obtain ⟨hch, hplat⟩ := pollPoint_ch_plat (nowUs s).2
  simp only [zeroWait]
  split
  · exact hn
  · exact ⟨hch.trans hn.1, hplat.trans hn.2⟩

/-- `WAIT(0)` keeps the invariant up to its call of `COMPLETE_CAPTURE`. -/
theorem zeroWait_inv {s : State} (I : Inv s) : Inv (zeroWait s).2 := by
  obtain ⟨c, hn, -, hle⟩ := nowUs_clk s
  have In : Inv (nowUs s).2 := hn ▸ inv_clk c s I hle
  simp only [zeroWait]
  split
  · exact In
  · exact pollPoint_inv In

/-- `ENSURE_COMPLETE` in a capture completes it by `WAIT(0)` (R104). -/
theorem ensureComplete_capturing {s : State} (I : Inv s) (hc : s.ch.state = .capturing) :
    ∃ t, ensureComplete s = .ok t
      ∧ Completed (zeroWait s).1 (zeroWait s).2 (disarm (zeroWait s).2) t := by
  obtain ⟨-, hw, -⟩ := I.capturing hc
  obtain ⟨status, q, hpoll⟩ := waitPoll_zeroRegs hw
  obtain ⟨t, ht, C⟩ := waitExit_completed (zeroWait s).1 status q (zeroWait_inv I)
    (by rw [(zeroWait_ch_plat s).1, hc])
  refine ⟨t, ?_, C⟩
  simp only [zeroRegs, waitEnter] at hpoll
  simp [ensureComplete, hc, waitEnter, hpoll, ht]

/-- A capture has no valid edge cache (R29, R150). -/
theorem edgesValid_of_capturing {s : State} (I : Inv s) (hc : s.ch.state = .capturing) :
    s.ch.edgesValid = false := by
  cases hv : s.ch.edgesValid with
  | false => rfl
  | true => exact absurd (hc.symm.trans (I.cacheComplete hv)) (by decide)

/-- `BUILD_EDGES` builds the edges of the capture a `Complete` channel still has to read (R143,
R124). -/
theorem buildEdges_complete {s : State} (I : Inv s) (hc : s.ch.state = .complete)
    (hv : s.ch.edgesValid = false) :
    buildEdges s = .ok { s with ch := { s.ch with
      edges := edgesOf s.plat (captured s), edgesValid := true } } := by
  obtain ⟨hb, hn, hf⟩ := I.readable hc hv
  rw [buildEdges_fresh s hb hn (by rw [hc]; decide) hf, captured, List.range_eq_range']

/-- `ENSURE_EDGES` in a capture completes it by `WAIT(0)` and builds the cache from its samples
(R104, R150). -/
theorem ensureEdges_capturing {s : State} (I : Inv s) (hc : s.ch.state = .capturing) :
    ∃ d t, Completed (zeroWait s).1 (zeroWait s).2 d t
      ∧ ensureEdges s = .ok { t with ch := { t.ch with
          edges := edgesOf s.plat (captured t), edgesValid := true } } := by
  obtain ⟨t, ht, C⟩ := ensureComplete_capturing I hc
  refine ⟨_, t, C, ?_⟩
  obtain ⟨hch, hplat⟩ := zeroWait_ch_plat s
  have hcomplete : t.ch.state = .complete := by rw [C.frame]
  have hinvalid : t.ch.edgesValid = false := by
    rw [C.frame]
    exact (congrArg (·.edgesValid) hch).trans (edgesValid_of_capturing I hc)
  have hp : t.plat = s.plat := by
    obtain ⟨-, -, -, hd, -⟩ := disarm_ch (zeroWait s).2
    rw [C.frame]
    exact hd.trans hplat
  have J : Inv t := by
    obtain ⟨t', ht', J, -⟩ := inv_ensureComplete s I
    rwa [Except.ok.inj (ht'.symm.trans ht)] at J
  rw [← hp]
  simp [ensureEdges, ht, hcomplete, hinvalid, buildEdges_complete J hcomplete hinvalid]

/-- The gate of a public channel operation is open (R110, R111, R199). -/
theorem channelGate_open {s : State} (h : CanIssue s) : channelGate s = none := by
  obtain ⟨hi, hcr, hl⟩ := h
  simp [channelGate, liveChannelGate, hi, hcr, hl]

/-- The gate of an engine operation is open (R79, R111). -/
theorem engineGate_open {s : State} (h : CanIssue s) : engineGate s = none := if_neg h.context

/-- `DECODE_EDGES` issued in the foreground (R162). -/
theorem execDecodeEdges_open {s : State} (h : CanIssue s) (p : TimingProfile)
    (edges : List EdgeSample) (out : List Byte) :
    exec (.decodeEdges p edges out) s =
      .next { s with
        eng := (decodeEdges p edges out).regs
        result := .decodedEdges (decodeVerdict (decodeEdges p edges out))
          (decodeEdges p edges out).regs.total (decodeEdges p edges out).regs.invalid
          (decodeEdges p edges out).out } := by
  simp only [exec, execDecodeEdges, engineGate_open h, State.ret]

/-- Settles O47: `ENSURE_EDGES` in a capture, then the copy from the cache it built. -/
theorem getRawEdgeTimesCompletesACapture : Obligations.GetRawEdgeTimesCompletesACapture := by
  intro dst offset s I hissue hc
  obtain ⟨d, t, C, ht⟩ := ensureEdges_capturing I hc
  refine ⟨d, t, C, ?_⟩
  simp [exec, execGetRawEdgeTimes, channelGate_open hissue, ht, currentEdges, State.ret]

/-- Settles O55: `ENSURE_EDGES` in a capture, then the decode of the cache it built. -/
theorem decodeCompletesACapture : Obligations.DecodeCompletesACapture := by
  intro p out s I hissue hc
  obtain ⟨d, t, C, ht⟩ := ensureEdges_capturing I hc
  refine ⟨d, t, _, _, _, _, _, C, execDecodeEdges_open hissue p _ out, rfl, ?_⟩
  simp [exec, execDecode, channelGate_open hissue, ht, decodeCache, currentEdges, State.ret]

/-! ### The moves of the other agents (R6, R7) -/

/-- A scheduled move is taken from the state in which it is no longer scheduled (R7, log 13). -/
theorem step_of_move {m : Move} {rest : List Move} {s : State} (h : s.sched = m :: rest) :
    step s = moveStep m { s with sched := rest } := by
  simp only [step, nextStep, h]

/-- From interrupt context every operation is refused (R111). -/
theorem exec_interrupt (i : Instr) {s : State} (h : s.issuer = .interrupt) :
    exec i s = .next (s.refuse .wrongContext) := by
  have hch : channelGate s = some .wrongContext := if_pos h
  have hin : internalGate s = some .wrongContext := if_pos h
  have hen : engineGate s = some .wrongContext := if_pos h
  have hcr : createGate s = some .wrongContext := if_pos h
  cases i <;> simp only [exec, execCreate, execBegin, execFinished, execWait, execDecode,
    execGetRawEdgeTimes, execInjectEdges, execDestroy, execArm, execDisarm, execReadProgress,
    execSyncReads, execCompleteCapture, execBuildEdges, execDecodeBit, execDecodeEdges, beginGate,
    hch, hin, hen, hcr]

/-- `t` is `s` with nothing of the block changed: only the clock, the environment, the schedule, the
issuer, the result and the mark `REFUSED` may differ. -/
structure BlockFrame (s t : State) : Prop where
  rest : t = { s with
    clk := t.clk
    env := t.env
    issuer := t.issuer
    sched := t.sched
    result := t.result
    refused := t.refused }

/-- A record a handler issues is refused, by the decoder or for its context (R82, R83, R111). -/
theorem issueRecord_interrupt (record : List Byte) (s : State) :
    ∃ r, issueRecord .interrupt record s
      = .next ({ s with issuer := .interrupt }.refuse r) := by
  unfold issueRecord
  cases decode record with
  | ok i => exact ⟨_, exec_interrupt i rfl⟩
  | error e => exact ⟨_, rfl⟩

/-- A scheduled move of another agent is a hardware step or changes nothing of the block. -/
theorem step_of_other_move {m : Move} {rest : List Move} {s t : State} (hm : s.sched = m :: rest)
    (hf : m ≠ .foreground) (h : step s = .next t) :
    (∃ k, t = hwStep k { s with sched := rest }) ∨ BlockFrame s t := by
  rw [step_of_move hm] at h
  cases m with
  | foreground => exact absurd rfl hf
  | hardware k => exact .inl ⟨k, by cases h; rfl⟩
  | handlerOp record =>
    obtain ⟨r, hr⟩ := issueRecord_interrupt record { s with sched := rest }
    simp only [moveStep, hr] at h
    cases h; exact .inr ⟨rfl⟩
  | clock us => cases h; exact .inr ⟨rfl⟩
  | otherHolds handle held => cases h; exact .inr ⟨rfl⟩
  | during steps => cases h; exact .inr ⟨rfl⟩

/-! ### Progress (R37, R122) -/

/-- A transfer step counts up or does nothing (R126). -/
theorem progress_le_xferStep (s : State) : s.xfer.progress ≤ (xferStep s).xfer.progress := by
  cases he : s.xfer.enabled with
  | false => rw [xferStep_of_not_enabled s (by simp [transferEnabled, he])]
  | true =>
    cases hp : s.xfer.pending with
    | nil => rw [xferStep_of_not_enabled s (by simp [transferEnabled, hp])]
    | cons v rest =>
      rw [xferStep_enabled s v rest he hp]
      dsimp only
      split <;> simp [bufferFull]

theorem progress_le_serveDue (s : State) : s.xfer.progress ≤ (serveDue s).xfer.progress := by
  unfold serveDue
  split
  · exact xferSteps_induct (P := fun t => s.xfer.progress ≤ t.xfer.progress)
      (fun t h => h.trans (progress_le_xferStep t)) _ s (le_refl _)
  · exact le_refl _

/-- No step of a hardware agent lowers the progress counter (R37). -/
theorem progress_le_hwStep (k : HwStep) (s : State) :
    s.xfer.progress ≤ (hwStep k s).xfer.progress := by
  cases k with
  | edge late overrun =>
    have h := progress_le_serveDue { s with line := !s.line }
    simp only [hwStep, edgeStep]
    split <;> exact h
  | transfer => exact progress_le_xferStep s
  | isr => simp only [hwStep]; rw [(isrStep_frame s).rest]
  | isrEntry => simp only [hwStep]; rw [(isrEntry_frame s).rest]
  | isrReturn => simp only [hwStep]; rw [(isrReturn_frame s).rest]
  | elapse units =>
    simp only [hwStep, elapseStep]
    split
    · exact progress_le_serveDue { s with cap := { s.cap with elapsed := s.cap.elapsed + units } }
    · exact le_refl _

theorem progress_le_interleave (s : State) :
    s.xfer.progress ≤ (interleave s).xfer.progress :=
  interleave_induct (P := fun t => s.xfer.progress ≤ t.xfer.progress)
    (fun k t h => h.trans (progress_le_hwStep k t)) s (le_refl _)

/-- In a capture on hardware the progress is at most the transfer length (R35, R37). -/
theorem progress_le_length {s : State} (I : Inv s) (hc : s.ch.state = .capturing)
    (hb : s.plat.backend = .hardware) : s.xfer.progress ≤ s.xfer.length := by
  obtain ⟨-, -, hle⟩ := I.capturing hc
  rw [I.lengthEq hc hb]
  exact hle

/-- Settles O36: a move of another agent is a hardware step, which does not lower the counter and
keeps the invariant, or leaves the counter; a point inside an operation is hardware steps. -/
theorem progressNeverDecreases : Obligations.ProgressNeverDecreases := by
  intro m rest s t I h
  rcases h with ⟨hm, hf, hstep⟩ | rfl
  · rcases step_of_other_move hm hf hstep with ⟨k, rfl⟩ | F
    · have F := (hwStep_frame k { s with sched := rest }).rest
      have J := inv_hwStep k _ (inv_congr (t := { s with sched := rest }) I rfl)
      exact ⟨progress_le_hwStep k { s with sched := rest }, fun hc hb =>
        progress_le_length J (by rw [F]; exact hc) (by rw [F]; exact hb)⟩
    · rw [F.rest]
      exact ⟨le_refl _, progress_le_length I⟩
  · have F := (interleave_frame s).rest
    exact ⟨progress_le_interleave s, fun hc hb =>
      progress_le_length (inv_interleave s I) (by rw [F]; exact hc) (by rw [F]; exact hb)⟩

/-! ### Outside a capture (R64, R129) -/

theorem BlockFrame.quiet {s t : State} (F : BlockFrame s t) (Q : Quiet s) : Quiet t := by
  rw [F.rest]
  exact ⟨Q.1, Q.2, Q.3, Q.4, Q.5, Q.6⟩

/-- On a quiet backend the hardware agents' steps leave memory, the transfer engine, the interrupt,
the signal and the channel as they were (R64, R129). -/
theorem QuietFrame.still {s t : State} (F : QuietFrame s t) (Q : Quiet s) :
    t.mem = s.mem ∧ t.vis = s.vis ∧ t.xfer = s.xfer ∧ t.irq = s.irq
      ∧ t.completion = s.completion ∧ t.ch = s.ch ∧ Quiet t := by
  refine ⟨?_, ?_, ?_, ?_, ?_, ?_, F.quiet Q⟩ <;> rw [F.rest]

/-- Settles O38: outside a capture the backend is quiet, and the hardware agents then move the line
and the time alone. -/
theorem hardwareIsStillOutsideACapture : Obligations.HardwareIsStillOutsideACapture := by
  intro m rest s t I hc h
  have Q := I.quiet hc
  rcases h with ⟨hm, hf, hstep⟩ | rfl
  · rcases step_of_other_move hm hf hstep with ⟨k, rfl⟩ | F
    · have Qm : Quiet { s with sched := rest } := BlockFrame.quiet ⟨rfl⟩ Q
      exact (hwStep_quiet k Qm).still Qm
    · have Qt := F.quiet Q
      rw [F.rest] at Qt ⊢
      exact ⟨rfl, rfl, rfl, rfl, rfl, rfl, Qt⟩
  · exact (interleave_quiet Q).still Q

/-! ### What a step issues and what each move does (R7, R70, R86) -/

/-- In its turn, with no `WAIT` live, the foreground issues its next record (R70). -/
theorem step_of_record {start s : State} {record : List Byte} {rest : List (List Byte)}
    (turn : ForegroundTurn start s) (idle : s.wait = none) (hops : s.ops = record :: rest) :
    step start = issueRecord .caller record { s with ops := rest } := by
  simp only [step_of_turn turn, foregroundStep, idle, hops]

/-- With no record placed it does nothing (log 14). -/
theorem step_of_no_record {start s : State} (turn : ForegroundTurn start s) (idle : s.wait = none)
    (hops : s.ops = []) : step start = .next s := by
  simp only [step_of_turn turn, foregroundStep, idle, hops]

theorem hwSteps_eq_foldl (ks : List HwStep) (s : State) :
    hwSteps ks s = ks.foldl (fun t k => hwStep k t) s := by
  induction ks generalizing s with
  | nil => rfl
  | cons k ks ih => exact ih _

/-- A point inside an operation takes the first list settled, in order (R7, log 15). -/
theorem interleave_cons {steps : List HwStep} {later : List (List HwStep)} {s : State}
    (h : s.env.during = steps :: later) :
    interleave s
      = steps.foldl (fun t k => hwStep k t) { s with env := { s.env with during := later } } := by
  rw [← hwSteps_eq_foldl]
  simp only [interleave, h]

/-- Interrupt entry acknowledges (R181). -/
theorem isrEntry_eq (s : State) : isrEntry s =
    if s.irq.pending = true ∧ s.irq.enabled = true ∧ s.irq.isrRunning = false then
      { s with irq := { enabled := true, pending := false, isrRunning := true } }
    else s := by
  unfold isrEntry isrEnabled
  by_cases h : s.irq.pending = true ∧ s.irq.enabled = true ∧ s.irq.isrRunning = false
  · obtain ⟨hp, he, hr⟩ := h
    simp [hp, he, hr]
  · rw [if_neg h, if_neg (by simpa [and_assoc] using h)]

/-- Where no transfer is due time passes and nothing else changes (R32, R127, log 18). -/
theorem elapseStep_not_due {units : Nat} {s : State} (hc : s.cap.configured = true)
    (h : s.xfer.enabled = false ∨ s.xfer.pending = []
      ∨ s.cap.elapsed + units - s.cap.latchAt < s.plat.captureServiceNs * s.plat.clockHz) :
    elapseStep units s = { s with cap := { s.cap with elapsed := s.cap.elapsed + units } } := by
  rw [elapseStep, if_pos hc, serveDue, if_neg]
  rcases h with h | h | h
  · simp [serviceDue, transferEnabled, h]
  · simp [serviceDue, transferEnabled, h]
  · simp [serviceDue, h]

/-- Another channel's move takes or releases the one peripheral (R119). -/
theorem otherHoldsMove_spec (handle : Nat) (held : Bool) (s : State) :
    ∃ others : List Nat,
      otherHoldsMove handle held s = { s with env := { s.env with otherHeld := others } }
      ∧ ∀ h, h ∈ others ↔ if h = handle then held = true else h ∈ s.env.otherHeld := by
  refine ⟨_, rfl, fun h => ?_⟩
  cases held <;> by_cases hh : h = handle <;> simp [hh]

/-- Settles O5: clause by clause, the record issued and then each kind of move. -/
theorem stepRunsTheDecodedOperation : Obligations.StepRunsTheDecodedOperation := by
  refine ⟨fun start s record rest turn idle hops => ⟨fun i hi => ?_, fun he => ?_⟩,
    fun start s => step_of_no_record, fun k moves s h => step_of_move h,
    fun steps moves s h => step_of_move h, interleave_nil, fun steps later s => interleave_cons,
    isrEntry_eq, fun s => rfl, fun s h => ?_, fun units s h => ?_,
    fun units s => elapseStep_not_due, fun us moves s h => step_of_move h,
    fun handle held moves s h => ?_⟩
  · simp only [step_of_record turn idle hops, issueRecord, hi]
  · simp only [step_of_record turn idle hops, issueRecord, he]
    rfl
  · exact xferStep_of_not_enabled s (by rcases h with h | h <;> simp [transferEnabled, h])
  · simp [hwStep, elapseStep, h]
  · obtain ⟨others, heq, hmem⟩ := otherHoldsMove_spec handle held { s with sched := moves }
    exact ⟨others, by rw [step_of_move h, moveStep, heq], hmem⟩

end Sys2Proof.Machine
end

section
/-! SUPPORT. How every step of the machine ends (spec/00_scope.md R12, spec/10_state.md R51), and
that it keeps the invariant: the reset state, `CREATE`, `BEGIN`, `INJECT_EDGES` and `DESTROY`, the
poll, the moves of the other agents, and the points inside an operation (R7). -/

namespace Sys2Proof.Machine

open Sys2Proof.Spec

/-! ### What only the end of an operation writes (R12, R51) -/

/-- The parameters (R8), which nothing writes, and what `return`, `refuse` and `fault` alone
write. -/
structure Verdict where
  plat : Platform
  result : OpResult
  refused : Bool
  faulted : Bool

/-- The parameters, the marks and the last result of a state. -/
def State.verdict (s : State) : Verdict where
  plat := s.plat
  result := s.result
  refused := s.refused
  faulted := s.faulted

theorem verdict_nowUs (s : State) : (nowUs s).2.verdict = s.verdict := by rw [nowUs_frame]; rfl

theorem verdict_hwStep (k : HwStep) (s : State) : (hwStep k s).verdict = s.verdict := by
  rw [(hwStep_frame k s).rest]; rfl

theorem verdict_interleave (s : State) : (interleave s).verdict = s.verdict := by
  rw [(interleave_frame s).rest]; rfl

theorem verdict_disarm (s : State) : (disarm s).verdict = s.verdict := by
  rw [(disarm_frame s).rest]; rfl

theorem verdict_disarmIfCapturing (s : State) : (disarmIfCapturing s).verdict = s.verdict := by
  unfold disarmIfCapturing
  split
  · exact verdict_disarm s
  · rfl

theorem verdict_arm (s : State) : (arm s).verdict = s.verdict := by
  unfold arm; split <;> rfl

theorem verdict_syncReads {first count : Nat} {s t : State} (h : syncReads first count s = .ok t) :
    t.verdict = s.verdict := by
  unfold syncReads at h
  split at h
  · cases h; rfl
  · split at h
    · cases h
    · split at h <;> cases h <;> rfl

theorem verdict_completeCapture {reason : CompletionReason} {s t : State}
    (h : completeCapture reason s = .ok t) : t.verdict = s.verdict := by
  unfold completeCapture at h
  dsimp only at h
  split at h
  · cases h
  · rename_i u hu
    cases h
    exact (verdict_syncReads hu).trans (verdict_disarm s)

theorem verdict_waitExit {reason : CompletionReason} {status : WaitStatus} {r : WaitRegs}
    {s t : State} {q : Option WaitRegs} (h : waitExit reason status r s = .ok (t, q)) :
    t.verdict = s.verdict := by
  unfold waitExit at h
  split at h
  · cases h
  · rename_i u hu
    have hv := verdict_completeCapture hu
    cases h; exact hv

theorem verdict_waitDeadline {r : WaitRegs} {now : U64} {s t : State} {q : Option WaitRegs}
    (h : waitDeadline r now s = .ok (t, q)) : t.verdict = s.verdict := by
  unfold waitDeadline at h
  split at h
  · exact verdict_waitExit h
  · cases h; rfl

theorem verdict_waitPoll {r : WaitRegs} {s t : State} {q : Option WaitRegs}
    (h : waitPoll r s = .ok (t, q)) : t.verdict = s.verdict := by
  have hpoint := (verdict_interleave (nowUs s).2).trans (verdict_nowUs s)
  unfold waitPoll at h
  split at h
  · exact verdict_waitExit h
  · dsimp only at h
    split at h
    · exact (verdict_waitDeadline h).trans hpoint
    · split at h
      · cases h
      · split at h
        · exact (verdict_waitExit h).trans hpoint
        · exact (verdict_waitDeadline h).trans hpoint

theorem verdict_ensureComplete {s t : State} (h : ensureComplete s = .ok t) :
    t.verdict = s.verdict := by
  unfold ensureComplete at h
  split at h
  · simp only [waitEnter] at h
    split at h
    · cases h
    · rename_i hpoll
      cases h
      exact (verdict_waitPoll hpoll).trans (verdict_nowUs s)
  · cases h; rfl

theorem verdict_bufReadFg {i : Nat} {v : Sample} {s t : State} (h : bufReadFg i s = .ok (v, t)) :
    t.verdict = s.verdict := by
  unfold bufReadFg at h
  split at h
  · cases h
  · split at h
    · cases h
    · split at h <;> cases h <;> rfl

theorem verdict_readSlots {n i : Nat} {vs : List Sample} {s t : State}
    (h : readSlots n i s = .ok (vs, t)) : t.verdict = s.verdict := by
  induction n generalizing i s vs with
  | zero => cases h; rfl
  | succ n ih =>
    unfold readSlots at h
    split at h
    · cases h
    · rename_i hread
      split at h
      · cases h
      · rename_i hrest
        cases h
        exact (ih hrest).trans (verdict_bufReadFg hread)

theorem verdict_buildEdges {s t : State} (h : buildEdges s = .ok t) : t.verdict = s.verdict := by
  unfold buildEdges at h
  split at h
  · cases h; rfl
  · split at h
    · cases h
    · rename_i hread
      have hv := verdict_readSlots hread
      cases h; exact hv

theorem verdict_ensureEdges {s t : State} (h : ensureEdges s = .ok t) : t.verdict = s.verdict := by
  unfold ensureEdges at h
  split at h
  · cases h
  · rename_i hcomplete
    split at h
    · exact (verdict_buildEdges h).trans (verdict_ensureComplete hcomplete)
    · cases h; exact verdict_ensureComplete hcomplete

/-! ### The channel's life: reset, `CREATE`, `BEGIN`, `INJECT_EDGES`, `DESTROY` -/

/-- With every element of the block at its value of R50 the invariant holds. -/
theorem inv_reset (created : Bool) (pin : U16) (s : State) : Inv { s with
    created := created
    ch := Channel.reset pin
    cap := Capture.reset
    xfer := Transfer.reset
    irq := Interrupt.reset
    completion := false
    mem := []
    vis := []
    wait := none } where
  memWf := rfl
  memInBuf := by simp
  capacityLe := Nat.zero_le _
  visLength := rfl
  noBuf := fun _ => rfl
  noChannel := fun _ => rfl
  notConfigured := by simp [Channel.reset]
  capturing := by simp [Channel.reset]
  quiet := fun _ => ⟨rfl, rfl, rfl, rfl, rfl, rfl⟩
  mock := fun _ => ⟨⟨rfl, rfl, rfl, rfl, rfl, rfl⟩, rfl, rfl⟩
  transferring := by simp [Transfer.reset]
  pendingServed := fun _ => rfl
  pendingLe := Nat.zero_le _
  pendingFit := by simp [Transfer.reset]
  startFit := Nat.two_pow_pos _
  captureFit := Nat.two_pow_pos _
  tickBound := Nat.zero_le _
  latched := Nat.zero_le _
  tailClear := by simp [Channel.reset]
  lengthEq := by simp [Channel.reset]
  fullSignal := by simp [Channel.reset]
  reason := by simp [Channel.reset]
  cacheComplete := by simp [Channel.reset]
  cacheLength := Nat.zero_le _
  readable := by simp [Channel.reset]
  waiting := by simp

theorem inv_boot (p : Platform) : Inv (State.boot p) := inv_reset false 0 (State.boot p)

theorem inv_createChannel (pin : U16) (s : State) : Inv (createChannel pin s) :=
  inv_reset true pin { s with held := false, eng := EngineRegs.reset }

/-- What `DISARM` in a capture leaves is quiet, as every state outside a capture is (R64, R121). -/
theorem inv_disarmIfCapturing {s : State} (I : Inv s) :
    Inv (disarmIfCapturing s) ∧ Quiet (disarmIfCapturing s) := by
  unfold disarmIfCapturing
  split
  · exact inv_disarm s I
  · rename_i h; exact ⟨I, I.quiet h⟩

theorem disarmIfCapturing_rest (s : State) :
    (disarmIfCapturing s).plat = s.plat ∧ (disarmIfCapturing s).created = s.created
      ∧ (disarmIfCapturing s).wait = s.wait := by
  unfold disarmIfCapturing
  split
  · obtain ⟨-, hwait, -, hplat, hcreated, -⟩ := disarm_ch s
    exact ⟨hplat, hcreated, hwait⟩
  · exact ⟨rfl, rfl, rfl⟩

theorem inv_beginFail (e : BeginError) {s : State} (I : Inv s) : Inv (beginFail e s) :=
  inv_ch s I { s.ch with lastError := e } rfl I.cacheComplete I.cacheLength id

/-- An accepted `INJECT_EDGES` leaves a `Complete` channel with a valid cache (R106). -/
theorem inv_injectAccepted {edges : List EdgeSample} {s : State} (I : Inv s)
    (hcreated : s.created = true) (hwait : s.wait = none)
    (hedges : edges.length ≤ s.plat.maxEdges) : Inv (injectAccepted edges s) := by
  obtain ⟨J, Q⟩ := inv_disarmIfCapturing I
  obtain ⟨hp, hc, hw⟩ := disarmIfCapturing_rest s
  rw [← hp] at hedges
  rw [← hc] at hcreated
  rw [← hw] at hwait
  exact { J with
    noChannel := fun h => absurd (hcreated.symm.trans h) (by decide)
    notConfigured := by simp [injectAccepted]
    capturing := by simp [injectAccepted]
    quiet := fun _ => { Q with }
    mock := fun h => ⟨{ Q with }, (J.mock h).2⟩
    lengthEq := by simp [injectAccepted]
    fullSignal := by simp [injectAccepted]
    reason := by simp [injectAccepted]
    cacheComplete := fun _ => rfl
    cacheLength := hedges.trans (le_max_right _ _)
    readable := by simp [injectAccepted]
    waiting := fun r h => absurd (hwait.symm.trans h) (by simp) }

/-- `DESTROY` leaves no `BUF` and nothing active (R109). -/
theorem inv_destroyChannel {s : State} (I : Inv s) (hcreated : s.created = true)
    (hwait : s.wait = none) : Inv (destroyChannel s) := by
  obtain ⟨J, Q⟩ := inv_disarmIfCapturing I
  obtain ⟨-, hc, hw⟩ := disarmIfCapturing_rest s
  rw [← hc] at hcreated
  rw [← hw] at hwait
  exact { J with
    memWf := rfl
    memInBuf := by simp [destroyChannel]
    capacityLe := Nat.zero_le _
    visLength := rfl
    noBuf := fun _ => rfl
    noChannel := fun h => absurd (hcreated.symm.trans h) (by decide)
    notConfigured := by simp [destroyChannel]
    capturing := by simp [destroyChannel]
    quiet := fun _ => { Q with }
    mock := fun h => ⟨{ Q with }, (J.mock h).2⟩
    tailClear := by simp [destroyChannel]
    lengthEq := by simp [destroyChannel]
    fullSignal := by simp [destroyChannel]
    reason := by simp [destroyChannel]
    cacheComplete := by simp [destroyChannel]
    cacheLength := Nat.zero_le _
    readable := by simp [destroyChannel]
    waiting := fun r h => absurd (hwait.symm.trans h) (by simp) }

/-- The capture `BEGIN` opens, before `ARM` enables the backend: `BUF` is clear and no transfer step
has been taken (R88). -/
theorem inv_opened (config : RxConfig) (xfer : Transfer) (completion : Bool) {s : State}
    (I : Inv s) (hcreated : s.created = true) (hwait : s.wait = none)
    (henabled : xfer.enabled = false) (hpending : xfer.pending = []) (hprogress : xfer.progress = 0)
    (hcompletion : completion = false)
    (hlength : s.plat.backend = .hardware → xfer.length = capacityFor config.bufferSize) :
    Inv { configureChannel config s with
      ch := { (configureChannel config s).ch with state := .capturing }
      xfer := xfer
      completion := completion } := by
  obtain ⟨J, Q⟩ := inv_disarmIfCapturing I
  obtain ⟨hp, hc, hw⟩ := disarmIfCapturing_rest s
  rw [← hp] at hlength
  rw [← hc] at hcreated
  rw [← hw] at hwait
  have hquiet : Quiet { configureChannel config s with xfer := xfer } :=
    { Q with notEnabled := henabled, nonePending := hpending }
  exact { J with
    memWf := rfl
    memInBuf := by simp [configureChannel]
    capacityLe := Nat.min_le_left _ _
    visLength := List.length_replicate
    noBuf := by simp [configureChannel]
    noChannel := fun h => absurd (hcreated.symm.trans h) (by decide)
    notConfigured := by simp
    capturing := fun _ => ⟨rfl, rfl, hprogress ▸ Nat.zero_le _⟩
    quiet := fun h => absurd rfl h
    mock := fun _ => ⟨{ hquiet with }, hprogress, hcompletion⟩
    transferring := fun h => absurd (henabled.symm.trans h) (by decide)
    pendingServed := fun _ => hpending
    pendingLe := by simp [hpending]
    pendingFit := by simp [hpending]
    tailClear := fun _ i _ _ => slotValue_of_mem_nil _ rfl i
    lengthEq := fun _ => hlength
    fullSignal := fun _ h => absurd h (by
      simp [configureChannel, Q.irqClear, Q.isrIdle, hcompletion])
    reason := by simp
    cacheComplete := by simp [configureChannel]
    cacheLength := Nat.zero_le _
    readable := by simp
    waiting := fun r h => absurd (hwait.symm.trans h) (by simp) }

/-- `BEGIN` opens a capture whose engine has at least one slot to fill (R88, R120). -/
theorem inv_beginConfigured (config : RxConfig) {s : State} (I : Inv s)
    (hcreated : s.created = true) (hwait : s.wait = none) (hsize : config.bufferSize ≠ 0) :
    Inv (beginConfigured config s) := by
  obtain ⟨J, Q⟩ := inv_disarmIfCapturing I
  obtain ⟨hplat, -⟩ := disarmIfCapturing_rest s
  unfold beginConfigured arm
  cases hb : (configureChannel config s).plat.backend with
  | mock =>
    obtain ⟨-, hprogress, hcompletion⟩ := J.mock hb
    exact inv_opened config (disarmIfCapturing s).xfer (disarmIfCapturing s).completion I hcreated
      hwait Q.notEnabled Q.nonePending hprogress hcompletion
      fun h => absurd ((hplat ▸ hb).symm.trans h) (by decide)
  | hardware =>
    have K := inv_opened config
      { length := capacityFor config.bufferSize, progress := 0, enabled := false, pending := [],
        attached := true } false I hcreated hwait rfl rfl rfl rfl (fun _ => rfl)
    have hpos : 0 < capacityFor config.bufferSize := by
      have : config.bufferSize.toNat ≠ 0 := fun h => hsize (BitVec.eq_of_toNat_eq h)
      simp only [capacityFor, Config.maxSlots]; omega
    have hidle : (configureChannel config s).irq.isrRunning = false := Q.isrIdle
    exact { K with
      quiet := fun h => absurd rfl h
      mock := fun h => absurd (hb.symm.trans h) (by decide)
      transferring := fun _ => hpos
      pendingServed := fun _ => rfl
      startFit := truncW_lt _ _
      tickBound := Nat.zero_le _
      latched := le_refl _
      fullSignal := fun _ h => by simp [atomicStoreRelease, hidle] at h }

/-! ### How a step ends (R12, R51, R52) -/

/-- How a step from `s` ends: by going on, by a return, by a refusal, each of which keeps the
invariant, or by a fault, which a state with the invariant does not meet (R52). -/
inductive Ends (s : State) : Answer → Prop where
  | goesOn {t : State} (verdict : t.verdict = s.verdict) (inv : Inv s → Inv t) : Ends s (.next t)
  | returns {t : State} {r : OpResult} (verdict : t.verdict = s.verdict) (inv : Inv s → Inv t)
      (value : ∀ f, r ≠ .faulted f) : Ends s (.next (t.ret r))
  | refuses {t : State} {r : Refusal} (verdict : t.verdict = s.verdict) (inv : Inv s → Inv t) :
      Ends s (.next (t.refuse r))
  | fails {t : State} {f : Fault} (verdict : t.verdict = s.verdict) (never : ¬Inv s) :
      Ends s (.next (t.fail f))

theorem inv_ret {s : State} (I : Inv s) (r : OpResult) : Inv (s.ret r) := inv_congr I rfl

theorem inv_refuse {s : State} (I : Inv s) (r : Refusal) : Inv (s.refuse r) := inv_congr I rfl

/-- A refusal leaves the state it was issued in (R12). -/
theorem ends_refusal (s : State) (r : Refusal) : Ends s (.next (s.refuse r)) := .refuses rfl id

/-- How a step ends holds from every earlier state with the same verdict that keeps the invariant up
to where the step begins. -/
theorem Ends.rebase {s t : State} {a : Answer} (E : Ends t a) (hv : t.verdict = s.verdict)
    (hI : Inv s → Inv t) : Ends s a := by
  cases E with
  | goesOn verdict inv => exact .goesOn (verdict.trans hv) (inv ∘ hI)
  | returns verdict inv value => exact .returns (verdict.trans hv) (inv ∘ hI) value
  | refuses verdict inv => exact .refuses (verdict.trans hv) (inv ∘ hI)
  | fails verdict never => exact .fails (verdict.trans hv) (never ∘ hI)

/-- However a step ends, it answers a next state. -/
theorem Ends.answers {s : State} {a : Answer} (E : Ends s a) : ∃ t, a = .next t := by
  cases E <;> exact ⟨_, rfl⟩

theorem Ends.keeps_inv {s t : State} (E : Ends s (.next t)) (I : Inv s) : Inv t := by
  cases E with
  | goesOn verdict inv => exact inv I
  | returns verdict inv value => exact inv_ret (inv I) _
  | refuses verdict inv => exact inv_refuse (inv I) _
  | fails verdict never => exact absurd I never

theorem Ends.no_fault {s t : State} (E : Ends s (.next t)) (I : Inv s) :
    t.faulted = s.faulted ∧ ∀ f, t.result = .faulted f → s.result = .faulted f := by
  cases E with
  | goesOn verdict inv =>
    exact ⟨congrArg Verdict.faulted verdict,
      fun f h => (congrArg Verdict.result verdict).symm.trans h⟩
  | returns verdict inv value =>
    exact ⟨congrArg Verdict.faulted verdict, fun f h => absurd h (value f)⟩
  | refuses verdict inv =>
    exact ⟨congrArg Verdict.faulted verdict, fun f h => absurd h (by simp)⟩
  | fails verdict never => exact absurd I never

theorem Ends.persists {s t : State} (E : Ends s (.next t)) :
    (s.refused = true → t.refused = true) ∧ (s.faulted = true → t.faulted = true)
      ∧ t.plat = s.plat := by
  cases E with
  | goesOn verdict inv =>
    exact ⟨(congrArg Verdict.refused verdict).trans, (congrArg Verdict.faulted verdict).trans,
      congrArg Verdict.plat verdict⟩
  | returns verdict inv value =>
    exact ⟨(congrArg Verdict.refused verdict).trans, (congrArg Verdict.faulted verdict).trans,
      congrArg Verdict.plat verdict⟩
  | refuses verdict inv =>
    exact ⟨fun _ => rfl, (congrArg Verdict.faulted verdict).trans, congrArg Verdict.plat verdict⟩
  | fails verdict never =>
    exact ⟨(congrArg Verdict.refused verdict).trans, fun _ => rfl, congrArg Verdict.plat verdict⟩

/-! ### The operations the foreground issues -/

/-- What an open gate of a public channel operation says (R110, R199). -/
theorem channelGate_none {s : State} (h : channelGate s = none) :
    s.created = true ∧ s.ch.state ≠ .destroyed := by
  simp only [channelGate, liveChannelGate] at h
  split_ifs at h with h1 h2 h3
  exact ⟨by simpa using h2, h3⟩

theorem beginGate_none {config : RxConfig} {s : State} (h : beginGate config s = none) :
    channelGate s = none := by
  unfold beginGate at h
  split at h
  · cases h
  · assumption

/-- A `BEGIN` that passes validation asks for a buffer (R88). -/
theorem beginFailure_none {config : RxConfig} {s : State} (h : beginFailure config s = none) :
    config.bufferSize ≠ 0 := by
  simp only [beginFailure] at h
  split_ifs at h with h1 h2 h3
  exact h2

theorem ends_create (pin : U16) (s : State) : Ends s (execCreate pin s) := by
  unfold execCreate
  split
  · exact ends_refusal _ _
  · exact .returns rfl (fun _ => inv_createChannel pin s) (by simp)

theorem ends_begin (config : RxConfig) {s : State} (hwait : s.wait = none) :
    Ends s (execBegin config s) := by
  unfold execBegin
  split
  · exact ends_refusal _ _
  · rename_i hgate
    obtain ⟨hcreated, -⟩ := channelGate_none (beginGate_none hgate)
    split
    · exact .returns rfl (inv_beginFail _) (by simp)
    · rename_i hvalid
      refine .returns ?_
        (fun I => inv_beginConfigured config I hcreated hwait (beginFailure_none hvalid)) (by simp)
      calc (beginConfigured config s).verdict = (configureChannel config s).verdict := verdict_arm _
        _ = s.verdict := verdict_disarmIfCapturing s

theorem ends_finished (s : State) : Ends s (execFinished s) := by
  unfold execFinished
  split
  · exact ends_refusal _ _
  · exact .returns rfl id (by simp)

/-- A `WAIT` starts within its bound (R95, R100). -/
theorem inv_waitEnter (deadlineUs : Nat) {s : State} (I : Inv s) (hc : s.ch.state = .capturing) :
    Inv { (waitEnter deadlineUs s).2 with wait := some (waitEnter deadlineUs s).1 } := by
  obtain ⟨c, hn, hnow, hle⟩ := nowUs_clk s
  have J := inv_clk c s I hle
  simp only [waitEnter]
  rw [hn, ← hnow]
  exact { J with
    quiet := fun h => absurd hc h
    mock := fun h => ⟨{ (J.mock h).1 with }, (J.mock h).2⟩
    waiting := fun r hr => by
      cases hr
      exact ⟨hc, le_refl _, le_refl _, Nat.le_add_right _ _⟩ }

theorem ends_wait (timeoutMs : U32) (s : State) : Ends s (execWait timeoutMs s) := by
  unfold execWait
  split
  · exact ends_refusal _ _
  · rename_i hgate
    obtain ⟨-, hlive⟩ := channelGate_none hgate
    split
    · exact .returns rfl id (by simp)
    · exact .returns rfl id (by simp)
    · rename_i hidle hcomplete
      refine .returns (verdict_nowUs s) (fun I => inv_waitEnter _ I ?_) (by simp)
      have := I.notConfigured
      cases hs : s.ch.state <;> simp_all

/-- The counts of a decode and the engine's registers are free of the invariant (R30, R44). -/
theorem inv_lastStats (stats : DecodeStats) (regs : EngineRegs) {s : State} (I : Inv s) :
    Inv { s with eng := regs, ch := { s.ch with lastStats := stats } } :=
  inv_congr (inv_ch s I { s.ch with lastStats := stats } rfl I.cacheComplete I.cacheLength id) rfl

/-- `ENSURE_EDGES` meets no fault from a state with the invariant (R52, R150). -/
theorem ensureEdges_error {s : State} {f : Fault} (h : ensureEdges s = .error f) : ¬Inv s := by
  intro I
  obtain ⟨t, ht, -⟩ := inv_ensureEdges s I
  exact absurd (h.symm.trans ht) (by simp)

theorem inv_of_ensureEdges {s t : State} (h : ensureEdges s = .ok t) (I : Inv s) : Inv t := by
  obtain ⟨u, hu, J, -⟩ := inv_ensureEdges s I
  rwa [Except.ok.inj (h.symm.trans hu)]

theorem ends_decode (profile : TimingProfile) (out : List Byte) (s : State) :
    Ends s (execDecode profile out s) := by
  unfold execDecode
  split
  · exact ends_refusal _ _
  · split
    · rename_i he; exact .fails rfl (ensureEdges_error he)
    · rename_i ht
      have hv := verdict_ensureEdges ht
      unfold decodeCache
      exact .returns hv (fun I => inv_lastStats _ _ (inv_of_ensureEdges ht I)) (by simp)

theorem ends_getRawEdgeTimes (dst : List EdgeSample) (offset : U32) (s : State) :
    Ends s (execGetRawEdgeTimes dst offset s) := by
  unfold execGetRawEdgeTimes
  split
  · exact ends_refusal _ _
  · split
    · rename_i he; exact .fails rfl (ensureEdges_error he)
    · rename_i ht; exact .returns (verdict_ensureEdges ht) (inv_of_ensureEdges ht) (by simp)

theorem ends_injectEdges (edges : List EdgeSample) {s : State} (hwait : s.wait = none) :
    Ends s (execInjectEdges edges s) := by
  unfold execInjectEdges
  split
  · exact ends_refusal _ _
  · rename_i hgate
    obtain ⟨hcreated, -⟩ := channelGate_none hgate
    split
    · exact .returns rfl id (by simp)
    · rename_i hlen
      exact .returns (verdict_disarmIfCapturing s)
        (fun I => inv_injectAccepted I hcreated hwait (Nat.le_of_not_lt hlen)) (by simp)

theorem ends_destroy {s : State} (hwait : s.wait = none) : Ends s (execDestroy s) := by
  unfold execDestroy
  split
  · exact ends_refusal _ _
  · rename_i hgate
    obtain ⟨hcreated, -⟩ := channelGate_none hgate
    exact .returns (verdict_disarmIfCapturing s)
      (fun I => inv_destroyChannel I hcreated hwait) (by simp)

theorem ends_decodeBit (highNs lowNs : U32) (profile : TimingProfile) (s : State) :
    Ends s (execDecodeBit highNs lowNs profile s) := by
  unfold execDecodeBit
  split
  · exact ends_refusal _ _
  · exact .returns rfl id (by simp)

theorem ends_decodeEdges (profile : TimingProfile) (edges : List EdgeSample) (out : List Byte)
    (s : State) : Ends s (execDecodeEdges profile edges out s) := by
  unfold execDecodeEdges
  split
  · exact ends_refusal _ _
  · exact .returns rfl (fun I => inv_congr I rfl) (by simp)

/-- From the caller every internal operation is refused (R80). -/
theorem internalGate_caller {s : State} (h : s.issuer = .caller) :
    internalGate s = some .internalOperation := by
  simp [internalGate, h]

theorem ends_exec (i : Instr) {s : State} (hissuer : s.issuer = .caller) (hwait : s.wait = none) :
    Ends s (exec i s) := by
  have hinternal := internalGate_caller hissuer
  cases i with
  | create pin => exact ends_create pin s
  | beginCapture config => exact ends_begin config hwait
  | finished => exact ends_finished s
  | wait timeoutMs => exact ends_wait timeoutMs s
  | decode profile out => exact ends_decode profile out s
  | getRawEdgeTimes dst offset => exact ends_getRawEdgeTimes dst offset s
  | injectEdges edges => exact ends_injectEdges edges hwait
  | destroy => exact ends_destroy hwait
  | decodeBit highNs lowNs profile => exact ends_decodeBit highNs lowNs profile s
  | decodeEdges profile edges out => exact ends_decodeEdges profile edges out s
  | arm => simpa only [exec, execArm, hinternal] using ends_refusal s _
  | disarm => simpa only [exec, execDisarm, hinternal] using ends_refusal s _
  | readProgress => simpa only [exec, execReadProgress, hinternal] using ends_refusal s _
  | syncReads first count => simpa only [exec, execSyncReads, hinternal] using ends_refusal s _
  | completeCapture reason status =>
    simpa only [exec, execCompleteCapture, hinternal] using ends_refusal s _
  | buildEdges => simpa only [exec, execBuildEdges, hinternal] using ends_refusal s _

/-! ### The steps of the agents -/

theorem ends_issueRecord (record : List Byte) {s : State} (hwait : s.wait = none) :
    Ends s (issueRecord .caller record s) := by
  have hI : Inv s → Inv { s with issuer := .caller } := fun I => inv_congr I rfl
  unfold issueRecord
  dsimp only
  split
  · exact (ends_exec _ (s := { s with issuer := .caller }) rfl hwait).rebase rfl hI
  · exact (ends_refusal _ _).rebase rfl hI

/-- The poll of a live `WAIT` meets no fault from a state with the invariant (R95, R52). -/
theorem ends_pollStep {r : WaitRegs} {s : State} (live : s.wait = some r) :
    Ends s (.next (pollStep r s)) := by
  have hpoll : Inv s → ∃ t q, waitPoll r s = .ok (t, q) ∧ Inv t := fun I => by
    obtain ⟨hc, W⟩ := I.waiting r live
    obtain ⟨t, q, h, J, -⟩ := inv_poll r s I hc W
    exact ⟨t, q, h, J⟩
  unfold pollStep
  split
  · split
    · rename_i he
      refine .fails rfl fun I => ?_
      obtain ⟨t, q, h, -⟩ := hpoll I
      exact absurd (he.symm.trans h) (by simp)
    · rename_i he
      refine .returns (verdict_waitPoll he) (fun I => ?_) (by simp)
      obtain ⟨t, q, h, J⟩ := hpoll I
      cases he.symm.trans h; exact J
    · rename_i he
      refine .goesOn (verdict_waitPoll he) fun I => ?_
      obtain ⟨t, q, h, J⟩ := hpoll I
      cases he.symm.trans h; exact J
  · exact .goesOn rfl id

theorem ends_foregroundStep (s : State) : Ends s (foregroundStep s) := by
  unfold foregroundStep
  split
  · exact ends_pollStep ‹_›
  · rename_i idle
    split
    · rename_i record rest _
      exact (ends_issueRecord record (s := { s with ops := rest }) idle).rebase rfl
        fun I => inv_congr I rfl
    · exact .goesOn rfl id

theorem ends_moveStep (m : Move) (s : State) : Ends s (moveStep m s) := by
  cases m with
  | foreground => exact ends_foregroundStep s
  | handlerOp record =>
    obtain ⟨r, hr⟩ := issueRecord_interrupt record s
    simp only [moveStep, hr]
    exact .refuses rfl fun I => inv_congr I rfl
  | hardware k => exact .goesOn (verdict_hwStep k s) (inv_hwStep k s)
  | clock us => exact .goesOn rfl fun I => inv_clk _ s I (clockAfter_le _ _)
  | otherHolds handle held => exact .goesOn rfl fun I => inv_congr I rfl
  | during steps => exact .goesOn rfl fun I => inv_congr I rfl

/-- Every step of the machine ends so, from every state. -/
theorem ends_step (s : State) : Ends s (step s) := by
  unfold step nextStep
  split
  · rename_i m rest _
    exact (ends_moveStep m { s with sched := rest }).rebase rfl fun I => inv_congr I rfl
  · exact ends_foregroundStep s

/-! ### The points inside an operation (R7) -/

/-- No step of a hardware agent clears the signal or runs time back (R32, R181). -/
theorem hwStep_forward (k : HwStep) (s : State) :
    (s.completion = true → (hwStep k s).completion = true)
      ∧ s.cap.elapsed ≤ (hwStep k s).cap.elapsed := by
  cases k with
  | edge late overrun =>
    have F := (serveDue_frame { s with line := !s.line }).rest
    simp only [hwStep, edgeStep]
    rw [F]
    split <;> exact ⟨id, le_refl _⟩
  | transfer => simp only [hwStep]; rw [(xferStep_frame s).rest]; exact ⟨id, le_refl _⟩
  | isr => exact ⟨(isrStep_still s).signal, (isrStep_still s).time⟩
  | isrEntry => exact ⟨(isrEntry_still s).signal, (isrEntry_still s).time⟩
  | isrReturn => exact ⟨(isrReturn_still s).signal, (isrReturn_still s).time⟩
  | elapse units =>
    simp only [hwStep, elapseStep]
    split
    · rw [(serveDue_frame _).rest]; exact ⟨id, Nat.le_add_right _ _⟩
    · exact ⟨id, le_refl _⟩

theorem interleave_forward (s : State) :
    (s.completion = true → (interleave s).completion = true)
      ∧ s.cap.elapsed ≤ (interleave s).cap.elapsed :=
  interleave_induct
    (P := fun t => (s.completion = true → t.completion = true) ∧ s.cap.elapsed ≤ t.cap.elapsed)
    (fun k t h => ⟨(hwStep_forward k t).1 ∘ h.1, h.2.trans (hwStep_forward k t).2⟩) s
    ⟨id, le_refl _⟩

theorem interleave_advanced (s : State) : Advanced s (interleave s) := by
  have F := (interleave_frame s).rest
  obtain ⟨hsignal, htime⟩ := interleave_forward s
  refine ⟨?_, ?_, hsignal, progress_le_interleave s, htime⟩ <;> rw [F]

/-! ### The statements -/

/-- Settles O58: however a step ends, it answers a next state and keeps the invariant. -/
theorem stepKeepsTheInvariant : Obligations.StepKeepsTheInvariant := by
  intro s I
  obtain ⟨t, ht⟩ := (ends_step s).answers
  exact ⟨t, ht, (ht ▸ ends_step s).keeps_inv I⟩

/-- Settles O59: of the ends of a step only a fault sets the mark, and the invariant excludes it. -/
theorem noStepFaults : Obligations.NoStepFaults := by
  intro s t I h
  exact (h ▸ ends_step s).no_fault I

/-- Settles O60: no end of a step clears a mark, and a point inside an operation is hardware
steps. -/
theorem marksAndParametersPersist : Obligations.MarksAndParametersPersist :=
  ⟨fun s _ h => (h ▸ ends_step s).persists, interleave_advanced⟩

/-- Settles O6: the state before `CREATE`, element by element. -/
theorem bootHoldsTheResetValues : Obligations.BootHoldsTheResetValues := by
  intro p
  simp [State.boot, Channel.reset, Capture.reset, Transfer.reset, Interrupt.reset]

/-- Settles O7: the gate of a first `CREATE` is open. -/
theorem createConstructsAnIdleChannel : Obligations.CreateConstructsAnIdleChannel := by
  intro pin s hissuer hcreated
  have hgate : createGate s = none := by simp [createGate, hissuer, hcreated]
  refine ⟨(createChannel pin s).ret .unit, ?_, rfl⟩
  simp only [exec, execCreate, hgate]

/-- Settles O57: the state before `CREATE` is a reset state, on every platform. -/
theorem invariantHoldsAtBoot : Obligations.InvariantHoldsAtBoot :=
  ⟨inv_boot, inv_boot Platform.fixture⟩

end Sys2Proof.Machine
end

section
/-! SUPPORT. `DECODE_EDGES` of any edges (spec/43_decode_engine.md R162 to R170): the bits it
assembles and the bytes they pack to, the equations of its loop, and what the loop and its flush
leave. -/

namespace Sys2Proof.Machine

open Sys2Proof.Spec

/-! ### Bytes of bits, the most significant first (R166, R168) -/

/-- The byte whose low bits are `bits`, the last one in bit 0: the accumulator of the engine. -/
def lowByte (bits : List Bool) : Byte := BitVec.ofNat 8 (binary bits)

theorem binary_append_bit (bits : List Bool) (b : Bool) :
    binary (bits ++ [b]) = 2 * binary bits + b.toNat := by simp [binary]

theorem binary_append_zeros (bits : List Bool) (n : Nat) :
    binary (bits ++ List.replicate n false) = binary bits * 2 ^ n := by
  induction n with
  | zero => simp
  | succ n ih =>
    rw [List.replicate_succ', ← List.append_assoc, binary_append_bit, ih, Nat.pow_succ,
      Bool.toNat_false]
    ring

/-- A shift puts zeros below the bits (R168). -/
theorem lowByte_append_zeros (bits : List Bool) (n : Nat) :
    lowByte (bits ++ List.replicate n false) = lowByte bits <<< n := by
  rw [lowByte, binary_append_zeros, BitVec.ofNat_mul, BitVec.shiftLeft_eq_mul_twoPow, lowByte]
  congr 1
  exact BitVec.eq_of_toNat_eq (by simp)

theorem shiftLeft_one_and_bit (x : Byte) (b : Bool) :
    x <<< 1 &&& BitVec.ofNat 8 b.toNat = 0#8 := by
  cases b with
  | false => simp
  | true => ext i hi; simp; omega

/-- A shift by one and an `or` put one bit below the bits (R166). -/
theorem lowByte_append_bit (bits : List Bool) (b : Bool) :
    lowByte (bits ++ [b]) = lowByte bits <<< 1 ||| BitVec.ofNat 8 b.toNat := by
  rw [← BitVec.add_eq_or_of_and_eq_zero _ _ (shiftLeft_one_and_bit _ b),
    BitVec.shiftLeft_eq_mul_twoPow, lowByte, binary_append_bit, BitVec.ofNat_add,
    BitVec.ofNat_mul, mul_comm]
  rfl

/-- Eight bits are a byte of their own (R166). -/
theorem packMsb_eight {bits : List Bool} (more : List Bool) (h : bits.length = 8) :
    packMsb (bits ++ more) = lowByte bits :: packMsb more := by
  match bits, h with
  | [_, _, _, _, _, _, _, _], _ => rfl

/-- One to seven bits are one byte, left-aligned (R168). -/
theorem packMsb_partial {bits : List Bool} (hpos : bits ≠ []) (h : bits.length < 8) :
    packMsb bits = [lowByte bits <<< (8 - bits.length)] := by
  rw [← lowByte_append_zeros, packMsb, lowByte]
  · rintro b7 b6 b5 b4 b3 b2 b1 b0 rest rfl
    simp at h
    omega
  · exact hpos

theorem length_packMsb (bits : List Bool) : (packMsb bits).length = (bits.length + 7) / 8 := by
  by_cases hlt : bits.length < 8
  · by_cases hnil : bits = []
    · subst hnil; rfl
    · have hpos := List.length_pos_of_ne_nil hnil
      rw [packMsb_partial hnil hlt, List.length_singleton]
      omega
  · have h := packMsb_eight (bits := bits.take 8) (bits.drop 8) (by simp; omega)
    rw [List.take_append_drop] at h
    rw [h, List.length_cons, length_packMsb (bits.drop 8), List.length_drop]
    omega
termination_by bits.length

/-! ### The classifications and their bits (R165, R166) -/

/-- The classification of a pair that stands for the bit `b` (R158). -/
def bitValue : Bool → BitValue
  | false => .zero
  | true => .one

/-- A classification is invalid or stands for a bit (R158). -/
theorem invalid_or_bitValue (v : BitValue) : v = .invalid ∨ ∃ b, v = bitValue b := by
  cases v with
  | invalid => exact .inl rfl
  | zero => exact .inr ⟨false, rfl⟩
  | one => exact .inr ⟨true, rfl⟩

@[simp] theorem bitValue_ne_invalid (b : Bool) : bitValue b ≠ .invalid := by cases b <;> decide

@[simp] theorem bitOf_bitValue (b : Bool) : bitOf (bitValue b) = some (BitVec.ofNat 8 b.toNat) := by
  cases b <;> rfl

@[simp] theorem validBits_nil : validBits [] = [] := rfl

@[simp] theorem validBits_invalid_cons (vs : List BitValue) :
    validBits (.invalid :: vs) = validBits vs := rfl

@[simp] theorem validBits_bitValue_cons (b : Bool) (vs : List BitValue) :
    validBits (bitValue b :: vs) = b :: validBits vs := by cases b <;> rfl

@[simp] theorem upToBit_zero (vs : List BitValue) : upToBit vs 0 = [] := by cases vs <;> rfl

theorem upToBit_invalid_cons (vs : List BitValue) {n : Nat} (h : 0 < n) :
    upToBit (.invalid :: vs) n = .invalid :: upToBit vs n := by
  obtain ⟨m, rfl⟩ := Nat.exists_eq_add_of_lt h
  rw [upToBit, if_pos rfl]

theorem upToBit_bitValue_cons (b : Bool) (vs : List BitValue) {n : Nat} (h : 0 < n) :
    upToBit (bitValue b :: vs) n = bitValue b :: upToBit vs (n - 1) := by
  obtain ⟨m, rfl⟩ := Nat.exists_eq_add_of_lt h
  rw [upToBit, if_neg (bitValue_ne_invalid b)]
  rfl

theorem upToBit_sublist (vs : List BitValue) (n : Nat) : (upToBit vs n).Sublist vs := by
  induction vs generalizing n with
  | nil => exact .slnil
  | cons v vs ih => cases n with
    | zero => exact List.nil_sublist _
    | succ n => exact (ih _).cons_cons v

theorem take_bitValue (r : EngineRegs) (b : Bool) :
    r.take (bitValue b) = { r with
      i := r.i + 2
      total := r.total + 1
      acc := r.acc <<< 1 ||| BitVec.ofNat 8 b.toNat
      nbits := r.nbits + 1 } := by
  simp only [EngineRegs.take, bitOf_bitValue]

theorem take_total (r : EngineRegs) (v : BitValue) :
    (r.take v).total = r.total + 1 := by cases v <;> rfl

theorem take_invalid (r : EngineRegs) (v : BitValue) :
    (r.take v).invalid = r.invalid + if v = .invalid then 1 else 0 := by cases v <;> rfl

/-! ### The loop (R162 to R167) -/

/-- An edge that starts no (HIGH, LOW) pair is discarded alone (R163, R164). -/
theorem decodeLoop_skip (p : TimingProfile) {a b : EdgeSample} (rest : List EdgeSample)
    (r : EngineRegs) (out : List Byte) (h : ¬(a.high = true ∧ b.high = false)) :
    decodeLoop p (a :: b :: rest) r out = decodeLoop p (b :: rest) { r with i := r.i + 1 } out := by
  rw [decodeLoop, if_pos (by simpa [imp_iff_not_or] using h)]

section Pair

variable (p : TimingProfile) {a b : EdgeSample} (rest : List EdgeSample) {r : EngineRegs}
  {out : List Byte} {v : BitValue}

/-- A (HIGH, LOW) pair whose classification completes no byte (R165, R166). -/
theorem decodeLoop_pair (h : a.high = true ∧ b.high = false)
    (hv : classify a.durationNs b.durationNs p = v) (hn : (r.take v).nbits ≠ 8) :
    decodeLoop p (a :: b :: rest) r out = decodeLoop p rest (r.take v) out := by
  subst hv
  rw [decodeLoop, if_neg (by simp [h]), if_neg hn]

/-- A (HIGH, LOW) pair whose bit completes a byte that has a slot (R166). -/
theorem decodeLoop_byte (h : a.high = true ∧ b.high = false)
    (hv : classify a.durationNs b.durationNs p = v) (hn : (r.take v).nbits = 8)
    (hw : (r.take v).written ≠ out.length) :
    decodeLoop p (a :: b :: rest) r out
      = decodeLoop p rest (r.take v).emitted (out.set (r.take v).written (r.take v).acc) := by
  subst hv
  rw [decodeLoop, if_neg (by simp [h]), if_pos hn, if_neg hw]

/-- A (HIGH, LOW) pair whose bit completes a byte that has no slot (R167). -/
theorem decodeLoop_full (h : a.high = true ∧ b.high = false)
    (hv : classify a.durationNs b.durationNs p = v) (hn : (r.take v).nbits = 8)
    (hw : (r.take v).written = out.length) :
    decodeLoop p (a :: b :: rest) r out
      = { regs := r.take v, out := out, overflow := true } := by
  subst hv
  rw [decodeLoop, if_neg (by simp [h]), if_pos hn, if_pos hw]

end Pair

/-- No pair is left (R169). -/
theorem decodeLoop_end (p : TimingProfile) {es : List EdgeSample} (r : EngineRegs)
    (out : List Byte) (h : ∀ a b rest, es ≠ a :: b :: rest) :
    decodeLoop p es r out = { regs := r, out := out, overflow := false } := by
  rw [decodeLoop]
  exact h

/-- The engine holds the bits `pending` of the byte it assembles and has written `written` bytes
(R166). -/
structure Assembling (r : EngineRegs) (pending : List Bool) (written : Nat) : Prop where
  acc : r.acc = lowByte pending
  nbits : r.nbits = pending.length
  short : pending.length < 8
  written : r.written = written

theorem assembling_reset : Assembling EngineRegs.reset [] 0 := ⟨rfl, rfl, by decide, rfl⟩

/-- The engine goes from the registers `r`, with `out` the bytes `done` and then `space`, to the end
`e`: it classifies `seen`, and its bytes are `bytes`, of which `out` takes as many as it has
slots. -/
structure DecodesTo (r : EngineRegs) (done space : List Byte) (seen : List BitValue)
    (bytes : List Byte) (e : EngineEnd) : Prop where
  total : e.regs.total = r.total + seen.length
  invalid : e.regs.invalid = r.invalid + seen.count .invalid
  written : e.regs.written = done.length + min bytes.length space.length
  overflow : e.overflow = decide (space.length < bytes.length)
  out : e.out = done ++ (bytes.take space.length ++ space.drop bytes.length)

/-- The flush of the bits pending when no pair is left (R168). -/
theorem flushPartial_decodesTo {r : EngineRegs} {pending : List Bool} {done : List Byte}
    (space : List Byte) (A : Assembling r pending done.length) :
    DecodesTo r done space [] (packMsb pending)
      (flushPartial { regs := r, out := done ++ space, overflow := false }) := by
  obtain ⟨hacc, hnbits, hshort, hwritten⟩ := A
  by_cases hnil : pending = []
  · subst hnil
    have h0 : r.nbits = 0 := hnbits
    simp only [flushPartial, h0]
    constructor <;> simp [packMsb, hwritten]
  · have h0 : r.nbits ≠ 0 := by simpa [hnbits] using hnil
    rw [packMsb_partial hnil hshort]
    cases space with
    | nil =>
      simp only [flushPartial, h0, hwritten]
      constructor <;> simp [hwritten]
    | cons x space =>
      simp only [flushPartial, h0, hwritten]
      constructor <;> simp [hacc, hnbits]

/-- A bit that completes a byte `out` has no slot for ends the decode (R167). -/
theorem decodesTo_full {r : EngineRegs} {pending : List Bool} {done : List Byte} {b : Bool}
    (A : Assembling r pending done.length) (h8 : pending.length + 1 = 8) :
    DecodesTo r done [] [bitValue b] (packMsb (pending ++ [b]))
      (flushPartial { regs := r.take (bitValue b), out := done ++ [], overflow := true }) := by
  have hbyte := packMsb_eight (bits := pending ++ [b]) [] (by simp [h8])
  rw [List.append_nil] at hbyte
  rw [hbyte, take_bitValue]
  constructor <;> simp [flushPartial, packMsb, A.written]

/-- An end reached from the registers after a pair, told from those before it (R165). -/
theorem DecodesTo.of_take {r : EngineRegs} {v : BitValue} {done space : List Byte}
    {seen : List BitValue} {bytes : List Byte} {e : EngineEnd}
    (D : DecodesTo (r.take v) done space seen bytes e) :
    DecodesTo r done space (v :: seen) bytes e := by
  obtain ⟨htotal, hinvalid, hwritten, hoverflow, hout⟩ := D
  refine ⟨?_, ?_, hwritten, hoverflow, hout⟩
  · rw [htotal, take_total, List.length_cons]
    omega
  · simp only [hinvalid, take_invalid, List.count_cons, beq_iff_eq]
    omega

/-- An end reached after a byte has been emitted, told from before it (R166). -/
theorem DecodesTo.of_emitted {q : EngineRegs} {x y : Byte} {done space : List Byte}
    {seen : List BitValue} {bytes : List Byte} {e : EngineEnd}
    (D : DecodesTo q.emitted (done ++ [x]) space seen bytes e) :
    DecodesTo q done (y :: space) seen (x :: bytes) e := by
  obtain ⟨htotal, hinvalid, hwritten, hoverflow, hout⟩ := D
  refine ⟨htotal, hinvalid, ?_, ?_, ?_⟩
  · rw [hwritten]
    simp
    omega
  · simpa using hoverflow
  · simpa using hout

/-- The registers after a bit: it joins the bits pending, which may now be a byte (R166). -/
theorem Assembling.take_bitValue {r : EngineRegs} {pending : List Bool} {written : Nat}
    (A : Assembling r pending written) (b : Bool) :
    (r.take (bitValue b)).acc = lowByte (pending ++ [b])
      ∧ (r.take (bitValue b)).nbits = pending.length + 1
      ∧ (r.take (bitValue b)).written = written := by
  rw [Machine.take_bitValue, lowByte_append_bit, ← A.acc, ← A.nbits, ← A.written]
  exact ⟨rfl, rfl, rfl⟩

/-- After a byte has been emitted no bit is pending (R166). -/
theorem assembling_emitted {q : EngineRegs} {done : List Byte} (x : Byte)
    (h : q.written = done.length) : Assembling q.emitted [] (done ++ [x]).length :=
  ⟨rfl, rfl, by decide, by rw [List.length_append, ← h]; rfl⟩

/-- A completed byte goes to the first free slot of `out` (R166). -/
theorem set_append_cons_length (done space : List Byte) (x y : Byte) :
    (done ++ y :: space).set done.length x = (done ++ [x]) ++ space := by simp

/-- What the loop and the flush leave, from any point of the loop (R162 to R170). -/
theorem decodeLoop_decodesTo (p : TimingProfile) (es : List EdgeSample) {r : EngineRegs}
    {pending : List Bool} {done space : List Byte} {seen : List BitValue}
    (A : Assembling r pending done.length)
    (hseen : upToBit (classified p es) (8 * (space.length + 1) - pending.length) = seen) :
    DecodesTo r done space seen (packMsb (pending ++ validBits seen))
      (flushPartial (decodeLoop p es r (done ++ space))) := by
  induction es using classified.induct generalizing r pending done space seen with
  | case1 a b rest hpair ih =>
    have hshort := A.short
    rw [classified, if_pos hpair] at hseen
    obtain hv | ⟨bit, hv⟩ := invalid_or_bitValue (classify a.durationNs b.durationNs p)
    · rw [hv, upToBit_invalid_cons _ (by omega)] at hseen
      subst hseen
      have hq : Assembling (r.take .invalid) pending done.length :=
        ⟨A.acc, A.nbits, A.short, A.written⟩
      rw [validBits_invalid_cons, decodeLoop_pair p rest hpair hv (by rw [hq.nbits]; omega)]
      exact (ih hq rfl).of_take
    · rw [hv, upToBit_bitValue_cons bit _ (by omega)] at hseen
      subst hseen
      obtain ⟨hacc, hnbits, hwritten⟩ := A.take_bitValue bit
      rw [validBits_bitValue_cons, List.append_cons]
      have hlen : (pending ++ [bit]).length = pending.length + 1 := List.length_append
      by_cases h8 : pending.length + 1 = 8
      · cases space with
        | nil =>
          have hlast : 8 * (([] : List Byte).length + 1) - pending.length - 1 = 0 := by
            rw [List.length_nil]; omega
          rw [decodeLoop_full p rest hpair hv (hnbits.trans h8) (by simpa using hwritten), hlast,
            upToBit_zero, validBits_nil, List.append_nil]
          exact decodesTo_full A h8
        | cons x space =>
          rw [decodeLoop_byte p rest hpair hv (hnbits.trans h8) (by simp [hwritten]), hacc,
            hwritten, set_append_cons_length, packMsb_eight _ (hlen.trans h8)]
          have hroom : 8 * (space.length + 1) - ([] : List Bool).length
              = 8 * ((x :: space).length + 1) - pending.length - 1 := by
            simp only [List.length_cons, List.length_nil]
            omega
          exact (ih (assembling_emitted _ hwritten) (by rw [hroom])).of_emitted.of_take
      · have hq : Assembling (r.take (bitValue bit)) (pending ++ [bit]) done.length :=
          ⟨hacc, hnbits.trans hlen.symm, by omega, hwritten⟩
        rw [decodeLoop_pair p rest hpair hv (by rw [hnbits]; exact h8)]
        exact (ih hq (by rw [hlen, Nat.sub_sub])).of_take
  | case2 a b rest hskip ih =>
    rw [classified, if_neg hskip] at hseen
    rw [decodeLoop_skip p rest r _ hskip]
    have hnext : Assembling { r with i := r.i + 1 } pending done.length :=
      ⟨A.acc, A.nbits, A.short, A.written⟩
    obtain ⟨htotal, hinvalid, hwritten, hoverflow, hout⟩ := ih hnext hseen
    exact ⟨htotal, hinvalid, hwritten, hoverflow, hout⟩
  | case3 es hend =>
    rw [classified, upToBit] at hseen
    · rw [← hseen, decodeLoop_end p r _ hend, validBits_nil, List.append_nil]
      exact flushPartial_decodesTo space A
    · exact hend

/-! ### The statements -/

/-- What `DECODE_EDGES` leaves in the registers and in `out`, for any edges (R54, R162 to R170). -/
theorem decodeEdges_decodesTo (p : TimingProfile) (edges : List EdgeSample) (out : List Byte) :
    DecodesTo EngineRegs.reset [] out
      (upToBit (classified p edges) (8 * (out.length + 1)))
      (packMsb (validBits (upToBit (classified p edges) (8 * (out.length + 1)))))
      (decodeEdges p edges out) :=
  decodeLoop_decodesTo (pending := []) (done := []) p edges assembling_reset rfl

/-- The number of pairs an engine started afresh has classified (R165). -/
theorem DecodesTo.total_of_reset {done space bytes : List Byte} {seen : List BitValue}
    {e : EngineEnd} (D : DecodesTo EngineRegs.reset done space seen bytes e) :
    e.regs.total = seen.length := D.total.trans (Nat.zero_add _)

/-- The number of invalid pairs an engine started afresh has classified (R165). -/
theorem DecodesTo.invalid_of_reset {done space bytes : List Byte} {seen : List BitValue}
    {e : EngineEnd} (D : DecodesTo EngineRegs.reset done space seen bytes e) :
    e.regs.invalid = seen.count .invalid := D.invalid.trans (Nat.zero_add _)

/-- The verdict on what an engine started afresh leaves (R167, R170). -/
theorem DecodesTo.verdict {out : List Byte} {seen : List BitValue} {bytes : List Byte}
    {e : EngineEnd} (D : DecodesTo EngineRegs.reset [] out seen bytes e) :
    decodeVerdict e =
      if out.length < bytes.length then .err .bufferOverflow
      else if seen.count .invalid * 10 > seen.length then .err .highErrorRate
      else .ok bytes.length := by
  simp only [decodeVerdict, D.overflow, decide_eq_true_eq, D.total_of_reset, D.invalid_of_reset,
    Config.errFactor]
  split
  · rfl
  · next hfits =>
    have hwritten : e.regs.written = bytes.length := by
      rw [D.written, List.length_nil, Nat.zero_add, Nat.min_eq_left (by omega)]
    rw [hwritten]

/-- `DECODE_EDGES` outside interrupt context completes: of what `execDecodeEdges_open` asks for
it needs no channel (R111, R162). -/
theorem exec_decodeEdges {s : State} (h : s.issuer ≠ .interrupt) (p : TimingProfile)
    (edges : List EdgeSample) (out : List Byte) :
    exec (.decodeEdges p edges out) s =
      .next ({ s with eng := (decodeEdges p edges out).regs }.ret
        (.decodedEdges (decodeVerdict (decodeEdges p edges out))
          (decodeEdges p edges out).regs.total (decodeEdges p edges out).regs.invalid
          (decodeEdges p edges out).out)) := by
  have hgate : engineGate s = none := if_neg h
  simp only [exec, execDecodeEdges, hgate]

/-- Settles O52: what the loop and the flush leave, from the reset registers. -/
theorem decodeEdgesAccountsForEveryPair : Obligations.DecodeEdgesAccountsForEveryPair := by
  intro p edges out s hissuer seen invalid bytes
  have D : DecodesTo EngineRegs.reset [] out seen bytes (decodeEdges p edges out) :=
    decodeEdges_decodesTo p edges out
  refine ⟨_, exec_decodeEdges hissuer p edges out, ?_⟩
  rw [State.ret, D.verdict, D.total_of_reset, D.invalid_of_reset, D.out, List.nil_append]

/-- The bytes `DECODE_EDGES` emits are no more than the valid bits fill (R166, R168). -/
theorem length_packMsb_upToBit_le (vs : List BitValue) (n : Nat) :
    (packMsb (validBits (upToBit vs n))).length ≤ ((validBits vs).length + 7) / 8 := by
  have hbits : (validBits (upToBit vs n)).length ≤ (validBits vs).length :=
    ((upToBit_sublist vs n).filterMap _).length_le
  rw [length_packMsb]
  omega

/-- Past the bytes copied to its start, a list is as it was. -/
theorem getElem?_take_append_drop (bytes out : List Byte) {k : Nat} (h : bytes.length ≤ k) :
    (bytes.take out.length ++ out.drop bytes.length)[k]? = out[k]? := by
  have htake : (bytes.take out.length).length = min out.length bytes.length := List.length_take
  rw [List.getElem?_append_right (by omega), List.getElem?_drop]
  by_cases hfits : bytes.length ≤ out.length
  · congr 1
    omega
  · rw [List.getElem?_eq_none (by omega), List.getElem?_eq_none (by omega)]

/-- Settles O53: by O52, what is not the bytes emitted is what `out` held there. -/
theorem decodeEdgesLeavesTheRestOfOut : Obligations.DecodeEdgesLeavesTheRestOfOut := by
  intro p edges out s hissuer
  obtain ⟨t, hexec, ht⟩ := decodeEdgesAccountsForEveryPair p edges out s hissuer
  refine ⟨t, _, _, _, _, hexec, by rw [ht], ?_, fun k hk => ?_⟩
  · simp
    omega
  · exact getElem?_take_append_drop _ _ ((length_packMsb_upToBit_le _ _).trans hk)

end Sys2Proof.Machine
end

section
/-! SUPPORT. The decoder on whole records (spec/30_encoding.md R82, R83, R86): operand records read
and written by the format of a code, the codes that have a format, and the two round trips. -/

namespace Sys2Proof

open Sys2Proof.Spec

/-! ### What the decoder answers (R86) -/

/-- A record is accepted exactly when its operands fill the format of its code. -/
theorem decode_eq_ok_iff {record : List Byte} {i : Instr} :
    decode record = .ok i
      ↔ ∃ op bs, record = op :: bs ∧ getOperands op.toNat bs = some (some (i, [])) := by
  cases record with
  | nil => simp [decode]
  | cons op bs =>
    simp only [decode, List.cons.injEq]
    split <;> simp_all

/-- A record is reserved exactly when its code has no format (R82). -/
theorem decode_eq_reserved_iff {op : Byte} {bs : List Byte} :
    decode (op :: bs) = .error .reservedOpcode ↔ getOperands op.toNat bs = none := by
  constructor
  · intro h
    by_contra hsome
    exact Laws.not_reserved op bs (Option.isSome_iff_ne_none.2 hsome) h
  · intro h
    simp only [decode, h]

/-- The codes with no format are those outside R78 to R80. -/
theorem getOperands_eq_none_iff {op : Nat} {bs : List Byte} :
    getOperands op bs = none ↔ op ∉ codes := by
  unfold getOperands
  split
  case h_17 => simp_all [codes]
  all_goals simp [codes]

/-! ### Operand records (R76, R83) -/

/-- Reading a well-formed operand record by the format of its code gives the operation back, and
leaves what follows the record. -/
theorem getOperands_put {i : Instr} (hwf : i.wellFormed = true) (r : List Byte) :
    getOperands i.opcode.toNat (i.operandBytes ++ r) = some (some (i, r)) := by
  cases i with
  | create pin => simp [Instr.opcode, Instr.operandBytes, getOperands, getU16_put]
  | beginCapture config => simp [Instr.opcode, Instr.operandBytes, getOperands, getConfig_put]
  | wait timeoutMs => simp [Instr.opcode, Instr.operandBytes, getOperands, getU32_put]
  | syncReads first count => simp [Instr.opcode, Instr.operandBytes, getOperands, getU32_put]
  | completeCapture reason status =>
    simp [Instr.opcode, Instr.operandBytes, getOperands, getReason_put, getStatus_put]
  | decodeBit highNs lowNs profile =>
    simp [Instr.opcode, Instr.operandBytes, getOperands, getU32_put, getProfile_put]
  | decode profile out =>
    have hout : out.length < 2 ^ 32 := of_decide_eq_true hwf
    simp [Instr.opcode, Instr.operandBytes, getOperands, getProfile_put,
      getList_put _ _ getU8_put out _ hout]
  | getRawEdgeTimes dst offset =>
    have hdst : dst.length < 2 ^ 32 := of_decide_eq_true hwf
    simp [Instr.opcode, Instr.operandBytes, getOperands, getU32_put,
      getList_put _ _ getEdge_put dst _ hdst]
  | injectEdges edges =>
    have hedges : edges.length < 2 ^ 32 := of_decide_eq_true hwf
    simp [Instr.opcode, Instr.operandBytes, getOperands,
      getList_put _ _ getEdge_put edges _ hedges]
  | decodeEdges profile edges out =>
    obtain ⟨hedges, hout⟩ : edges.length < 2 ^ 32 ∧ out.length < 2 ^ 32 := by
      simpa [Instr.wellFormed, fitsU32] using hwf
    simp [Instr.opcode, Instr.operandBytes, getOperands, getProfile_put,
      getList_put _ _ getEdge_put edges _ hedges, getList_put _ _ getU8_put out _ hout]
  | finished | destroy | arm | disarm | readProgress | buildEdges => rfl

/-- What is read by the format of a code is a well-formed operation of that code, and the bytes read
are the ones writing its operands gives. -/
theorem put_getOperands {op : Nat} {bs r : List Byte} {i : Instr}
    (h : getOperands op bs = some (some (i, r))) :
    i.wellFormed = true ∧ i.opcode.toNat = op ∧ bs = i.operandBytes ++ r := by
  unfold getOperands at h
  split at h <;>
    simp only [Option.bind_eq_bind, Option.bind_eq_some_iff, Prod.exists, Option.pure_def,
      Option.some.injEq, Prod.mk.injEq, reduceCtorEq] at h
  case h_1 =>
    obtain ⟨pin, _, hpin, rfl, rfl⟩ := h
    exact ⟨rfl, rfl, put_getU16 hpin⟩
  case h_2 =>
    obtain ⟨config, _, hconfig, rfl, rfl⟩ := h
    exact ⟨rfl, rfl, put_getConfig hconfig⟩
  case h_4 =>
    obtain ⟨timeoutMs, _, htimeout, rfl, rfl⟩ := h
    exact ⟨rfl, rfl, put_getU32 htimeout⟩
  case h_5 =>
    obtain ⟨profile, _, hprofile, out, _, hout, rfl, rfl⟩ := h
    obtain ⟨hfits, rfl⟩ := put_getList put_getU8 hout
    exact ⟨hfits, rfl, by simp [put_getProfile hprofile, Instr.operandBytes]⟩
  case h_6 =>
    obtain ⟨dst, _, hdst, offset, _, hoffset, rfl, rfl⟩ := h
    obtain ⟨hfits, rfl⟩ := put_getList put_getEdge hdst
    exact ⟨hfits, rfl, by simp [put_getU32 hoffset, Instr.operandBytes]⟩
  case h_7 =>
    obtain ⟨edges, _, hedges, rfl, rfl⟩ := h
    obtain ⟨hfits, rfl⟩ := put_getList put_getEdge hedges
    exact ⟨hfits, rfl, rfl⟩
  case h_12 =>
    obtain ⟨first, _, hfirst, count, _, hcount, rfl, rfl⟩ := h
    exact ⟨rfl, rfl, by simp [put_getU32 hfirst, put_getU32 hcount, Instr.operandBytes]⟩
  case h_13 =>
    obtain ⟨reason, _, hreason, status, _, hstatus, rfl, rfl⟩ := h
    exact ⟨rfl, rfl, by simp [put_getReason hreason, put_getStatus hstatus, Instr.operandBytes]⟩
  case h_15 =>
    obtain ⟨highNs, _, hhigh, lowNs, _, hlow, profile, _, hprofile, rfl, rfl⟩ := h
    exact ⟨rfl, rfl, by
      simp [put_getU32 hhigh, put_getU32 hlow, put_getProfile hprofile, Instr.operandBytes]⟩
  case h_16 =>
    obtain ⟨profile, _, hprofile, edges, _, hedges, out, _, hout, rfl, rfl⟩ := h
    obtain ⟨hfitsEdges, rfl⟩ := put_getList put_getEdge hedges
    obtain ⟨hfitsOut, rfl⟩ := put_getList put_getU8 hout
    exact ⟨Bool.and_eq_true_iff.2 ⟨hfitsEdges, hfitsOut⟩, rfl, by
      simp [put_getProfile hprofile, Instr.operandBytes]⟩
  case h_3 | h_8 | h_9 | h_10 | h_11 | h_14 =>
    obtain ⟨rfl, rfl⟩ := h
    exact ⟨rfl, rfl, rfl⟩

/-! ### The round trips -/

/-- Settles O3: the operand record is read back and leaves no byte over. -/
theorem decodeOfEncodeIsTheOperation : Obligations.DecodeOfEncodeIsTheOperation := by
  intro i hwf
  have hread := getOperands_put hwf []
  rw [List.append_nil] at hread
  exact decode_eq_ok_iff.2 ⟨_, _, rfl, hread⟩

/-- Settles O4: an accepted record has the code of its operation, and operands with no byte over. -/
theorem decodedRecordsAreEncodings : Obligations.DecodedRecordsAreEncodings := by
  intro record i h
  obtain ⟨op, bs, rfl, hread⟩ := decode_eq_ok_iff.1 h
  obtain ⟨hwf, hop, hbs⟩ := put_getOperands hread
  refine ⟨hwf, ?_⟩
  rw [encode, hbs, List.append_nil, BitVec.eq_of_toNat_eq hop]

/-- Settles O1: the decoder runs on each record. -/
theorem recordsWrittenOutDecode : Obligations.RecordsWrittenOutDecode := by
  unfold Obligations.RecordsWrittenOutDecode
  decide

end Sys2Proof
end

section
/-! SUPPORT. Refusals before any meaning is given (spec/30_encoding.md R80, R82): internal
operations issued by the caller, and records whose code spells no operation. -/

namespace Sys2Proof.Machine

open Sys2Proof.Spec

/-- An internal operation its gate refuses has no other effect (R80). -/
theorem exec_internal_refused {i : Instr} {s : State} {reason : Refusal}
    (hi : isInternal i = true) (hgate : internalGate s = some reason) :
    exec i s = .next (s.refuse reason) := by
  cases i with
  | arm => simp only [exec, execArm, hgate]
  | disarm => simp only [exec, execDisarm, hgate]
  | readProgress => simp only [exec, execReadProgress, hgate]
  | syncReads first count => simp only [exec, execSyncReads, hgate]
  | completeCapture reason status => simp only [exec, execCompleteCapture, hgate]
  | buildEdges => simp only [exec, execBuildEdges, hgate]
  | _ => cases hi

/-- Settles O9: the gate of the internal operations refuses the caller. -/
theorem callerMayNotIssueInternalOperations : Obligations.CallerMayNotIssueInternalOperations :=
  fun _ _ hi hcaller => exec_internal_refused hi (internalGate_caller hcaller)

/-- Settles O2: a code outside R78 to R80 has no format, and its record is then refused. -/
theorem reservedCodesAreRefused : Obligations.ReservedCodesAreRefused := by
  have hreserved : ∀ (op : Byte) (operands : List Byte),
      decode (op :: operands) = .error .reservedOpcode ↔ op.toNat ∉ codes := fun op operands =>
    decode_eq_reserved_iff.trans getOperands_eq_none_iff
  refine ⟨hreserved, fun op operands rest start s hop turn idle hops => ?_⟩
  rw [step_of_record turn idle hops, issueRecord, (hreserved op operands).2 hop]
  rfl

end Sys2Proof.Machine
end

section
/-! SUPPORT. Channel control (spec/40_channel_control.md): the gates of its operations (R110, R111,
R199), the validation of `BEGIN` and the capture it opens (R88, R89, R118, R119), `WAIT` outside its
polls (R95, R101, R102), the completion of a capture (R103), and the channel's transitions (R106,
R109, R112). -/

namespace Sys2Proof.Machine

open Sys2Proof.Spec

/-! ### Refusals (R110, R111, R199) -/

/-- A public channel operation its gate refuses has no other effect (R110, R111, R199). -/
theorem exec_public_refused {i : Instr} {s : State} {reason : Refusal}
    (hi : isPublic i = true) (hgate : channelGate s = some reason) :
    exec i s = .next (s.refuse reason) := by
  cases i with
  | beginCapture config => simp only [exec, execBegin, beginGate, hgate]
  | finished => simp only [exec, execFinished, hgate]
  | wait timeoutMs => simp only [exec, execWait, hgate]
  | decode profile out => simp only [exec, execDecode, hgate]
  | getRawEdgeTimes dst offset => simp only [exec, execGetRawEdgeTimes, hgate]
  | injectEdges edges => simp only [exec, execInjectEdges, hgate]
  | destroy => simp only [exec, execDestroy, hgate]
  | _ => cases hi

/-- What needs a live channel, a public operation or an internal one the block issues, is refused by
the channel gate (R110, R199). -/
theorem exec_channel_refused {i : Instr} {s : State} {reason : Refusal}
    (hi : isPublic i = true ∨ isInternal i = true ∧ s.issuer = .block)
    (hcontext : s.issuer ≠ .interrupt) (hgate : liveChannelGate s = some reason) :
    exec i s = .next (s.refuse reason) := by
  rcases hi with hi | ⟨hi, hblock⟩
  · exact exec_public_refused hi (by rw [channelGate, if_neg hcontext, hgate])
  · exact exec_internal_refused hi (by simp [internalGate, hblock, hgate])

theorem liveChannelGate_noChannel {s : State} (h : s.created = false) :
    liveChannelGate s = some .noChannel := by
  simp [liveChannelGate, h]

theorem liveChannelGate_destroyed {s : State} (h : s.created = true)
    (hd : s.ch.state = .destroyed) : liveChannelGate s = some .useAfterDestroy := by
  simp [liveChannelGate, h, hd]

/-- A `CREATE` where a channel exists is refused, live or destroyed (R199). -/
theorem exec_create_refused (pin : U16) {s : State} (hcontext : s.issuer ≠ .interrupt)
    (h : s.created = true) : exec (.create pin) s = .next (s.refuse
      (if s.ch.state = .destroyed then .useAfterDestroy else .alreadyCreated)) := by
  have hgate : createGate s
      = some (if s.ch.state = .destroyed then .useAfterDestroy else .alreadyCreated) := by
    rw [createGate, if_neg hcontext, if_pos h]
    split <;> rfl
  simp only [exec, execCreate, hgate]

/-- Settles O8: the gates without a live channel, and that of `CREATE` with a channel. -/
theorem operationsNeedALiveChannel : Obligations.OperationsNeedALiveChannel :=
  fun _ _ hcontext => ⟨fun hi =>
    ⟨fun h => exec_channel_refused hi hcontext (liveChannelGate_noChannel h),
     fun h hd => exec_channel_refused hi hcontext (liveChannelGate_destroyed h hd)⟩,
    fun pin => exec_create_refused pin hcontext⟩

/-- Settles O10: every gate tests the context first, and a handler's record meets the decoder before
any gate. -/
theorem interruptContextMayNotIssue : Obligations.InterruptContextMayNotIssue := by
  refine ⟨fun i s => exec_interrupt i, fun i record rest s hi hm => ?_,
    fun e record rest s he hm => ?_⟩
  · simp only [step_of_move hm, moveStep, issueRecord, hi]
    exact exec_interrupt i rfl
  · simp only [step_of_move hm, moveStep, issueRecord, he]
    cases e <;> rfl

/-! ### The validation of `BEGIN` (R57, R88, R89, R118, R119) -/

theorem bufferPlaced_iff (p : Platform) : bufferPlaced p = true ↔ Placed p := by
  show bufferPlaced p = true ↔ p.bufBase % sampleBytes p = 0
    ∧ (p.cacheCoherent = false → p.bufBase % p.cacheLine = 0 ∧ p.bufPadded = true)
  cases hc : p.cacheCoherent <;> simp [bufferPlaced, hc]

/-- The lookup of a pin finds the first record of the pin and the backend (R118). -/
theorem pinRecord_eq_some_iff {p : Platform} {pin : U16} {r : PinRecord} :
    pinRecord p pin = some r ↔ FirstRecord p pin r := by
  rw [pinRecord, List.find?_eq_some_iff_append, FirstRecord]
  constructor
  · rintro ⟨hr, before, after, htable, hbefore⟩
    simp only [Bool.and_eq_true, decide_eq_true_eq] at hr
    obtain ⟨hpin, hbackend⟩ := hr
    exact ⟨before, after, htable, hpin, hbackend,
      fun q hq => by simpa [imp_iff_not_or] using hbefore q hq⟩
  · rintro ⟨before, after, htable, hpin, hbackend, hbefore⟩
    exact ⟨by simp [hpin, hbackend], before, after, htable,
      fun q hq => by simpa [imp_iff_not_or] using hbefore q hq⟩

theorem pinSupported_iff_firstRecord {p : Platform} {pin : U16} :
    pinSupported p pin = true ↔ ∃ r, FirstRecord p pin r := by
  simp only [pinSupported, Option.isSome_iff_exists, pinRecord_eq_some_iff]

theorem pinSupported_iff_mem {p : Platform} {pin : U16} :
    pinSupported p pin = true ↔ ∃ r ∈ p.pinTable, r.pin = pin ∧ r.backendId = p.backendId := by
  simp [pinSupported, pinRecord]

/-- A peripheral is busy while another channel holds it and this one does not (R119). -/
theorem resourceBusy_iff {s : State} : resourceBusy s = true ↔ s.held = false
    ∧ ∃ r, FirstRecord s.plat s.ch.pin r ∧ r.peripheralHandle ∈ s.env.otherHeld := by
  simp only [← pinRecord_eq_some_iff, resourceBusy]
  cases pinRecord s.plat s.ch.pin <;> simp

section Begin

variable {config : RxConfig} {s : State}

/-- The gate of `BEGIN` is open (R88). -/
theorem beginGate_open (h : CanIssue s) (hlow : config.startLow = true)
    (hplaced : bufferPlaced s.plat = true) : beginGate config s = none := by
  simp [beginGate, channelGate_open h, hlow, hplaced]

/-- `BEGIN` past its gate fails as its validation says (R88, R89). -/
theorem exec_begin_fails {e : BeginError} (hgate : beginGate config s = none)
    (h : beginFailure config s = some e) : exec (.beginCapture config) s
      = .next { s with ch := { s.ch with lastError := e }, result := .bool false } := by
  simp only [exec, execBegin, hgate, h, beginFail, State.ret]

/-- `BEGIN` past its gate and its validation opens a capture (R88). -/
theorem exec_begin_passes (hgate : beginGate config s = none)
    (h : beginFailure config s = none) : exec (.beginCapture config) s
      = .next ((beginConfigured config s).ret (.bool true)) := by
  simp only [exec, execBegin, hgate, h]

end Begin

/-- Settles O12: each test of the validation in the rule's terms, then the tests in order. -/
theorem beginRefusesOrFailsInOrder : Obligations.BeginRefusesOrFailsInOrder := by
  refine ⟨bufferPlaced_iff, fun p pin => ⟨fun r => pinRecord_eq_some_iff,
    pinSupported_iff_firstRecord, pinSupported_iff_mem⟩, fun s => resourceBusy_iff,
    fun config s hissue => ⟨fun hlow => ?_, fun hlow hplaced => ?_,
      fun hlow hplaced e he hne => ?_⟩⟩
  · simp [exec, execBegin, beginGate, channelGate_open hissue, hlow]
  · simp [exec, execBegin, beginGate, channelGate_open hissue, hlow, hplaced]
  · refine exec_begin_fails (beginGate_open hissue hlow hplaced) ?_
    subst he
    simp only [beginFailure, Bool.not_eq_true']
    split_ifs at hne ⊢
    · rfl
    · rfl
    · rfl
    · exact absurd rfl hne

/-! ### The `DISARM` before a transition (R88, R106, R109) -/

/-- What `BEGIN`, `INJECT_EDGES` and `DESTROY` do first: `DISARM` in a capture, nothing outside
one. -/
theorem disarmIfCapturing_disarmed {s : State} (I : Inv s) :
    (s.ch.state = .capturing → Disarmed s (disarmIfCapturing s))
      ∧ (s.ch.state ≠ .capturing → disarmIfCapturing s = s) :=
  ⟨fun h => by rw [disarmIfCapturing, if_pos h]; exact disarmed_disarm I,
   fun h => if_neg h⟩

/-- It changes neither the channel registers nor what the block has drawn. -/
theorem disarmIfCapturing_ch (s : State) :
    (disarmIfCapturing s).ch = s.ch ∧ (disarmIfCapturing s).draws = s.draws := by
  unfold disarmIfCapturing
  split
  · rw [(disarm_frame s).rest]; exact ⟨rfl, rfl⟩
  · exact ⟨rfl, rfl⟩

/-- The buffer a `BEGIN` allocates is clear and Fresh (R25, R88), and `ARM` leaves it so. -/
theorem beginConfigured_buffer (config : RxConfig) (s : State) :
    (beginConfigured config s).mem = []
      ∧ (beginConfigured config s).ch.capacity = capacityFor config.bufferSize
      ∧ (beginConfigured config s).vis = List.replicate (capacityFor config.bufferSize) .fresh := by
  unfold beginConfigured arm
  split <;> exact ⟨rfl, rfl, rfl⟩

theorem slotVisibility_of_replicate {s : State} {n i : Nat} (h : s.vis = List.replicate n .fresh)
    (hi : i < n) : slotVisibility s i = .fresh := by
  simp [slotVisibility, h, List.getD, hi]

/-- Settles O11: the gate and the validation pass, and a quiet backend is armed (R90, R120). -/
theorem beginConfiguresAndArms : Obligations.BeginConfiguresAndArms := by
  intro config s I hissue hb hlow hsize hplaced hpin hfree
  have hvalid : beginFailure config s = none := by
    rw [beginFailure, if_neg (by simp [hpin]), if_neg hsize, if_neg (by simp [hfree])]
  obtain ⟨hdisarm, hsame⟩ := disarmIfCapturing_disarmed I
  obtain ⟨hch, hdraws⟩ := disarmIfCapturing_ch s
  obtain ⟨hplat, -⟩ := disarmIfCapturing_rest s
  obtain ⟨-, Q⟩ := inv_disarmIfCapturing I
  obtain ⟨hmem, hcap, hvis⟩ := beginConfigured_buffer config s
  refine ⟨disarmIfCapturing s, _, exec_begin_passes (beginGate_open hissue hlow hplaced) hvalid,
    hdisarm, hsame, ?_, ?_, fun i hi => ⟨slotValue_of_mem_nil _ hmem i,
      slotVisibility_of_replicate hvis (hcap ▸ hi)⟩⟩
  all_goals simp only [beginConfigured, arm, configureChannel, hplat, hb]
  · exact truncW_lt _ _
  · simp only [hch, hdraws, Q.isrIdle]
    rfl

/-! ### `FINISHED` and `WAIT` outside its polls (R93, R95, R101, R102) -/

/-- Settles O13: the gate in `Destroyed`, else the signal. -/
theorem finishedReturnsTheSignal : Obligations.FinishedReturnsTheSignal := by
  refine ⟨rfl, fun s hcontext hcreated => ⟨fun hd => ?_, fun hlive => ?_⟩⟩
  · exact exec_channel_refused (.inl rfl) hcontext (liveChannelGate_destroyed hcreated hd)
  · simp only [exec, execFinished, channelGate_open ⟨hcontext, hcreated, hlive⟩, State.ret,
      atomicLoadAcquire]

/-- The status of a stored reason is Timeout for the timeout alone (R95). -/
theorem statusOf_eq {reason : CompletionReason} (h : reason ≠ .none) :
    statusOf reason = if reason = .timeout then .timeout else .success := by
  cases reason with
  | none => exact absurd rfl h
  | _ => rfl

/-- Settles O14: the two states in which `WAIT` has no loop. -/
theorem waitReturnsAtOnceOutsideACapture : Obligations.WaitReturnsAtOnceOutsideACapture := by
  refine fun timeoutMs s hissue => ⟨fun hs => ?_, fun hs => ⟨_, ?_, statusOf_eq⟩⟩ <;>
    simp only [exec, execWait, channelGate_open hissue, hs, State.ret]

/-- Settles O15: the one reading of the clock may take an advance of the environment's. -/
theorem waitEntersItsLoop : Obligations.WaitEntersItsLoop := by
  intro timeoutMs s hissue hc
  refine ⟨(nowUs s).1, (nowUs s).2.clk, nowUs_le s, nowUs_now s, fun h => by simp [nowUs, h], ?_⟩
  simp only [exec, execWait, channelGate_open hissue, hc, waitEnter]
  rw [nowUs_frame]
  rfl

/-! ### The end of a capture (R98, R100, R103) -/

/-- Settles O20: at the deadline a poll is due, and it ends the wait, whatever it finds. -/
theorem waitEndsByItsDeadline : Obligations.WaitEndsByItsDeadline := by
  intro r start s I turn live hdeadline
  obtain ⟨hc, W⟩ := I.waiting r live
  obtain ⟨t, q, hpoll, J, -, -, -, hended, hdue⟩ := inv_poll r s I hc W
  obtain ⟨q, rfl⟩ := Option.isSome_iff_exists.1 (hdue hdeadline)
  obtain ⟨hcomplete, hnone⟩ := hended rfl
  have Q := J.quiet (by rw [hcomplete]; decide)
  exact ⟨_, _, step_of_poll_ended turn live (W.wakes.trans hdeadline) hpoll, hnone, hcomplete, rfl,
    ⟨Q.1, Q.2, Q.3, Q.4, Q.5, Q.6⟩⟩

/-- `SYNC_READS` writes visibility alone (R123). -/
theorem syncReads_frame {first count : Nat} {s t : State} (h : syncReads first count s = .ok t) :
    t = { s with vis := t.vis } := by
  unfold syncReads at h
  split_ifs at h <;> cases h <;> rfl

/-- `COMPLETE_CAPTURE` ends no `WAIT` itself (R103). -/
theorem completeCapture_wait {reason : CompletionReason} {s t : State}
    (h : completeCapture reason s = .ok t) : t.wait = s.wait := by
  obtain ⟨-, hwait, -⟩ := disarm_ch s
  unfold completeCapture at h
  dsimp only at h
  split at h
  · cases h
  · rename_i u hu
    cases h
    rw [← hwait, syncReads_frame hu]

/-- `COMPLETE_CAPTURE` in a capture leaves it completed, and a live `WAIT` as it was (R103). -/
theorem completeCapture_completed (reason : CompletionReason) {s : State} (I : Inv s)
    (hc : s.ch.state = .capturing) :
    ∃ t, Completed reason s (disarm s) t
      ∧ completeCapture reason s = .ok { t with wait := s.wait } := by
  obtain ⟨t, ht, C⟩ := waitExit_completed reason .success (zeroRegs s) I hc
  refine ⟨t, C, ?_⟩
  unfold waitExit at ht
  split at ht
  · cases ht
  · rename_i u hu
    have hwait := completeCapture_wait hu
    cases ht
    rw [hu, ← hwait]

/-- Settles O21: the block's gate is open, and the capture is completed. -/
theorem completeCaptureLatchesTheCapture : Obligations.CompleteCaptureLatchesTheCapture := by
  rintro reason status s I ⟨hblock, hcreated, hlive⟩ hc
  have hgate : internalGate s = none := by
    simp [internalGate, liveChannelGate, hblock, hcreated, hlive]
  obtain ⟨t, C, ht⟩ := completeCapture_completed (reasonOf reason) I hc
  refine ⟨_, t, C, ?_⟩
  simp only [exec, execCompleteCapture, hgate, ht, State.ret]

/-! ### The transitions of the channel (R106, R107, R109, R112) -/

/-- Settles O22: a list within the bound is taken after the `DISARM`, a longer one before it is
refused. -/
theorem injectEdgesReplacesTheCache : Obligations.InjectEdgesReplacesTheCache := by
  intro edges s I hissue
  obtain ⟨hdisarm, hsame⟩ := disarmIfCapturing_disarmed I
  obtain ⟨hch, -⟩ := disarmIfCapturing_ch s
  refine ⟨fun hle => ⟨disarmIfCapturing s, hdisarm, hsame, ?_⟩, fun hlt => ?_⟩
  · simp only [exec, execInjectEdges, channelGate_open hissue, injectAccepted,
      if_neg (Nat.not_lt_of_le hle), hch, State.ret]
  · simp only [exec, execInjectEdges, channelGate_open hissue, if_pos hlt, State.ret]

/-- Settles O23: the releases after the `DISARM` of a capture. -/
theorem destroyReleasesTheHardware : Obligations.DestroyReleasesTheHardware := by
  intro s I hissue
  obtain ⟨hdisarm, hsame⟩ := disarmIfCapturing_disarmed I
  obtain ⟨hch, -⟩ := disarmIfCapturing_ch s
  refine ⟨disarmIfCapturing s, hdisarm, hsame, ?_⟩
  simp only [exec, execDestroy, channelGate_open hissue, destroyChannel, hch, State.ret]

/-- The operations the table of R112 gives a transition on a live channel; of the others `WAIT`
makes its own at the poll that ends it. -/
def movesChannel : Instr → Bool
  | .beginCapture _ | .decode _ _ | .getRawEdgeTimes _ _ | .injectEdges _ | .destroy => true
  | .create _ | .finished | .wait _ | .arm | .disarm | .readProgress | .syncReads _ _
  | .completeCapture _ _ | .buildEdges | .decodeBit _ _ _ | .decodeEdges _ _ _ => false

theorem isPublic_of_movesChannel {i : Instr} (h : movesChannel i = true) : isPublic i = true := by
  cases i with
  | beginCapture | decode | getRawEdgeTimes | injectEdges | destroy => rfl
  | _ => cases h

section Transitions

variable {s : State}

/-- A `WAIT` up to its loop writes no channel register (R95, R101, R102). -/
theorem exec_wait_ch (timeoutMs : U32) (s : State) :
    ∃ t, exec (.wait timeoutMs) s = .next t ∧ t.ch = s.ch := by
  simp only [exec, execWait]
  split
  · exact ⟨_, rfl, rfl⟩
  · split
    · exact ⟨_, rfl, rfl⟩
    · exact ⟨_, rfl, rfl⟩
    · exact ⟨_, rfl, (nowUs_block s).1⟩

/-- An operation without a transition, issued by the caller where a channel exists, writes no
channel register (R112). -/
theorem exec_keeps_ch {i : Instr} (hi : movesChannel i = false) (hcaller : s.issuer = .caller)
    (hcreated : s.created = true) : ∃ t, exec i s = .next t ∧ t.ch = s.ch := by
  have hinternal := internalGate_caller hcaller
  have hengine : engineGate s = none := if_neg (by rw [hcaller]; decide)
  cases i with
  | create pin => exact ⟨_, exec_create_refused pin (by rw [hcaller]; decide) hcreated, rfl⟩
  | finished =>
    simp only [exec, execFinished]
    split <;> exact ⟨_, rfl, rfl⟩
  | wait timeoutMs => exact exec_wait_ch timeoutMs s
  | decodeBit highNs lowNs profile =>
    simp only [exec, execDecodeBit, hengine]
    exact ⟨_, rfl, rfl⟩
  | decodeEdges profile edges out =>
    simp only [exec, execDecodeEdges, hengine]
    exact ⟨_, rfl, rfl⟩
  | arm | disarm | readProgress | syncReads | completeCapture | buildEdges =>
    exact ⟨_, exec_internal_refused rfl hinternal, rfl⟩
  | beginCapture | decode | getRawEdgeTimes | injectEdges | destroy => cases hi

/-- In `Destroyed` no operation of the caller's writes a channel register (R110). -/
theorem exec_destroyed_ch (i : Instr) (hcaller : s.issuer = .caller) (hcreated : s.created = true)
    (hd : s.ch.state = .destroyed) : ∃ t, exec i s = .next t ∧ t.ch = s.ch := by
  cases hi : movesChannel i with
  | false => exact exec_keeps_ch hi hcaller hcreated
  | true =>
    exact ⟨_, exec_channel_refused (.inl (isPublic_of_movesChannel hi)) (by rw [hcaller]; decide)
      (liveChannelGate_destroyed hcreated hd), rfl⟩

/-- `BEGIN` enters `Capturing` where it returns true, and there alone (R88, R89). -/
theorem exec_begin_state (config : RxConfig) (s : State) :
    ∃ t, exec (.beginCapture config) s = .next t
      ∧ t.ch.state = if t.result = .bool true then .capturing else s.ch.state := by
  simp only [exec, execBegin]
  split
  · exact ⟨_, rfl, by simp⟩
  · split
    · exact ⟨_, rfl, by simp [beginFail]⟩
    · exact ⟨_, rfl, by simp [beginConfigured]⟩

/-- `INJECT_EDGES` enters `Complete` where it returns true, and there alone (R106, R107). -/
theorem exec_injectEdges_state (edges : List EdgeSample) (s : State) :
    ∃ t, exec (.injectEdges edges) s = .next t
      ∧ t.ch.state = if t.result = .bool true then .complete else s.ch.state := by
  simp only [exec, execInjectEdges]
  split
  · exact ⟨_, rfl, by simp⟩
  · split
    · exact ⟨_, rfl, by simp⟩
    · exact ⟨_, rfl, by simp [injectAccepted]⟩

/-- `DECODE` completes a capture (R104, R171). -/
theorem exec_decode_state (profile : TimingProfile) (out : List Byte) (I : Inv s)
    (hissue : CanIssue s) : ∃ t, exec (.decode profile out) s = .next t
      ∧ t.ch.state = if s.ch.state = .capturing then .complete else s.ch.state := by
  obtain ⟨t, ht, -, -, -, hstate⟩ := inv_ensureEdges s I
  simp only [exec, execDecode, channelGate_open hissue, ht]
  exact ⟨_, rfl, hstate⟩

/-- `GET_RAW_EDGE_TIMES` completes a capture (R104, R152). -/
theorem exec_getRawEdgeTimes_state (dst : List EdgeSample) (offset : U32) (I : Inv s)
    (hissue : CanIssue s) : ∃ t, exec (.getRawEdgeTimes dst offset) s = .next t
      ∧ t.ch.state = if s.ch.state = .capturing then .complete else s.ch.state := by
  obtain ⟨t, ht, -, -, -, hstate⟩ := inv_ensureEdges s I
  simp only [exec, execGetRawEdgeTimes, channelGate_open hissue, ht]
  exact ⟨_, rfl, hstate⟩

theorem exec_destroy_state (hissue : CanIssue s) :
    ∃ t, exec .destroy s = .next t ∧ t.ch.state = .destroyed := by
  simp only [exec, execDestroy, channelGate_open hissue]
  exact ⟨_, rfl, rfl⟩

end Transitions

/-- Settles O24: the destroyed channel first, then the operations with a transition one by one. -/
theorem channelStateMachine : Obligations.ChannelStateMachine := by
  intro i s I _ hcaller hcreated
  by_cases hd : s.ch.state = .destroyed
  · obtain ⟨t, ht, hch⟩ := exec_destroyed_ch i hcaller hcreated hd
    exact ⟨t, ht, by rw [if_pos hd, hch, hd]⟩
  · have hissue : CanIssue s := ⟨by rw [hcaller]; decide, hcreated, hd⟩
    have hkept {j : Instr} (hj : movesChannel j = false) :
        ∃ t, exec j s = .next t ∧ t.ch.state = s.ch.state := by
      obtain ⟨t, ht, hch⟩ := exec_keeps_ch hj hcaller hcreated
      exact ⟨t, ht, congrArg Channel.state hch⟩
    simp only [if_neg hd]
    cases i with
    | beginCapture config => exact exec_begin_state config s
    | decode profile out => exact exec_decode_state profile out I hissue
    | getRawEdgeTimes dst offset => exact exec_getRawEdgeTimes_state dst offset I hissue
    | injectEdges edges => exact exec_injectEdges_state edges s
    | destroy => exact exec_destroy_state hissue
    | _ => exact hkept rfl

end Sys2Proof.Machine
end

section
/-! SUPPORT. The capture backend (spec/41_capture_backend.md): the internal operations the block
issues (R117, R120 to R123), the edge and the latch (R125, R127, R129, R130), and the transfer of
what is pending (R62, R126 to R128). -/

namespace Sys2Proof.Machine

open Sys2Proof.Spec

/-! ### The internal operations the block issues (R80, R117, R120 to R123) -/

/-- The gate of the internal operations is open to the block on a live channel (R80, R110). -/
theorem internalGate_open {s : State} (h : BlockIssues s) : internalGate s = none := by
  obtain ⟨hblock, hcreated, hlive⟩ := h
  simp [internalGate, liveChannelGate, hblock, hcreated, hlive]

theorem exec_arm_open {s : State} (h : BlockIssues s) :
    exec .arm s = .next ((arm s).ret .unit) := by
  simp only [exec, execArm, internalGate_open h]

theorem exec_disarm_open {s : State} (h : BlockIssues s) :
    exec .disarm s = .next ((disarm s).ret .unit) := by
  simp only [exec, execDisarm, internalGate_open h]

theorem exec_syncReads_open {first count : U32} {s t : State} (h : BlockIssues s)
    (ht : syncReads first.toNat count.toNat s = .ok t) :
    exec (.syncReads first count) s = .next (t.ret .unit) := by
  simp only [exec, execSyncReads, internalGate_open h, ht]

theorem exec_syncReads_fails {first count : U32} {s : State} {f : Fault} (h : BlockIssues s)
    (ht : syncReads first.toNat count.toNat s = .error f) :
    exec (.syncReads first count) s = .next (s.fail f) := by
  simp only [exec, execSyncReads, internalGate_open h, ht]

theorem arm_mock {s : State} (h : s.plat.backend = .mock) : arm s = s := by
  simp only [arm, h]

theorem disarm_mock {s : State} (h : s.plat.backend = .mock) : disarm s = s := by
  simp only [disarm, h]

theorem disarmIfCapturing_mock {s : State} (h : s.plat.backend = .mock) :
    disarmIfCapturing s = s := by
  rw [disarmIfCapturing, disarm_mock h, ite_self]

/-- Settles O25: the start value is the one drawn, truncated to the counter's width. -/
theorem armProgramsTheBackend : Obligations.ArmProgramsTheBackend := by
  intro s hissue hb
  refine ⟨_, truncW_lt s.plat.counterBits (Config.counterStart s.draws), ?_⟩
  simp only [exec_arm_open hissue, arm, hb]
  rfl

/-- Settles O26: with `ARM` and `DISARM` without effect, `BEGIN` is its configuring of the
channel. -/
theorem mockBackendTouchesNoHardware : Obligations.MockBackendTouchesNoHardware := by
  intro s _ hb
  refine ⟨fun hissue => ⟨?_, ?_⟩, fun config hissue hlow hsize hplaced hpin hfree => ?_⟩
  · rw [exec_arm_open hissue, arm_mock hb, State.ret]
  · rw [exec_disarm_open hissue, disarm_mock hb, State.ret]
  · have hvalid : beginFailure config s = none := by
      rw [beginFailure, if_neg (by simp [hpin]), if_neg hsize, if_neg (by simp [hfree])]
    have hconfigured : (configureChannel config s).plat.backend = .mock := by
      rw [configureChannel, disarmIfCapturing_mock hb, hb]
    rw [exec_begin_passes (beginGate_open hissue hlow hplaced) hvalid, beginConfigured,
      arm_mock hconfigured, configureChannel, disarmIfCapturing_mock hb]
    rfl

/-- Settles O27: `DISARM` leaves the backend quiet, and a `DISARM` of a quiet backend does nothing
of its own. -/
theorem disarmStopsAndDrains : Obligations.DisarmStopsAndDrains := by
  intro s I hissue
  obtain ⟨-, Q⟩ := inv_disarm s I
  have hagain : BlockIssues ((disarm s).ret .unit) := by
    rw [(disarm_frame s).rest]
    exact ⟨hissue.issuer, hissue.created, hissue.live⟩
  have Qr : Quiet ((disarm s).ret .unit) := ⟨Q.1, Q.2, Q.3, Q.4, Q.5, Q.6⟩
  have hquiet := (disarm_quiet Qr).rest
  refine ⟨disarm s, disarmed_disarm I, exec_disarm_open hissue, Q, _, exec_disarm_open hagain,
    congrArg (State.ret · .unit) hquiet,
    fun hnone => (congrArg (State.ret · .unit) (disarm_quiet_still Qr hnone) :)⟩

/-- Settles O28: the counter is returned and nothing else written. -/
theorem readProgressReturnsTheCounter : Obligations.ReadProgressReturnsTheCounter := by
  intro s hissue
  simp only [exec, execReadProgress, internalGate_open hissue, readProgress, State.ret]

/-- Settles O29: the tests of `SYNC_READS` in order, and its range once they pass. -/
theorem syncReadsMakesTheRangeFresh : Obligations.SyncReadsMakesTheRangeFresh := by
  intro first count s hissue hvis
  refine ⟨fun h0 => exec_syncReads_open hissue ?_, fun h0 hbeyond => exec_syncReads_fails hissue ?_,
    fun hin hcoherent => exec_syncReads_open hissue ?_, fun hin => ?_⟩
  · simp [syncReads, h0]
  · have hcount : count.toNat ≠ 0 := fun h => h0 (BitVec.eq_of_toNat_eq h)
    rw [syncReads, if_neg hcount, if_pos hbeyond]
  · simp [syncReads, Nat.not_lt_of_le hin, hcoherent]
  · obtain ⟨w, hsync, hlength, hfresh⟩ := syncReads_ok first.toNat count.toNat s hin hvis
    exact ⟨w, exec_syncReads_open hissue hsync, hlength, hfresh⟩

/-! ### An edge (R125, R127, R129, R130) -/

/-- A scheduled hardware step is taken from the state in which it is no longer scheduled (R7). -/
theorem step_of_hardware {k : HwStep} {rest : List Move} {s : State}
    (h : s.sched = .hardware k :: rest) : step s = .next (hwStep k { s with sched := rest }) :=
  step_of_move h

/-- Where no transfer is due, an edge while armed and enabled is latched (R125). -/
theorem edgeStep_latched (late : Bool) (overrun : Overrun) {s : State}
    (hb : s.plat.backend = .hardware) (ha : s.cap.armed = true) (he : s.xfer.enabled = true)
    (hdue : serviceDue s = false) :
    edgeStep late overrun s = capEdge late overrun { s with line := !s.line } := by
  have hserve : serveDue { s with line := !s.line } = { s with line := !s.line } :=
    if_neg (by rw [show serviceDue { s with line := !s.line } = false from hdue]; decide)
  simp only [edgeStep, hserve]
  exact if_pos (by simp [capEdgeEnabled, ha, he, hb])

/-- An edge while the engine is disabled is lost (R129). -/
theorem edgeStep_lost (late : Bool) (overrun : Overrun) {s : State} (he : s.xfer.enabled = false) :
    edgeStep late overrun s = { s with line := !s.line } := by
  have hserve : serveDue { s with line := !s.line } = { s with line := !s.line } :=
    serveDue_of_not_enabled _ (by simp [transferEnabled, he])
  simp only [edgeStep, hserve]
  exact if_neg (by simp [capEdgeEnabled, he])

/-- The latch beside what is pending (R125, R127). -/
theorem latchPending_eq (overrun : Overrun) (v : Sample) (l : List Sample) :
    latchPending overrun v l
      = if l = [] then [v] else if overrun = .replace then [v] else [v, v] := by
  cases l with
  | nil => rfl
  | cons => cases overrun <;> rfl

/-- The tick count of an edge is the floor or one more, if the last one recorded is at most one
above the floor (R130). -/
theorem edgeK_eq_or {lastK elapsed : Nat} (late : Bool) (h : lastK ≤ ticksOf elapsed + 1) :
    edgeK lastK elapsed late = ticksOf elapsed ∨ edgeK lastK elapsed late = ticksOf elapsed + 1 := by
  unfold edgeK
  split <;> omega

/-- Settles O30: no transfer is due before the edge, and its tick count is pinned by the draw. -/
theorem edgeIsLatched : Obligations.EdgeIsLatched := by
  intro late overrun rest s hsched hb ha he hlast hpend
  have hdue : serviceDue { s with sched := rest } = false := by
    rcases hpend with hnone | hyoung
    · simp [serviceDue, transferEnabled, hnone]
    · simp [serviceDue, hyoung]
  refine ⟨edgeK s.cap.lastK s.cap.elapsed late, sampleValue late s, rfl, edgeK_eq_or late hlast,
    BitVec.toNat_ofNat _ _, ?_⟩
  rw [step_of_hardware hsched, hwStep,
    edgeStep_latched (s := { s with sched := rest }) late overrun hb ha he hdue, capEdge,
    latchPending_eq]
  rfl

/-- Settles O31: each of the conditions leaves the engine disabled. -/
theorem edgeIsNotRecorded : Obligations.EdgeIsNotRecorded := by
  intro late overrun rest s I hsched h
  have he : s.xfer.enabled = false := by
    rcases h with ⟨-, hidle⟩ | he | hmock
    · exact (I.quiet hidle).notEnabled
    · exact he
    · exact (I.mock hmock).1.notEnabled
  rw [step_of_hardware hsched, hwStep,
    edgeStep_lost (s := { s with sched := rest }) late overrun he]

/-! ### The transfer of what is pending (R62, R126 to R128) -/

/-- The drain of an enabled engine serves what is pending (R126, R62, R128). -/
theorem served_drain {s : State} (I : Inv s) (he : s.xfer.enabled = true) :
    Served s (drain s) := by
  obtain ⟨hprogress, hlanded, hbytes, hvisibility, hwritten, -⟩ := drain_spec I
  obtain ⟨henabled, hinterrupt⟩ := xferSteps_full s.xfer.pending.length s I he (le_refl _)
  exact ⟨hprogress, hlanded, hwritten, hbytes, hvisibility, henabled, hinterrupt⟩

theorem drain_pending {s : State} (I : Inv s) : (drain s).xfer.pending = [] :=
  (drain_done s).elim (inv_drain s I).pendingServed id

/-- What a drain changes: memory, visibility, the engine and the interrupt line (R126, R128). -/
theorem drain_eq {s : State} (I : Inv s) : drain s = { s with
    mem := (drain s).mem
    vis := (drain s).vis
    xfer := { (drain s).xfer with
      length := s.xfer.length
      pending := []
      attached := s.xfer.attached }
    irq := (drain s).irq } := by
  have hnone := drain_pending I
  have hframe := (drain_frame s).rest
  generalize drain s = t at hnone hframe
  rw [← hnone, hframe]

/-- A latch after the drain has its sample pending alone (R125, R127). -/
theorem capEdge_drain (late : Bool) (overrun : Overrun) {s : State} (I : Inv s) :
    capEdge late overrun (drain s) = { s with
      cap := { s.cap with
        captureReg := sampleValue late s
        lastK := edgeK s.cap.lastK s.cap.elapsed late
        latchAt := s.cap.elapsed }
      mem := (drain s).mem
      vis := (drain s).vis
      xfer := { (drain s).xfer with
        length := s.xfer.length
        pending := [sampleValue late s]
        attached := s.xfer.attached }
      irq := (drain s).irq } := by
  have hdrain := drain_eq I
  generalize drain s = t at hdrain
  rw [hdrain]
  rfl

theorem serveDue_of_due {s : State} (he : s.xfer.enabled = true) (hp : s.xfer.pending ≠ [])
    (hage : s.plat.captureServiceNs * s.plat.clockHz ≤ s.cap.elapsed - s.cap.latchAt) :
    serveDue s = drain s :=
  if_pos (by simp [serviceDue, transferEnabled, he, hp, hage])

/-- Time that brings the last latch to its service time serves what is pending (R127, log 18). -/
theorem elapseStep_due {units : Nat} {s : State} (hc : s.cap.configured = true)
    (he : s.xfer.enabled = true) (hp : s.xfer.pending ≠ [])
    (hage : s.plat.captureServiceNs * s.plat.clockHz ≤ s.cap.elapsed + units - s.cap.latchAt) :
    elapseStep units s
      = drain { s with cap := { s.cap with elapsed := s.cap.elapsed + units } } := by
  rw [elapseStep, if_pos hc]
  exact serveDue_of_due he hp hage

/-- An edge that finds what is pending due serves it first, and is latched unless the buffer is then
full (R127, R129, log 18). -/
theorem edgeStep_due (late : Bool) (overrun : Overrun) {s : State} (I : Inv s)
    (hb : s.plat.backend = .hardware) (ha : s.cap.armed = true) (he : s.xfer.enabled = true)
    (hp : s.xfer.pending ≠ [])
    (hage : s.plat.captureServiceNs * s.plat.clockHz ≤ s.cap.elapsed - s.cap.latchAt) :
    edgeStep late overrun s =
      if (drain { s with line := !s.line }).xfer.progress = s.xfer.length then
        drain { s with line := !s.line }
      else capEdge late overrun (drain { s with line := !s.line }) := by
  have J : Inv { s with line := !s.line } := inv_congr I rfl
  have hserve : serveDue { s with line := !s.line } = drain { s with line := !s.line } :=
    serveDue_of_due he hp hage
  have hlatch : capEdgeEnabled (drain { s with line := !s.line })
      = (drain { s with line := !s.line }).xfer.enabled := by
    rw [(drain_frame _).rest]
    simp [capEdgeEnabled, ha, hb]
  simp only [edgeStep, hserve, hlatch, (served_drain J he).enabled, decide_eq_true_eq, ite_not]

/-- Settles O32: the step is the drain, after which an edge is latched unless the buffer is full. -/
theorem pendingSampleIsServedInTime : Obligations.PendingSampleIsServedInTime := by
  intro rest s I he hp
  have J : Inv { s with sched := rest } := inv_congr I rfl
  refine ⟨fun units hsched hc hage => ?_, fun late overrun hsched ha hb hage => ?_⟩
  · have K := inv_elapsed (s.cap.elapsed + units) _ J (Nat.le_add_right _ _)
    refine ⟨_, (step_of_hardware hsched).trans ?_, { served_drain K he with }, drain_eq K⟩
    exact congrArg _ (elapseStep_due hc he hp hage)
  · have K : Inv { s with sched := rest, line := !s.line } := inv_congr I rfl
    have S := served_drain K he
    have hstep := (step_of_hardware hsched).trans
      (congrArg _ (edgeStep_due late overrun J hb ha he hp hage))
    by_cases hfull : (drain { s with sched := rest, line := !s.line }).xfer.progress = s.xfer.length
    · refine ⟨_, hstep.trans (congrArg _ (if_pos hfull)), { S with }, ?_⟩
      dsimp only
      rw [if_pos hfull, if_pos hfull]
      exact drain_eq K
    · refine ⟨_, hstep.trans (congrArg _ (if_neg hfull)), { S with }, ?_⟩
      have hroom : (capEdge late overrun (drain { s with
        sched := rest, line := !s.line })).xfer.progress ≠ s.xfer.length := hfull
      rw [if_neg hroom, if_neg hroom]
      exact capEdge_drain late overrun K

/-- Settles O33: the transfer step is one step of a drain. -/
theorem transferWritesTheNextSlot : Obligations.TransferWritesTheNextSlot := by
  intro v pending rest s I hsched he hp
  have J : Inv { s with sched := rest } := inv_congr I rfl
  have hstep := xferStep_enabled { s with sched := rest } v pending he hp
  obtain ⟨-, hlanded, hbytes, hvisibility, -, hwritten, -⟩ :=
    xferSteps_spec 1 { s with sched := rest } J he (by simp [hp])
  have hprogress : (xferStep { s with sched := rest }).xfer.progress = s.xfer.progress + 1 := by
    rw [hstep]
    split <;> rfl
  rw [show xferSteps 1 { s with sched := rest } = xferStep { s with sched := rest } from rfl,
    hprogress] at hbytes hvisibility hwritten
  have hroom := I.transferring he
  refine ⟨_, step_of_hardware hsched, hlanded 0 v Nat.one_pos (by simp [hp]) hroom,
    hwritten _ (le_refl _) (Nat.lt_succ_self _), hbytes, fun i hi => hvisibility i ?_, ?_⟩
  · show i < s.xfer.progress ∨ s.xfer.progress + 1 ≤ i
    omega
  · simp only [hwStep, hstep]
    by_cases hfull : s.xfer.progress + 1 = s.xfer.length
    · simp [hfull, bufferFull, bufWriteDma, Bool.or_comm]
    · simp [hfull, he, bufWriteDma]

/-! ### The difference of two samples (R130, R144) -/

/-- The modular difference of two truncated counts is their distance, if that fits the counter
(R144). -/
theorem modularDelta_truncW {w : Nat} (hw : w ≤ 32) (n d : Nat) (hd : d < 2 ^ w) :
    modularDelta w (truncW w n) (truncW w (n + d)) = d := by
  have hdvd : 2 ^ w ∣ 2 ^ 32 := Nat.pow_dvd_pow 2 hw
  have hlt : ∀ m, m % 2 ^ w < 2 ^ 32 := fun m =>
    (Nat.mod_lt m (Nat.two_pow_pos w)).trans_le (Nat.pow_le_pow_right (by decide) hw)
  have hdelta : modularDelta w (truncW w n) (truncW w (n + d))
      = (2 ^ 32 - n % 2 ^ w + (n + d) % 2 ^ w) % 2 ^ w := by
    simp only [modularDelta, truncW, BitVec.toNat_sub, BitVec.toNat_ofNat,
      Nat.mod_mod_of_dvd _ hdvd, Nat.mod_eq_of_lt (hlt _)]
  have hsum : n % 2 ^ w + (2 ^ 32 - n % 2 ^ w + (n + d) % 2 ^ w) ≡ n % 2 ^ w + d [MOD 2 ^ w] :=
    calc n % 2 ^ w + (2 ^ 32 - n % 2 ^ w + (n + d) % 2 ^ w)
      _ = 2 ^ 32 + (n + d) % 2 ^ w := by
        rw [← Nat.add_assoc, Nat.add_sub_cancel' (hlt n).le]
      _ ≡ 0 + (n + d) [MOD 2 ^ w] := (Nat.modEq_zero_iff_dvd.2 hdvd).add (Nat.mod_modEq _ _)
      _ ≡ n % 2 ^ w + d [MOD 2 ^ w] := by
        rw [Nat.zero_add]
        exact (Nat.mod_modEq _ _).symm.add_right d
  rw [hdelta, (Nat.ModEq.add_left_cancel' _ hsum : _ % _ = _ % _), Nat.mod_eq_of_lt hd]

/-- Settles O34: the tick counts are each the floor or one more, and the start value cancels. -/
theorem sampleDifferenceIsBounded : Obligations.SampleDifferenceIsBounded := by
  intro w c0 lastK t1 t2 late1 late2 hw ht hlast hdist k1 k2 d
  have h1 : k1 = ticksOf t1 ∨ k1 = ticksOf t1 + 1 := edgeK_eq_or late1 hlast
  have hmono : ticksOf t1 ≤ ticksOf t2 := Nat.div_le_div_right ht
  have h2 : k2 = ticksOf t2 ∨ k2 = ticksOf t2 + 1 := edgeK_eq_or late2 (by omega)
  have h12 : k1 ≤ k2 := Nat.le_max_left _ _
  have hd : d = k2 - k1 := by
    have := modularDelta_truncW hw (c0 + k1) (k2 - k1) (by simp only [ticksOf] at h1 h2; omega)
    rwa [show c0 + k1 + (k2 - k1) = c0 + k2 by omega] at this
  simp only [ticksOf] at h1 h2
  omega

end Sys2Proof.Machine
end

section
/-! SUPPORT. The Edge Builder (spec/42_edge_builder.md) and the decode of its cache (R171): the
arithmetic of an interval (R144, R145), the loop of `BUILD_EDGES` interval by interval (R146 to R149),
and what the operations that read the edge cache find outside a capture (R150). -/

namespace Sys2Proof.Machine

open Sys2Proof.Spec

/-! ### One interval (R144, R145) -/

/-- A truncated count is the count modulo the truncation, as integers. -/
theorem cast_mod_two_pow_modEq (n w : Nat) : ((n % 2 ^ w : Nat) : Int) ≡ n [ZMOD 2 ^ w] := by
  exact_mod_cast Int.natCast_modEq_iff.2 (Nat.mod_modEq n (2 ^ w))

/-- The difference of two 32-bit words is the integer one modulo `2^32`. -/
theorem toNat_sub_modEq (prev cur : Sample) :
    ((cur - prev).toNat : Int) ≡ (cur.toNat : Int) - prev.toNat [ZMOD 2 ^ 32] := by
  have := prev.isLt
  rw [BitVec.toNat_sub]
  refine (cast_mod_two_pow_modEq _ 32).trans (Int.modEq_iff_dvd.2 ⟨-1, ?_⟩)
  omega

/-- Settles O39: `2^W` divides `2^32`, so the wrap of the word subtraction is lost in the counter's
width. -/
theorem deltaIsModular : Obligations.DeltaIsModular := by
  intro w prev cur hw
  have hsub : ((cur - prev).toNat : Int) ≡ (cur.toNat : Int) - prev.toNat [ZMOD 2 ^ w] :=
    (toNat_sub_modEq prev cur).of_dvd (pow_dvd_pow 2 hw)
  rw [modularDelta]
  push_cast
  exact hsub

/-- Settles O40: below the bound the minimum is the quotient, at the bound the quotient has reached
it. -/
theorem scalingTruncatesAndSaturates : Obligations.ScalingTruncatesAndSaturates := by
  intro clockHz d hpos
  refine ⟨Nat.min_le_left _ _, fun hlt => ?_, fun hsat => ?_⟩
  · have hq : toNs clockHz d = d * 1000000000 / clockHz :=
      (min_choice _ _).resolve_left hlt.ne
    rw [hq]
    exact ⟨Nat.div_mul_le_self _ _, Nat.lt_mul_of_div_lt (Nat.lt_succ_self _) hpos⟩
  · refine ⟨(Nat.le_div_iff_mul_le hpos).1 (min_eq_left_iff.1 hsat), ?_⟩
    rw [hsat]
    decide

theorem truncW_toNat {w : Nat} (hw : w ≤ 32) (n : Nat) : (truncW w n).toNat = n % 2 ^ w := by
  rw [truncW, BitVec.toNat_ofNat]
  exact Nat.mod_eq_of_lt
    ((Nat.mod_lt n (Nat.two_pow_pos w)).trans_le (Nat.pow_le_pow_right (by decide) hw))

/-- A constant added to both samples cancels (R146). -/
theorem modularDelta_shift {w : Nat} (hw : w ≤ 32) (c : Nat) (prev cur : Sample) :
    modularDelta w (truncW w (prev.toNat + c)) (truncW w (cur.toNat + c))
      = modularDelta w prev cur := by
  refine Int.ofNat_inj.1 ?_
  calc (modularDelta w (truncW w (prev.toNat + c)) (truncW w (cur.toNat + c)) : Int)
    _ = (((cur.toNat + c) % 2 ^ w : Nat) - ((prev.toNat + c) % 2 ^ w : Nat) : Int) % 2 ^ w := by
      rw [deltaIsModular w _ _ hw, truncW_toNat hw, truncW_toNat hw]
    _ = (((cur.toNat + c : Nat) : Int) - (prev.toNat + c : Nat)) % 2 ^ w :=
      (cast_mod_two_pow_modEq _ w).sub (cast_mod_two_pow_modEq _ w)
    _ = ((cur.toNat : Int) - prev.toNat) % 2 ^ w := by
      congr 1
      push_cast
      ring
    _ = modularDelta w prev cur := (deltaIsModular w prev cur hw).symm

/-! ### The loop, interval by interval (R143, R146 to R149) -/

/-- The loop drops a gap and starts again at HIGH (R148). -/
theorem edgesFrom_cons_of_isGap {p : Platform} {a b : Sample} (hg : isGap p a b = true) (h : Bool)
    (l : List Sample) : edgesFrom p a h (b :: l) = edgesFrom p b true l :=
  edgesFrom_gap p a b h l (of_decide_eq_true hg)

/-- The duration of the interval from one sample to the next, as an edge sample holds it (R144,
R145). -/
def intervalNs (p : Platform) (a b : Sample) : U32 :=
  BitVec.ofNat 32 (toNs p.clockHz (modularDelta p.counterBits a b))

/-- The loop makes an edge sample of any other interval, and the polarity alternates (R147). -/
theorem edgesFrom_cons_of_not_isGap {p : Platform} {a b : Sample} (hg : isGap p a b = false)
    (h : Bool) (l : List Sample) :
    edgesFrom p a h (b :: l)
      = { high := h, durationNs := intervalNs p a b } :: edgesFrom p b (!h) l :=
  edgesFrom_edge p a b h l (of_decide_eq_false hg)

/-- The loop reads the samples through their consecutive differences only (R144). -/
theorem edgesFrom_map {p : Platform} {f : Sample → Sample}
    (hf : ∀ a b, modularDelta p.counterBits (f a) (f b) = modularDelta p.counterBits a b)
    (prev : Sample) (h : Bool) (l : List Sample) :
    edgesFrom p (f prev) h (l.map f) = edgesFrom p prev h l := by
  induction l generalizing prev h with
  | nil => rfl
  | cons b l ih => simp only [List.map_cons, edgesFrom, hf, ih]

theorem edgesOf_map {p : Platform} {f : Sample → Sample}
    (hf : ∀ a b, modularDelta p.counterBits (f a) (f b) = modularDelta p.counterBits a b)
    (samples : List Sample) : edgesOf p (samples.map f) = edgesOf p samples := by
  cases samples with
  | nil => rfl
  | cons a l => exact edgesFrom_map hf a true l

/-- Settles O41: adding the constant keeps every difference, and the loop reads nothing else. -/
theorem startValueCancels : Obligations.StartValueCancels :=
  fun _ c samples hw => edgesOf_map (modularDelta_shift hw c) samples

theorem gapCount_cons_cons (p : Platform) (a b : Sample) (l : List Sample) :
    gapCount p (a :: b :: l) = (if isGap p a b then 1 else 0) + gapCount p (b :: l) := rfl

/-- Each interval gives an edge sample or is a gap (R149). -/
theorem length_edgesFrom_add_gapCount (p : Platform) (prev : Sample) (h : Bool)
    (l : List Sample) : (edgesFrom p prev h l).length + gapCount p (prev :: l) = l.length := by
  induction l generalizing prev h with
  | nil => rfl
  | cons b l ih =>
    rw [gapCount_cons_cons, List.length_cons]
    cases hg : isGap p prev b with
    | true =>
      rw [edgesFrom_cons_of_isGap hg, if_pos rfl, ← ih b true]
      omega
    | false =>
      rw [edgesFrom_cons_of_not_isGap hg, if_neg Bool.false_ne_true, ← ih b (!h), List.length_cons]
      omega

/-- Settles O42: a capture of fewer than two samples has no interval; otherwise the loop counts. -/
theorem edgeCountIsIntervalsLessGaps : Obligations.EdgeCountIsIntervalsLessGaps := by
  intro p samples
  cases samples with
  | nil => rfl
  | cons a l => exact length_edgesFrom_add_gapCount p a true l

/-- From a gap on the loop runs as on a capture of its own, whatever the polarity before it
(R148). -/
theorem edgesFrom_append_of_isGap {p : Platform} {prev b : Sample} {before : List Sample}
    (hg : isGap p ((prev :: before).getLast (List.cons_ne_nil _ _)) b = true) (h : Bool)
    (after : List Sample) :
    edgesFrom p prev h (before ++ b :: after)
      = edgesFrom p prev h before ++ edgesFrom p b true after := by
  induction before generalizing prev h with
  | nil => exact edgesFrom_cons_of_isGap hg h after
  | cons c before ih =>
    rw [List.getLast_cons_cons] at hg
    rw [List.cons_append]
    cases hc : isGap p prev c with
    | true => rw [edgesFrom_cons_of_isGap hc, edgesFrom_cons_of_isGap hc, ih hg]
    | false =>
      rw [edgesFrom_cons_of_not_isGap hc, edgesFrom_cons_of_not_isGap hc, ih hg, List.cons_append]

/-- Settles O43: the gap follows the first sample or a later one, and the loop has run up to it. -/
theorem gapSplitsTheCapture : Obligations.GapSplitsTheCapture := by
  intro p before after a b hg
  cases before with
  | nil => exact edgesFrom_cons_of_isGap hg true after
  | cons x xs => exact edgesFrom_append_of_isGap (by simpa using hg) true after

/-- The edge sample that a loop started at the polarity `h` makes where one started at HIGH makes `e`:
the same for HIGH, the other label for LOW (R147). -/
def startedAt (h : Bool) (e : EdgeSample) : EdgeSample := { e with high := e.high == h }

@[simp] theorem startedAt_true (e : EdgeSample) : startedAt true e = e := by
  simp [startedAt]

@[simp] theorem startedAt_startedAt_false (h : Bool) (e : EdgeSample) :
    startedAt h (startedAt false e) = startedAt (!h) e := by
  cases h <;> simp [startedAt]

theorem edgeAt_singleton (p : Platform) (a : Sample) (i : Nat) : edgeAt p [a] i = none := by
  simp [edgeAt]

theorem edgeAt_zero (p : Platform) (a b : Sample) (l : List Sample) :
    edgeAt p (a :: b :: l) 0 = some { high := true, durationNs := intervalNs p a b } := rfl

/-- One sample later the same intervals have the other parity (R147). -/
theorem edgeAt_succ (p : Platform) (a : Sample) (l : List Sample) (i : Nat) :
    edgeAt p (a :: l) (i + 1) = (edgeAt p l i).map (startedAt false) := by
  have hparity : decide ((i + 1) % 2 = 0) = (decide (i % 2 = 0) == false) := by
    rw [beq_false, ← decide_not, decide_eq_decide]
    omega
  simp only [edgeAt, List.getElem?_cons_succ, hparity]
  split <;> rfl

theorem gapCount_cons_cons_eq_zero {p : Platform} {a b : Sample} {l : List Sample}
    (h : gapCount p (a :: b :: l) = 0) : isGap p a b = false ∧ gapCount p (b :: l) = 0 := by
  rw [gapCount_cons_cons, Nat.add_eq_zero_iff] at h
  exact ⟨by simpa using h.1, h.2⟩

/-- Without a gap the loop labels the intervals in turn, from the polarity it starts at (R147). -/
theorem getElem?_edgesFrom {p : Platform} {prev : Sample} {l : List Sample}
    (hg : gapCount p (prev :: l) = 0) (h : Bool) (i : Nat) :
    (edgesFrom p prev h l)[i]? = (edgeAt p (prev :: l) i).map (startedAt h) := by
  induction l generalizing prev h i with
  | nil => simp [edgesFrom, edgeAt_singleton]
  | cons b l ih =>
    obtain ⟨hb, hl⟩ := gapCount_cons_cons_eq_zero hg
    rw [edgesFrom_cons_of_not_isGap hb]
    cases i with
    | zero => simp [edgeAt_zero, startedAt]
    | succ i =>
      rw [List.getElem?_cons_succ, ih hl, edgeAt_succ, Option.map_map]
      congr 1
      funext e
      exact (startedAt_startedAt_false h e).symm

/-- Settles O44: the loop of a capture starts at HIGH. -/
theorem polarityAlternatesFromHigh : Obligations.PolarityAlternatesFromHigh := by
  intro p samples hg i
  cases samples with
  | nil => rfl
  | cons a l =>
    rw [edgesOf, getElem?_edgesFrom hg, funext startedAt_true]
    exact Option.map_id'

/-! ### The edge cache outside a capture (R143, R150) -/

/-- Settles O45: the block passes the gate, and `BUILD_EDGES` reads Fresh slots only. -/
theorem buildEdgesFillsTheCache : Obligations.BuildEdgesFillsTheCache := by
  intro s I hissue hc hv
  simp only [exec, execBuildEdges, internalGate_open hissue, buildEdges_complete I hc hv, State.ret]

/-- Outside `Complete` there is no valid edge cache (R29, R150). -/
theorem edgesValid_of_not_complete {s : State} (I : Inv s) (hc : s.ch.state ≠ .complete) :
    s.ch.edgesValid = false :=
  Bool.eq_false_iff.2 fun hv => hc (I.cacheComplete hv)

/-- A cache already built is left as it is (R150). -/
theorem withCache_of_valid {s : State} (hv : s.ch.edgesValid = true) : withCache s = s := by
  simp only [withCache, edgesSeen, hv, if_true]
  split
  · rw [← hv]
  · rfl

/-- Outside a capture `ENSURE_EDGES` builds the cache of a completed capture that has none, and does
nothing else (R150). -/
theorem ensureEdges_not_capturing {s : State} (I : Inv s) (hc : s.ch.state ≠ .capturing) :
    ensureEdges s = .ok (withCache s) := by
  have hcomplete : ensureComplete s = .ok s := if_neg hc
  by_cases hs : s.ch.state = .complete
  · cases hv : s.ch.edgesValid with
    | true => simp [ensureEdges, hcomplete, hv, withCache_of_valid hv]
    | false =>
      simp [ensureEdges, hcomplete, hs, hv, buildEdges_complete I hs hv, withCache, edgesSeen]
  · simp [ensureEdges, hcomplete, hs, withCache]

/-- The edges an operation then reads (R150). -/
theorem currentEdges_withCache {s : State} (I : Inv s) : currentEdges (withCache s) = edgesSeen s := by
  by_cases hs : s.ch.state = .complete
  · simp [currentEdges, withCache, hs]
  · simp [currentEdges, withCache, edgesSeen, hs, edgesValid_of_not_complete I hs]

/-! ### `GET_RAW_EDGE_TIMES` outside a capture (R152, R153) -/

/-- The copy writes no further than the array, and reads no further than the edges (R152). -/
theorem copyCount_le (capacity total offset : Nat) :
    copyCount capacity total offset ≤ capacity
      ∧ copyCount capacity total offset ≤ total - offset := by
  unfold copyCount
  split <;> omega

section Copy

variable (dst edges : List EdgeSample) (offset : Nat)

/-- The part of the edges that is copied is as long as the count says. -/
theorem length_copied :
    ((edges.drop offset).take (copyCount dst.length edges.length offset)).length
      = copyCount dst.length edges.length offset := by
  rw [List.length_take, List.length_drop]
  exact min_eq_left (copyCount_le _ _ _).2

theorem length_copyEdges : (copyEdges dst edges offset).length = dst.length := by
  simp only [copyEdges, List.length_append, length_copied, List.length_drop]
  exact Nat.add_sub_cancel' (copyCount_le _ _ _).1

/-- Below the count the array holds the edges from the offset on (R152). -/
theorem getElem?_copyEdges_of_lt {k : Nat}
    (h : k < copyCount dst.length edges.length offset) :
    (copyEdges dst edges offset)[k]? = edges[offset + k]? := by
  rw [copyEdges, List.getElem?_append_left (by rwa [length_copied]), List.getElem?_take_of_lt h,
    List.getElem?_drop]

/-- From the count on it is as it was (R153). -/
theorem getElem?_copyEdges_of_le {k : Nat}
    (h : copyCount dst.length edges.length offset ≤ k) :
    (copyEdges dst edges offset)[k]? = dst[k]? := by
  rw [copyEdges, List.getElem?_append_right (by rwa [length_copied]), length_copied,
    List.getElem?_drop, Nat.add_sub_cancel' h]

end Copy

/-- Settles O46: `ENSURE_EDGES`, then the copy from the cache. -/
theorem getRawEdgeTimesCopiesTheCache : Obligations.GetRawEdgeTimesCopiesTheCache := by
  intro dst offset s I hissue hc
  refine ⟨copyCount dst.length (edgesSeen s).length offset.toNat,
    copyEdges dst (edgesSeen s) offset.toNat, ?_, rfl, length_copyEdges dst (edgesSeen s) offset.toNat,
    fun k => getElem?_copyEdges_of_lt dst (edgesSeen s) offset.toNat,
    fun k => getElem?_copyEdges_of_le dst (edgesSeen s) offset.toNat⟩
  simp only [exec, execGetRawEdgeTimes, channelGate_open hissue, ensureEdges_not_capturing I hc,
    currentEdges_withCache I, State.ret]

/-! ### `DECODE` outside a capture (R171) -/

/-- Settles O54: `ENSURE_EDGES`, then the decode of the cache, which in `Idle` is empty. -/
theorem decodeDecodesTheCache : Obligations.DecodeDecodesTheCache := by
  intro p out s I hissue hc
  refine ⟨_, _, _, _, _, _, execDecodeEdges_open hissue p _ out, rfl, ?_, rfl, fun hidle => ?_⟩
  · simp only [exec, execDecode, channelGate_open hissue, ensureEdges_not_capturing I hc, decodeCache,
      currentEdges_withCache I, State.ret]
  · have hnone : edgesSeen s = [] := if_neg (by rw [hidle]; decide)
    rw [hnone]
    exact ⟨rfl, rfl, rfl, rfl⟩

end Sys2Proof.Machine
end

section
/-! SUPPORT. The decode-engine family (spec/43_decode_engine.md): the windows of `DECODE_BIT` (R158 to
R161), `DECODE_EDGES` of a bit string (R162 to R169) and past a polarity violation (R163, R164), and
the repeated `DECODE` (R172). -/

namespace Sys2Proof.Machine

open Sys2Proof.Spec

/-! ### `DECODE_BIT` (R158 to R161) -/

theorem inWindow_iff {x lo hi : U32} :
    inWindow x lo hi = true ↔ lo.toNat ≤ x.toNat ∧ x.toNat ≤ hi.toNat := by
  rw [inWindow, Bool.and_eq_true, decide_eq_true_eq, decide_eq_true_eq]

/-- The bit-0 windows are tested first (R160). -/
theorem classify_eq_zero_iff {h l : U32} {p : TimingProfile} :
    classify h l p = .zero
      ↔ inWindow h p.t0hMin p.t0hMax = true ∧ inWindow l p.t0lMin p.t0lMax = true := by
  rw [← Bool.and_eq_true, classify]
  split
  · simp [*]
  · split <;> simp [*]

/-- A pair is bit 1 in the bit-1 windows alone, if it is not bit 0 (R160). -/
theorem classify_eq_one_iff {h l : U32} {p : TimingProfile} :
    classify h l p = .one ↔ classify h l p ≠ .zero
      ∧ inWindow h p.t1hMin p.t1hMax = true ∧ inWindow l p.t1lMin p.t1lMax = true := by
  rw [← Bool.and_eq_true, classify]
  split
  · simp
  · split <;> simp [*]

/-- `DECODE_BIT` outside interrupt context needs no channel and returns the classification (R111,
R158). -/
theorem exec_decodeBit {s : State} (hissuer : s.issuer ≠ .interrupt) (h l : U32)
    (p : TimingProfile) :
    exec (.decodeBit h l p) s = .next { s with result := .bit (classify h l p) } := by
  have hgate : engineGate s = none := if_neg hissuer
  simp only [exec, execDecodeBit, hgate, State.ret]

/-- Settles O48: the classification is the windows' alone, so two fields of the profile are free. -/
theorem decodeBitClassifiesThePair : Obligations.DecodeBitClassifiesThePair := by
  intro h l p s hissuer
  refine ⟨classify h l p, exec_decodeBit hissuer h l p,
    fun _ _ => exec_decodeBit hissuer h l _, ?_, ?_⟩
  · rw [classify_eq_zero_iff, inWindow_iff, inWindow_iff, and_assoc]
  · rw [classify_eq_one_iff, inWindow_iff, inWindow_iff, and_assoc]

/-! ### The pairs of an edge sequence (R162 to R164, R169) -/

/-- (HIGH, LOW) pairs at the start of a sequence are classified one by one (R162). -/
theorem classified_highLows_append (p : TimingProfile) (ds : List (U32 × U32))
    (es : List EdgeSample) :
    classified p (highLows ds ++ es)
      = ds.map (fun d => classify d.1 d.2 p) ++ classified p es := by
  induction ds with
  | nil => rfl
  | cons d ds ih =>
    rw [List.map_cons, List.cons_append, ← ih]
    exact if_pos ⟨rfl, rfl⟩

/-- An edge that starts no (HIGH, LOW) pair adds no classification (R163, R164). -/
theorem classified_cons_of_violation (p : TimingProfile) {a : EdgeSample} {rest : List EdgeSample}
    (h : a.high = false ∨ ∃ b more, rest = b :: more ∧ b.high = true) :
    classified p (a :: rest) = classified p rest := by
  cases rest with
  | nil => rfl
  | cons b more =>
    refine if_neg fun hpair => ?_
    obtain hlow | ⟨b', more', heq, hhigh⟩ := h
    · simp [hlow] at hpair
    · obtain ⟨rfl, rfl⟩ := List.cons.inj heq
      simp [hhigh] at hpair

/-- An edge left over is no pair (R169). -/
theorem classified_of_length_le_one (p : TimingProfile) {es : List EdgeSample}
    (h : es.length ≤ 1) : classified p es = [] := by
  match es, h with
  | [], _ => rfl
  | [_], _ => rfl

/-- Settles O51: by O52, what a decode returns rests on the classifications, which are those of the
sequence without the edge. -/
theorem polarityViolationDiscardsOneEdge : Obligations.PolarityViolationDiscardsOneEdge := by
  intro p before a rest out s hissuer hviolation
  have hsame : classified p (highLows before ++ a :: rest)
      = classified p (highLows before ++ rest) := by
    rw [classified_highLows_append, classified_highLows_append,
      classified_cons_of_violation p hviolation]
  obtain ⟨t, hexec, ht⟩ :=
    decodeEdgesAccountsForEveryPair p (highLows before ++ a :: rest) out s hissuer
  obtain ⟨u, hexec', hu⟩ :=
    decodeEdgesAccountsForEveryPair p (highLows before ++ rest) out s hissuer
  rw [hsame] at ht
  exact ⟨t, u, hexec, hexec', ht.trans (by rw [hu])⟩

/-! ### The edges of a bit string (R162, R166 to R169) -/

theorem pairs_eq_highLows (h0 l0 h1 l1 : U32) (bits : List Bool) :
    pairs h0 l0 h1 l1 bits
      = highLows (bits.map fun b => (if b then h1 else h0, if b then l1 else l0)) := by
  rw [pairs, highLows, List.flatMap_map]

@[simp] theorem validBits_map_bitValue (bits : List Bool) : validBits (bits.map bitValue) = bits := by
  induction bits with
  | nil => rfl
  | cons b bits ih => rw [List.map_cons, validBits_bitValue_cons, ih]

theorem upToBit_map_bitValue (bits : List Bool) (n : Nat) :
    upToBit (bits.map bitValue) n = (bits.take n).map bitValue := by
  induction bits generalizing n with
  | nil => simp [upToBit]
  | cons b bits ih => cases n with
    | zero => simp
    | succ n =>
      rw [List.map_cons, upToBit_bitValue_cons b _ n.succ_pos, Nat.succ_sub_one, ih,
        List.take_succ_cons, List.map_cons]

@[simp] theorem count_invalid_map_bitValue (bits : List Bool) :
    (bits.map bitValue).count .invalid = 0 := by
  simp [List.count_eq_zero]

/-- The first bytes of a bit string are those of its first bits (R166). -/
theorem take_packMsb (bits : List Bool) (n : Nat) :
    (packMsb bits).take n = packMsb (bits.take (8 * n)) := by
  induction n generalizing bits with
  | zero => rfl
  | succ n ih =>
    by_cases hlong : 8 ≤ bits.length
    · have hbyte : (bits.take 8).length = 8 := List.length_take_of_le hlong
      calc (packMsb bits).take (n + 1)
          = (packMsb (bits.take 8 ++ bits.drop 8)).take (n + 1) := by rw [List.take_append_drop]
        _ = lowByte (bits.take 8) :: packMsb ((bits.drop 8).take (8 * n)) := by
          rw [packMsb_eight _ hbyte, List.take_succ_cons, ih]
        _ = packMsb (bits.take (8 * (n + 1))) := by
          rw [← packMsb_eight _ hbyte, ← List.take_add, Nat.mul_succ, Nat.add_comm]
    · rw [List.take_of_length_le (by rw [length_packMsb]; omega),
        List.take_of_length_le (by omega)]

section BitString

variable {p : TimingProfile} {h0 l0 h1 l1 : U32} (hzero : classify h0 l0 p = .zero)
  (hone : classify h1 l1 p = .one) (bits : List Bool)

include hzero hone

/-- The edges of a bit string are classified as its bits, and an edge left over adds nothing (R162,
R169). -/
theorem classified_pairs_append {tail : List EdgeSample} (htail : tail.length ≤ 1) :
    classified p (pairs h0 l0 h1 l1 bits ++ tail) = bits.map bitValue := by
  have hbit : ∀ b : Bool,
      classify (if b then h1 else h0) (if b then l1 else l0) p = bitValue b := by
    rintro (_ | _)
    · exact hzero
    · exact hone
  rw [pairs_eq_highLows, classified_highLows_append, classified_of_length_le_one p htail,
    List.append_nil, List.map_map]
  exact List.map_congr_left fun b _ => hbit b

/-- `DECODE_EDGES` of a bit string decodes its first bits, as many as end the byte after those `out`
has slots for (R162, R166 to R169). -/
theorem exec_decodeEdges_bits {tail : List EdgeSample} (htail : tail.length ≤ 1) (out : List Byte)
    {s : State} (hissuer : s.issuer ≠ .interrupt) {seen : List Bool}
    (hseen : bits.take (8 * (out.length + 1)) = seen) :
    ∃ t, exec (.decodeEdges p (pairs h0 l0 h1 l1 bits ++ tail) out) s = .next t
      ∧ t = { s with
          eng := t.eng
          result := .decodedEdges
            (if out.length < (packMsb seen).length then .err .bufferOverflow
              else .ok (packMsb seen).length)
            seen.length 0
            ((packMsb seen).take out.length ++ out.drop (packMsb seen).length) } := by
  obtain ⟨t, hexec, ht⟩ :=
    decodeEdgesAccountsForEveryPair p (pairs h0 l0 h1 l1 bits ++ tail) out s hissuer
  refine ⟨t, hexec, ?_⟩
  simpa [classified_pairs_append hzero hone bits htail, upToBit_map_bitValue, hseen] using ht

end BitString

/-- Settles O49: all the bits are seen, and their bytes fit. -/
theorem decodeEdgesReturnsTheBytes : Obligations.DecodeEdgesReturnsTheBytes := by
  intro p h0 l0 h1 l1 bits tail out s hissuer hzero hone htail hfits
  have hseen : bits.take (8 * (out.length + 1)) = bits := by
    rw [length_packMsb] at hfits
    exact List.take_of_length_le (by omega)
  obtain ⟨t, hexec, ht⟩ := exec_decodeEdges_bits hzero hone bits htail out hissuer hseen
  rw [if_neg (by omega), List.take_of_length_le hfits] at ht
  exact ⟨t, hexec, ht⟩

/-- Settles O50: the bits seen make one byte more than `out` has slots. -/
theorem decodeEdgesStopsAtOverflow : Obligations.DecodeEdgesStopsAtOverflow := by
  intro p h0 l0 h1 l1 bits out s hissuer hzero hone hover
  obtain ⟨t, hexec, ht⟩ :=
    exec_decodeEdges_bits hzero hone bits (tail := []) (Nat.zero_le 1) out hissuer rfl
  have hlen : ((packMsb bits).take (out.length + 1)).length = out.length + 1 :=
    List.length_take_of_le hover
  rw [← take_packMsb, hlen, if_pos (Nat.lt_succ_self _), List.length_take, Nat.min_comm,
    List.take_take, Nat.min_eq_left (Nat.le_succ _), List.drop_eq_nil_of_le (Nat.le_succ _),
    List.append_nil] at ht
  rw [List.append_nil] at hexec
  exact ⟨t, hexec, ht⟩

/-! ### A second `DECODE` (R172) -/

/-- The block after `ENSURE_EDGES`: outside a capture, with the cache of a completed one built
(R150). -/
structure CacheReady (s : State) : Prop where
  notCapturing : s.ch.state ≠ .capturing
  built : s.ch.state = .complete → s.ch.edgesValid = true

/-- `ENSURE_EDGES` has nothing left to do (R150). -/
theorem CacheReady.ensureEdges_eq {s : State} (C : CacheReady s) : ensureEdges s = .ok s := by
  have hcomplete : ensureComplete s = .ok s := if_neg C.notCapturing
  simpa [ensureEdges, hcomplete] using fun hs hv => absurd (C.built hs) (by simp [hv])

/-- `DISARM` and the hardware agents' steps change neither the issuer nor whether a channel exists. -/
theorem disarmed_issuer_created {s d : State} (D : Disarmed s d) :
    d.issuer = s.issuer ∧ d.created = s.created := by
  cases hb : s.plat.backend with
  | mock => rw [D.mock hb]; exact ⟨rfl, rfl⟩
  | hardware =>
    rw [(D.hardware hb).frame, (interleave_frame s).rest]
    exact ⟨rfl, rfl⟩

/-- Nor does `WAIT(0)` before it completes the capture (R104). -/
theorem zeroWait_issuer_created (s : State) :
    (zeroWait s).2.issuer = s.issuer ∧ (zeroWait s).2.created = s.created := by
  simp only [zeroWait]
  split
  · rw [nowUs_frame]
    exact ⟨rfl, rfl⟩
  · rw [(interleave_frame _).rest, nowUs_frame, nowUs_frame]
    exact ⟨rfl, rfl⟩

theorem canIssue_withCache {s : State} (h : CanIssue s) : CanIssue (withCache s) := by
  unfold withCache
  split
  · exact ⟨h.context, h.created, h.live⟩
  · exact h

theorem cacheReady_withCache {s : State} (hc : s.ch.state ≠ .capturing) :
    CacheReady (withCache s) := by
  unfold withCache
  split
  · exact ⟨hc, fun _ => rfl⟩
  · next hs => exact ⟨hc, fun h => absurd h hs⟩

/-- `ENSURE_EDGES` succeeds, leaves the cache built, and the foreground may issue again (R104,
R150). -/
theorem ensureEdges_cacheReady {s : State} (I : Inv s) (h : CanIssue s) :
    ∃ t, ensureEdges s = .ok t ∧ CanIssue t ∧ CacheReady t := by
  by_cases hc : s.ch.state = .capturing
  · obtain ⟨d, t, C, ht⟩ := ensureEdges_capturing I hc
    obtain ⟨hissuer, hcreated⟩ := disarmed_issuer_created C.disarmed
    obtain ⟨hissuer', hcreated'⟩ := zeroWait_issuer_created s
    have hstate : t.ch.state = .complete := by rw [C.frame]
    have hcontext : t.issuer = s.issuer := by rw [C.frame, ← hissuer', ← hissuer]
    have hcreated : t.created = s.created := by rw [C.frame, ← hcreated', ← hcreated]
    exact ⟨_, ht,
      ⟨hcontext ▸ h.context, hcreated.trans h.created, by rw [hstate]; decide⟩,
      by rw [hstate]; decide, fun _ => rfl⟩
  · exact ⟨_, ensureEdges_not_capturing I hc, canIssue_withCache h, cacheReady_withCache hc⟩

/-- `DECODE` once `ENSURE_EDGES` has succeeded (R171). -/
theorem exec_decode_open {s t : State} (h : CanIssue s) (ht : ensureEdges s = .ok t)
    (p : TimingProfile) (out : List Byte) :
    exec (.decode p out) s = .next (decodeCache p out t) := by
  simp only [exec, execDecode, channelGate_open h, ht]

/-- The decode of the cache reads nothing it writes (R172). -/
theorem decodeCache_decodeCache (p : TimingProfile) (out : List Byte) (s : State) :
    decodeCache p out (decodeCache p out s) = decodeCache p out s := rfl

/-- Settles O56: the second `ENSURE_EDGES` does nothing, and the second decode of the cache gives what
the first one gave. -/
theorem decodeIsIdempotent : Obligations.DecodeIsIdempotent := by
  intro p out s I hissue
  obtain ⟨t, ht, h, C⟩ := ensureEdges_cacheReady I hissue
  have hagain : CanIssue (decodeCache p out t) := ⟨h.context, h.created, h.live⟩
  have hready : CacheReady (decodeCache p out t) := ⟨C.notCapturing, C.built⟩
  refine ⟨_, exec_decode_open hissue ht p out, ?_⟩
  rw [exec_decode_open hagain hready.ensureEdges_eq, decodeCache_decodeCache]

end Sys2Proof.Machine
end

section
/-! SUPPORT. The ISR and the completion signal (spec/60_exceptions.md R181, R182, R185): the ISR
step by itself, and that nothing but `ARM` and `CREATE` clears a signal once set, from every state. -/

namespace Sys2Proof.Machine

open Sys2Proof.Spec

/-! ### The ISR step (R181, R185) -/

/-- Settles O35: the enabled ISR step leaves the ISR not running, as it found it; where one of the
three conditions fails the step is not enabled. -/
theorem isrSetsTheSignal : Obligations.IsrSetsTheSignal := by
  intro rest s hm
  rw [step_of_hardware hm, hwStep]
  refine ⟨fun hpending henabled hidle => ?_, fun hoff => ?_⟩
  · have hon : isrEnabled { s with sched := rest } = true := by
      simp [isrEnabled, hpending, henabled, hidle]
    simp only [isrStep_enabled _ hon, hidle]
  · rw [isrStep_not_enabled]
    rcases hoff with h | h | h <;> simp [isrEnabled, h]

/-! ### What the reads of the buffer write (R63, R143) -/

theorem bufReadFg_frame {i : Nat} {v : Sample} {s t : State} (h : bufReadFg i s = .ok (v, t)) :
    t = { s with draws := t.draws } := by
  unfold bufReadFg at h
  split at h
  · cases h
  · split at h
    · cases h
    · split at h <;> cases h <;> rfl

theorem readSlots_frame {n i : Nat} {vs : List Sample} {s t : State}
    (h : readSlots n i s = .ok (vs, t)) : t = { s with draws := t.draws } := by
  induction n generalizing i s vs with
  | zero => cases h; rfl
  | succ n ih =>
    unfold readSlots at h
    split at h
    · cases h
    · rename_i hread
      split at h
      · cases h
      · rename_i hrest
        cases h
        rw [ih hrest, bufReadFg_frame hread]

/-- `BUILD_EDGES` writes the channel registers alone, but for the free values it draws (R143). -/
theorem buildEdges_frame {s t : State} (h : buildEdges s = .ok t) :
    t = { s with ch := t.ch, draws := t.draws } := by
  unfold buildEdges at h
  split at h
  · cases h; rfl
  · split at h
    · cases h
    · rename_i hread
      have hframe := readSlots_frame hread
      cases h
      rw [hframe]

/-! ### The signal stays (R182) -/

section Signalled

variable {s t : State} (hs : s.completion = true)
include hs

theorem disarmLines_signal : (disarmLines s).completion = true := by
  have hdrain : (drain { s with cap := { s.cap with armed := false } }).completion = true := by
    rw [(drain_frame _).rest]; exact hs
  exact (isrReturn_still _).signal ((interleave_forward _).1 hdrain)

theorem disarm_signal : (disarm s).completion = true := by
  unfold disarm
  split
  · exact hs
  · exact disarmLines_signal ((interleave_forward s).1 hs)

theorem disarmIfCapturing_signal : (disarmIfCapturing s).completion = true := by
  unfold disarmIfCapturing
  split
  · exact disarm_signal hs
  · exact hs

theorem completeCapture_signal {reason : CompletionReason} (h : completeCapture reason s = .ok t) :
    t.completion = true := by
  unfold completeCapture at h
  dsimp only at h
  split at h
  · cases h
  · rename_i u hu
    have hkept : u.completion = true := by rw [syncReads_frame hu]; exact disarm_signal hs
    cases h; exact hkept

/-- With the signal set the poll takes exit (a), so of a poll's parts only the completion of the
capture matters (R96, R103). -/
theorem waitPoll_signal {r : WaitRegs} {q : Option WaitRegs} (h : waitPoll r s = .ok (t, q)) :
    t.completion = true := by
  rw [waitPoll_signalled r hs, waitExit] at h
  split at h
  · cases h
  · rename_i hcomplete
    have hkept := completeCapture_signal hs hcomplete
    cases h; exact hkept

theorem pollStep_signal (r : WaitRegs) : (pollStep r s).completion = true := by
  unfold pollStep
  split
  · split
    · exact hs
    · rename_i hended
      exact (waitPoll_signal hs hended :)
    · rename_i hasleep
      exact waitPoll_signal hs hasleep
  · exact hs

theorem nowUs_signal : (nowUs s).2.completion = true := by
  obtain ⟨-, -, hsig⟩ := nowUs_block s
  exact hsig.trans hs

theorem ensureComplete_signal (h : ensureComplete s = .ok t) : t.completion = true := by
  unfold ensureComplete at h
  split at h
  · simp only [waitEnter] at h
    split at h
    · cases h
    · rename_i hpoll
      cases h
      exact waitPoll_signal (nowUs_signal hs) hpoll
  · cases h; exact hs

theorem ensureEdges_signal (h : ensureEdges s = .ok t) : t.completion = true := by
  unfold ensureEdges at h
  split at h
  · cases h
  · rename_i hcomplete
    have hkept := ensureComplete_signal hs hcomplete
    split at h
    · rw [buildEdges_frame h]; exact hkept
    · cases h; exact hkept

/-- A move of another agent is a hardware step, which clears no signal, or changes nothing of the
block. -/
theorem step_of_other_move_signal {m : Move} {rest : List Move} (hm : s.sched = m :: rest)
    (hf : m ≠ .foreground) (h : step s = .next t) : t.completion = true := by
  rcases step_of_other_move hm hf h with ⟨k, rfl⟩ | F
  · exact (hwStep_forward k _).1 hs
  · rw [F.rest]; exact hs

/-! #### The operations, refused by their gate or run -/

/-- A public channel operation but `BEGIN` clears no signal (R78). -/
theorem exec_public_signal {i : Instr} (hpublic : isPublic i = true) (hi : clearsSignal i = false)
    (h : exec i s = .next t) : t.completion = true := by
  cases hgate : channelGate s with
  | some reason =>
    rw [exec_public_refused hpublic hgate] at h
    cases h; exact hs
  | none =>
    cases i with
    | finished =>
      simp only [exec, execFinished, hgate] at h
      cases h; exact hs
    | wait timeoutMs =>
      simp only [exec, execWait, hgate] at h
      split at h
      · cases h; exact hs
      · cases h; exact hs
      · cases h; exact nowUs_signal hs
    | decode profile out =>
      simp only [exec, execDecode, hgate] at h
      split at h
      · cases h; exact hs
      · rename_i hedges
        cases h; exact (ensureEdges_signal hs hedges :)
    | getRawEdgeTimes dst offset =>
      simp only [exec, execGetRawEdgeTimes, hgate] at h
      split at h
      · cases h; exact hs
      · rename_i hedges
        cases h; exact (ensureEdges_signal hs hedges :)
    | injectEdges edges =>
      simp only [exec, execInjectEdges, hgate] at h
      split at h
      · cases h; exact hs
      · cases h; exact disarmIfCapturing_signal hs
    | destroy =>
      simp only [exec, execDestroy, hgate] at h
      cases h; exact disarmIfCapturing_signal hs
    | beginCapture => cases hi
    | _ => cases hpublic

/-- An internal operation but `ARM` clears no signal, refused or issued by the block (R80). -/
theorem exec_internal_signal {i : Instr} (hinternal : isInternal i = true)
    (hi : clearsSignal i = false) (h : exec i s = .next t) : t.completion = true := by
  cases hgate : internalGate s with
  | some reason =>
    rw [exec_internal_refused hinternal hgate] at h
    cases h; exact hs
  | none =>
    cases i with
    | disarm =>
      simp only [exec, execDisarm, hgate] at h
      cases h; exact disarm_signal hs
    | readProgress =>
      simp only [exec, execReadProgress, hgate] at h
      cases h; exact hs
    | syncReads first count =>
      simp only [exec, execSyncReads, hgate] at h
      split at h
      · cases h; exact hs
      · rename_i u hsync
        have hkept : u.completion = true := by rw [syncReads_frame hsync]; exact hs
        cases h; exact hkept
    | completeCapture reason status =>
      simp only [exec, execCompleteCapture, hgate] at h
      split at h
      · cases h; exact hs
      · rename_i hcomplete
        cases h; exact (completeCapture_signal hs hcomplete :)
    | buildEdges =>
      simp only [exec, execBuildEdges, hgate] at h
      split at h
      · cases h; exact hs
      · rename_i u hbuild
        have hkept : u.completion = true := by rw [buildEdges_frame hbuild]; exact hs
        cases h; exact hkept
    | arm => cases hi
    | _ => cases hinternal

/-- An operation that runs neither `ARM` nor `CREATE` leaves the signal set: a public one, an
internal one, or one of the Decode Engine's, which write its own registers alone. -/
theorem exec_signal {i : Instr} (hi : clearsSignal i = false) (h : exec i s = .next t) :
    t.completion = true := by
  cases i with
  | create | beginCapture | arm => cases hi
  | decodeBit =>
    simp only [exec, execDecodeBit] at h
    split at h <;> cases h <;> exact hs
  | decodeEdges =>
    simp only [exec, execDecodeEdges] at h
    split at h <;> cases h <;> exact hs
  | finished | wait | decode | getRawEdgeTimes | injectEdges | destroy =>
    exact exec_public_signal hs rfl rfl h
  | disarm | readProgress | syncReads | completeCapture | buildEdges =>
    exact exec_internal_signal hs rfl rfl h

end Signalled

/-- Settles O37: the other agents' moves, the poll of a live `WAIT`, and the operations. -/
theorem signalStaysUntilRearmed : Obligations.SignalStaysUntilRearmed := by
  intro s hs
  refine ⟨fun m rest t => step_of_other_move_signal hs, fun start r t turn live h => ?_,
    fun i t => exec_signal hs⟩
  rw [step_of_turn turn, foregroundStep, live] at h
  cases h
  exact pollStep_signal hs r

end Sys2Proof.Machine
end
